-- ==== Sys2Proof/Word.lean ====
section
/-! DEFINITION. The value types of the engine: bytes, byte sequences and 128-bit blocks (00_scope.md R10, R20). -/

namespace Sys2Proof

/-- An 8-bit byte (R10). -/
abbrev Byte := BitVec 8

/-- A finite sequence of bytes, first byte leftmost (R10, R20). -/
abbrev Bytes := List Byte

/-- A 16-byte block as the unsigned integer of its big-endian bytes: byte 0 is bits 127 to 120 (R20, R31).
It is also a field element of GF(2^128) (R140). -/
abbrev Block := BitVec 128

end Sys2Proof
end

