-- ==== Sys2Proof/Syntax.lean ====
section
/-! DEFINITION. The commands of the engine, one constructor per row of the opcode table (30_encoding.md R101),
with their operands typed as R93 to R95 give them. -/

namespace Sys2Proof

/-- The shape of the staged parameters an `INIT` is to read (`PTYPE`, R93): 0 `KEY`, 1 `KEY_IV`, 2 `AEAD`,
3 `KEY_RANDOM`. -/
inductive PType where
  | key
  | keyIv
  | aead
  | keyRandom
  deriving DecidableEq, Repr

/-- The kind of a mode context (`M.KIND`, `KIND` of `BPC.CFG`; R36, R93): 1 `ECB`, 2 `CBC`, 3 `CFB`, 4 `OFB`,
5 `CTR`. -/
inductive Kind where
  | ecb
  | cbc
  | cfb
  | ofb
  | ctr
  deriving DecidableEq, Repr

/-- The 59 commands (R101). `data` is the payload, whose length is `ILEN`; `ocap` and `imm` are the low 24 bits
where the command reads them (R90, R95); `dir` is `DIR` with `true` = 1 = encrypt (R93); `len` is the operand of
`OSIZE`, the payload read as a big-endian 64-bit number (R95). -/
inductive Instr where
  /-- `SYS.NOP`, R121. -/
  | sysNop
  /-- `SYS.LDKEY`, R122. -/
  | sysLdkey (data : Bytes)
  /-- `SYS.CLRKEY`, R123. -/
  | sysClrkey
  /-- `SYS.LDIV`, R124. -/
  | sysLdiv (data : Bytes)
  /-- `SYS.CLRIV`, R125. -/
  | sysClriv
  /-- `SYS.LDAAD`, R126. -/
  | sysLdaad (data : Bytes)
  /-- `SYS.CLRAAD`, R127. -/
  | sysClraad
  /-- `SYS.LDMAC`, R128. -/
  | sysLdmac (imm : BitVec 24)
  /-- `SYS.CLRMAC`, R129. -/
  | sysClrmac
  /-- `SYS.STATUS`, R130. -/
  | sysStatus (ocap : BitVec 24)
  /-- `GF.XOR`, R147. -/
  | gfXor (data : Bytes) (ocap : BitVec 24)
  /-- `GF.MUL`, R148. -/
  | gfMul (data : Bytes) (ocap : BitVec 24)
  /-- `GF.GHASH`, R149. -/
  | gfGhash (data : Bytes) (ocap : BitVec 24)
  /-- `ECB.CFG`, R163. -/
  | ecbCfg
  /-- `ECB.INIT`, R164. -/
  | ecbInit (dir : Bool) (ptype : PType)
  /-- `ECB.RESET`, R165. -/
  | ecbReset
  /-- `ECB.BLOCK`, R166. -/
  | ecbBlock (data : Bytes) (ocap : BitVec 24)
  /-- `CBC.CFG`, R167. -/
  | cbcCfg
  /-- `CBC.INIT`, R168. -/
  | cbcInit (dir : Bool) (ptype : PType)
  /-- `CBC.RESET`, R169. -/
  | cbcReset
  /-- `CBC.BLOCK`, R170. -/
  | cbcBlock (data : Bytes) (ocap : BitVec 24)
  /-- `CFB.CFG`, R181. -/
  | cfbCfg (imm : BitVec 24)
  /-- `CFB.INIT`, R182. -/
  | cfbInit (dir : Bool) (ptype : PType)
  /-- `CFB.RESET`, R183. -/
  | cfbReset
  /-- `CFB.BLOCK`, R184. -/
  | cfbBlock (data : Bytes) (ocap : BitVec 24)
  /-- `CFB.BYTES`, R185. -/
  | cfbBytes (data : Bytes) (ocap : BitVec 24)
  /-- `OFB.CFG`, R186. -/
  | ofbCfg (imm : BitVec 24)
  /-- `OFB.INIT`, R187. -/
  | ofbInit (dir : Bool) (ptype : PType)
  /-- `OFB.RESET`, R188. -/
  | ofbReset
  /-- `OFB.BLOCK`, R189. -/
  | ofbBlock (data : Bytes) (ocap : BitVec 24)
  /-- `OFB.BYTES`, R190. -/
  | ofbBytes (data : Bytes) (ocap : BitVec 24)
  /-- `CTR.CFG`, R205. -/
  | ctrCfg
  /-- `CTR.INIT`, R206. -/
  | ctrInit (dir : Bool) (ptype : PType)
  /-- `CTR.RESET`, R207. -/
  | ctrReset
  /-- `CTR.BLOCK`, R208. -/
  | ctrBlock (data : Bytes) (ocap : BitVec 24)
  /-- `CTR.BYTES`, R209. -/
  | ctrBytes (data : Bytes) (ocap : BitVec 24)
  /-- `GCM.CFG`, R228. -/
  | gcmCfg
  /-- `GCM.INIT`, R229. -/
  | gcmInit (dir : Bool) (ptype : PType)
  /-- `GCM.RESET`, R230. -/
  | gcmReset
  /-- `GCM.BYTES`, R232. -/
  | gcmBytes (data : Bytes) (ocap : BitVec 24)
  /-- `GCM.AAD`, R231. -/
  | gcmAad (data : Bytes)
  /-- `GCM.FINAL`, R235. -/
  | gcmFinal (ocap : BitVec 24)
  /-- `GCM.OSIZE`, R238. -/
  | gcmOsize (len : BitVec 64) (ocap : BitVec 24)
  /-- `BPC.CFG`, R261. -/
  | bpcCfg (kind : Kind) (imm : BitVec 24)
  /-- `BPC.INIT`, R262. -/
  | bpcInit (dir : Bool) (ptype : PType)
  /-- `BPC.RESET`, R263. -/
  | bpcReset
  /-- `BPC.BYTES`, R264. -/
  | bpcBytes (data : Bytes) (ocap : BitVec 24)
  /-- `BPC.FINAL`, R265. -/
  | bpcFinal (ocap : BitVec 24)
  /-- `BPC.OSIZE`, R268. -/
  | bpcOsize (len : BitVec 64) (ocap : BitVec 24)
  /-- `HMAC.CFG`, R281. -/
  | hmacCfg
  /-- `HMAC.INIT`, R282. -/
  | hmacInit (dir : Bool) (ptype : PType)
  /-- `HMAC.RESET`, R283. -/
  | hmacReset
  /-- `HMAC.UPDATE`, R284. -/
  | hmacUpdate (data : Bytes)
  /-- `HMAC.FINAL`, R285. -/
  | hmacFinal (ocap : BitVec 24)
  /-- `KMAC.CFG`, R301. -/
  | kmacCfg (imm : BitVec 24)
  /-- `KMAC.INIT`, R302. -/
  | kmacInit (dir : Bool) (ptype : PType)
  /-- `KMAC.RESET`, R303. -/
  | kmacReset
  /-- `KMAC.UPDATE`, R304. -/
  | kmacUpdate (data : Bytes)
  /-- `KMAC.FINAL`, R305. -/
  | kmacFinal (ocap : BitVec 24)
  deriving DecidableEq, Repr

end Sys2Proof
end

