-- ==== Sys2Proof/WellFormed.lean ====
section
/-! DEFINITION. When a command is well formed: its payload fits the 24-bit `ILEN` field (30_encoding.md R90). Every
other limit of an encoding is in the operands' types (`PType`, `Kind`, the bit vectors). -/

namespace Sys2Proof

/-- The payload bytes of a command whose payload length the encoding leaves free; `OSIZE`'s eight bytes and the empty
payloads always fit (R94). -/
def Instr.payload : Instr → Bytes
  | .sysLdkey d | .sysLdiv d | .sysLdaad d | .gcmAad d | .hmacUpdate d | .kmacUpdate d => d
  | .gfXor d _ | .gfMul d _ | .gfGhash d _ => d
  | .ecbBlock d _ | .cbcBlock d _ | .cfbBlock d _ | .ofbBlock d _ | .ctrBlock d _ => d
  | .cfbBytes d _ | .ofbBytes d _ | .ctrBytes d _ | .gcmBytes d _ | .bpcBytes d _ => d
  | .sysNop | .sysClrkey | .sysClriv | .sysClraad | .sysLdmac _ | .sysClrmac | .sysStatus _ => []
  | .ecbCfg | .ecbInit _ _ | .ecbReset | .cbcCfg | .cbcInit _ _ | .cbcReset => []
  | .cfbCfg _ | .cfbInit _ _ | .cfbReset | .ofbCfg _ | .ofbInit _ _ | .ofbReset => []
  | .ctrCfg | .ctrInit _ _ | .ctrReset | .gcmCfg | .gcmInit _ _ | .gcmReset | .gcmFinal _ | .gcmOsize _ _ => []
  | .bpcCfg _ _ | .bpcInit _ _ | .bpcReset | .bpcFinal _ | .bpcOsize _ _ => []
  | .hmacCfg | .hmacInit _ _ | .hmacReset | .hmacFinal _ => []
  | .kmacCfg _ | .kmacInit _ _ | .kmacReset | .kmacFinal _ => []

/-- A command is well formed when its payload is at most `LENMAX = 2^24 - 1` bytes (R9, R90). -/
abbrev Instr.WellFormed (i : Instr) : Prop :=
  i.payload.length < 2 ^ 24

end Sys2Proof
end

