-- ==== Sys2Proof/Decode.lean ====
section
/-! DEFINITION. The packet decoder and encoder (30_encoding.md R90 to R101): a total function from bytes to a command
or a named rejection, and the bytes of a command. -/

namespace Sys2Proof

/-- `int(a)`: the unsigned integer whose big-endian bytes are `a` (00_scope.md R20). -/
def beNat (a : Bytes) : Nat :=
  a.foldl (fun n b => n * 256 + b.toNat) 0

/-- The `k` bytes of `n mod 2^(8k)`, most significant byte first: `be32` is `beBytes 4`, `be64` is `beBytes 8` (R20). -/
def beBytes : Nat → Nat → Bytes
  | 0, _ => []
  | k + 1, n => BitVec.ofNat 8 (n >>> (8 * k)) :: beBytes k n

/-! ## The command word -/

/-- `UNIT`, bits 63:60 of the command word (R90). -/
def wordUnit (w : BitVec 64) : BitVec 4 := w.extractLsb' 60 4

/-- `OP`, bits 59:56 (R90). -/
def wordOp (w : BitVec 64) : BitVec 4 := w.extractLsb' 56 4

/-- `ARG`, bits 55:48 (R90). -/
def wordArg (w : BitVec 64) : BitVec 8 := w.extractLsb' 48 8

/-- `ILEN`, bits 47:24 (R90). -/
def wordIlen (w : BitVec 64) : BitVec 24 := w.extractLsb' 24 24

/-- `OCAP` or `IMM`, bits 23:0 (R90). -/
def wordLow (w : BitVec 64) : BitVec 24 := w.extractLsb' 0 24

/-- What `ARG` holds for a command (R93). -/
inductive ArgForm where
  /-- `ARG` must be 0. -/
  | none
  /-- `DIR` in bit 0, `PTYPE` in bits 3:1, bits 7:4 zero. -/
  | init
  /-- `KIND` in bits 2:0, bits 7:3 zero. -/
  | kind
  deriving DecidableEq, Repr

/-- Which `ILEN` a command accepts at decode (R94). -/
inductive LenForm where
  | zero
  | eight
  | any
  deriving DecidableEq, Repr

/-- The operands a packet can carry. -/
structure PacketOperands where
  dir : Bool
  ptype : PType
  kind : Kind
  data : Bytes
  low : BitVec 24
  deriving DecidableEq, Repr

/-- One row of the opcode map (R101): the form of its `ARG`, of its `ILEN`, and the command it stands for. -/
structure Row where
  arg : ArgForm
  len : LenForm
  build : PacketOperands → Instr

/-- The operations of unit 0 `SYS` (R92, R101). -/
def sysRow : Nat → Option Row
  | 0 => some ⟨.none, .zero, fun _ => .sysNop⟩
  | 1 => some ⟨.none, .any, fun x => .sysLdkey x.data⟩
  | 2 => some ⟨.none, .zero, fun _ => .sysClrkey⟩
  | 3 => some ⟨.none, .any, fun x => .sysLdiv x.data⟩
  | 4 => some ⟨.none, .zero, fun _ => .sysClriv⟩
  | 5 => some ⟨.none, .any, fun x => .sysLdaad x.data⟩
  | 6 => some ⟨.none, .zero, fun _ => .sysClraad⟩
  | 7 => some ⟨.none, .zero, fun x => .sysLdmac x.low⟩
  | 8 => some ⟨.none, .zero, fun _ => .sysClrmac⟩
  | 9 => some ⟨.none, .zero, fun x => .sysStatus x.low⟩
  | _ => none

/-- The operations of unit 1 `GF` (R92, R101). -/
def gfRow : Nat → Option Row
  | 0 => some ⟨.none, .any, fun x => .gfXor x.data x.low⟩
  | 1 => some ⟨.none, .any, fun x => .gfMul x.data x.low⟩
  | 2 => some ⟨.none, .any, fun x => .gfGhash x.data x.low⟩
  | _ => none

/-- The operations of unit 2 `ECB` (R92, R101). -/
def ecbRow : Nat → Option Row
  | 0 => some ⟨.none, .zero, fun _ => .ecbCfg⟩
  | 1 => some ⟨.init, .zero, fun x => .ecbInit x.dir x.ptype⟩
  | 2 => some ⟨.none, .zero, fun _ => .ecbReset⟩
  | 3 => some ⟨.none, .any, fun x => .ecbBlock x.data x.low⟩
  | _ => none

/-- The operations of unit 3 `CBC` (R92, R101). -/
def cbcRow : Nat → Option Row
  | 0 => some ⟨.none, .zero, fun _ => .cbcCfg⟩
  | 1 => some ⟨.init, .zero, fun x => .cbcInit x.dir x.ptype⟩
  | 2 => some ⟨.none, .zero, fun _ => .cbcReset⟩
  | 3 => some ⟨.none, .any, fun x => .cbcBlock x.data x.low⟩
  | _ => none

/-- The operations of unit 4 `CFB` (R92, R101). -/
def cfbRow : Nat → Option Row
  | 0 => some ⟨.none, .zero, fun x => .cfbCfg x.low⟩
  | 1 => some ⟨.init, .zero, fun x => .cfbInit x.dir x.ptype⟩
  | 2 => some ⟨.none, .zero, fun _ => .cfbReset⟩
  | 3 => some ⟨.none, .any, fun x => .cfbBlock x.data x.low⟩
  | 4 => some ⟨.none, .any, fun x => .cfbBytes x.data x.low⟩
  | _ => none

/-- The operations of unit 5 `OFB` (R92, R101). -/
def ofbRow : Nat → Option Row
  | 0 => some ⟨.none, .zero, fun x => .ofbCfg x.low⟩
  | 1 => some ⟨.init, .zero, fun x => .ofbInit x.dir x.ptype⟩
  | 2 => some ⟨.none, .zero, fun _ => .ofbReset⟩
  | 3 => some ⟨.none, .any, fun x => .ofbBlock x.data x.low⟩
  | 4 => some ⟨.none, .any, fun x => .ofbBytes x.data x.low⟩
  | _ => none

/-- The operations of unit 6 `CTR` (R92, R101). -/
def ctrRow : Nat → Option Row
  | 0 => some ⟨.none, .zero, fun _ => .ctrCfg⟩
  | 1 => some ⟨.init, .zero, fun x => .ctrInit x.dir x.ptype⟩
  | 2 => some ⟨.none, .zero, fun _ => .ctrReset⟩
  | 3 => some ⟨.none, .any, fun x => .ctrBlock x.data x.low⟩
  | 4 => some ⟨.none, .any, fun x => .ctrBytes x.data x.low⟩
  | _ => none

/-- The operations of unit 7 `GCM` (R92, R101). -/
def gcmRow : Nat → Option Row
  | 0 => some ⟨.none, .zero, fun _ => .gcmCfg⟩
  | 1 => some ⟨.init, .zero, fun x => .gcmInit x.dir x.ptype⟩
  | 2 => some ⟨.none, .zero, fun _ => .gcmReset⟩
  | 4 => some ⟨.none, .any, fun x => .gcmBytes x.data x.low⟩
  | 5 => some ⟨.none, .any, fun x => .gcmAad x.data⟩
  | 6 => some ⟨.none, .zero, fun x => .gcmFinal x.low⟩
  | 7 => some ⟨.none, .eight, fun x => .gcmOsize (BitVec.ofNat 64 (beNat x.data)) x.low⟩
  | _ => none

/-- The operations of unit 8 `BPC` (R92, R101). -/
def bpcRow : Nat → Option Row
  | 0 => some ⟨.kind, .zero, fun x => .bpcCfg x.kind x.low⟩
  | 1 => some ⟨.init, .zero, fun x => .bpcInit x.dir x.ptype⟩
  | 2 => some ⟨.none, .zero, fun _ => .bpcReset⟩
  | 4 => some ⟨.none, .any, fun x => .bpcBytes x.data x.low⟩
  | 6 => some ⟨.none, .zero, fun x => .bpcFinal x.low⟩
  | 7 => some ⟨.none, .eight, fun x => .bpcOsize (BitVec.ofNat 64 (beNat x.data)) x.low⟩
  | _ => none

/-- The operations of unit 9 `HMAC` (R92, R101). -/
def hmacRow : Nat → Option Row
  | 0 => some ⟨.none, .zero, fun _ => .hmacCfg⟩
  | 1 => some ⟨.init, .zero, fun x => .hmacInit x.dir x.ptype⟩
  | 2 => some ⟨.none, .zero, fun _ => .hmacReset⟩
  | 4 => some ⟨.none, .any, fun x => .hmacUpdate x.data⟩
  | 6 => some ⟨.none, .zero, fun x => .hmacFinal x.low⟩
  | _ => none

/-- The operations of unit 10 `KMAC` (R92, R101). -/
def kmacRow : Nat → Option Row
  | 0 => some ⟨.none, .zero, fun x => .kmacCfg x.low⟩
  | 1 => some ⟨.init, .zero, fun x => .kmacInit x.dir x.ptype⟩
  | 2 => some ⟨.none, .zero, fun _ => .kmacReset⟩
  | 4 => some ⟨.none, .any, fun x => .kmacUpdate x.data⟩
  | 6 => some ⟨.none, .zero, fun x => .kmacFinal x.low⟩
  | _ => none

/-- The opcode map: the row a `(UNIT, OP)` pair names, or none where it names no command (R91, R92, R101). -/
def row (unit op : BitVec 4) : Option Row :=
  match unit.toNat with
  | 0 => sysRow op.toNat
  | 1 => gfRow op.toNat
  | 2 => ecbRow op.toNat
  | 3 => cbcRow op.toNat
  | 4 => cfbRow op.toNat
  | 5 => ofbRow op.toNat
  | 6 => ctrRow op.toNat
  | 7 => gcmRow op.toNat
  | 8 => bpcRow op.toNat
  | 9 => hmacRow op.toNat
  | 10 => kmacRow op.toNat
  | _ => none

/-- The `PTYPE` of bits 3:1 of `ARG`; 4 to 7 are reserved (R93). -/
def ptypeOf : Nat → Option PType
  | 0 => some .key
  | 1 => some .keyIv
  | 2 => some .aead
  | 3 => some .keyRandom
  | _ => none

/-- The `KIND` of bits 2:0 of `ARG`; 0, 6 and 7 are reserved (R93). -/
def kindOf : Nat → Option Kind
  | 1 => some .ecb
  | 2 => some .cbc
  | 3 => some .cfb
  | 4 => some .ofb
  | 5 => some .ctr
  | _ => none

/-- The operands that `ARG` holds, or none where `ARG` is not legal for the command (R93). `dir`, `ptype` and `kind`
are given fixed fillers where the form has no such field; no row's `build` reads a filler. -/
def argOperands (f : ArgForm) (arg : BitVec 8) : Option (Bool × PType × Kind) :=
  match f with
  | .none => if arg = 0 then some (false, .key, .ecb) else none
  | .init =>
    if arg.extractLsb' 4 4 = 0 then
      (ptypeOf (arg.extractLsb' 1 3).toNat).map fun t => (arg.getLsbD 0, t, .ecb)
    else none
  | .kind =>
    if arg.extractLsb' 3 5 = 0 then
      (kindOf (arg.extractLsb' 0 3).toNat).map fun k => (false, .key, k)
    else none

/-- Whether `ILEN` satisfies R94. -/
def ilenLegal (f : LenForm) (ilen : Nat) : Bool :=
  match f with
  | .zero => ilen == 0
  | .eight => ilen == 8
  | .any => true

/-- Why the bytes at `cp` are no packet (R97, R99), with the `UNIT` and `OP` that were read. -/
inductive DecodeError where
  /-- Fewer than 8 bytes are left for the command word: `F_TRUNC`. -/
  | truncWord
  /-- `(UNIT, OP)` names no command: `F_ILLEGAL`. -/
  | illegalOp (unit op : BitVec 4)
  /-- `ARG` is not legal for the command: `F_ILLEGAL`. -/
  | illegalArg (unit op : BitVec 4)
  /-- `ILEN` breaks R94: `F_ILLEGAL`. -/
  | illegalLen (unit op : BitVec 4)
  /-- Fewer than `ILEN` bytes are left for the payload: `F_TRUNC`. -/
  | truncPayload (unit op : BitVec 4)
  deriving DecidableEq, Repr

/-- What decoding a byte sequence answers: a command and the bytes after its packet, or a rejection. -/
inductive Decoded where
  | ok (i : Instr) (rest : Bytes)
  | bad (e : DecodeError)
  deriving DecidableEq, Repr

/-- Decode of a packet whose command word is `w` and whose following bytes are `tail`, in the check order of R97. -/
def decodeWord (w : BitVec 64) (tail : Bytes) : Decoded :=
  let u := wordUnit w
  let o := wordOp w
  let ilen := (wordIlen w).toNat
  match row u o with
  | none => .bad (.illegalOp u o)
  | some r =>
    match argOperands r.arg (wordArg w) with
    | none => .bad (.illegalArg u o)
    | some (dir, ptype, kind) =>
      if ilenLegal r.len ilen then
        if tail.length < ilen then .bad (.truncPayload u o)
        else .ok (r.build ⟨dir, ptype, kind, tail.take ilen, wordLow w⟩) (tail.drop ilen)
      else .bad (.illegalLen u o)

/-- Decode of the bytes that start at `cp` (R97). Total: every byte sequence is a command or a named rejection. -/
def decode (bs : Bytes) : Decoded :=
  if bs.length < 8 then .bad .truncWord
  else decodeWord (BitVec.ofNat 64 (beNat (bs.take 8))) (bs.drop 8)

/-! ## The encoder -/

/-- The fields of a packet: `UNIT`, `OP`, `ARG`, the low 24 bits, and the payload, whose length is `ILEN` (R90). -/
structure Packet where
  unit : BitVec 4
  op : BitVec 4
  arg : BitVec 8
  low : BitVec 24
  data : Bytes
  deriving DecidableEq, Repr

/-- The number of a `PTYPE` (R93). -/
def ptypeNum : PType → BitVec 3
  | .key => 0
  | .keyIv => 1
  | .aead => 2
  | .keyRandom => 3

/-- The number of a `KIND` (R93). -/
def kindNum : Kind → BitVec 3
  | .ecb => 1
  | .cbc => 2
  | .cfb => 3
  | .ofb => 4
  | .ctr => 5

/-- `ARG` of an `INIT`: `PTYPE << 1 | DIR` (R93). -/
def initArg (dir : Bool) (t : PType) : BitVec 8 :=
  (0 : BitVec 4) ++ ptypeNum t ++ BitVec.ofBool dir

/-- `ARG` of `BPC.CFG`: `KIND` (R93). -/
def kindArg (k : Kind) : BitVec 8 :=
  (0 : BitVec 5) ++ kindNum k

/-- The packet of a command (R101). Low bits that the command ignores are written 0. -/
def Instr.packet : Instr → Packet
  | .sysNop => ⟨0, 0, 0, 0, []⟩
  | .sysLdkey d => ⟨0, 1, 0, 0, d⟩
  | .sysClrkey => ⟨0, 2, 0, 0, []⟩
  | .sysLdiv d => ⟨0, 3, 0, 0, d⟩
  | .sysClriv => ⟨0, 4, 0, 0, []⟩
  | .sysLdaad d => ⟨0, 5, 0, 0, d⟩
  | .sysClraad => ⟨0, 6, 0, 0, []⟩
  | .sysLdmac m => ⟨0, 7, 0, m, []⟩
  | .sysClrmac => ⟨0, 8, 0, 0, []⟩
  | .sysStatus o => ⟨0, 9, 0, o, []⟩
  | .gfXor d o => ⟨1, 0, 0, o, d⟩
  | .gfMul d o => ⟨1, 1, 0, o, d⟩
  | .gfGhash d o => ⟨1, 2, 0, o, d⟩
  | .ecbCfg => ⟨2, 0, 0, 0, []⟩
  | .ecbInit e t => ⟨2, 1, (initArg e t), 0, []⟩
  | .ecbReset => ⟨2, 2, 0, 0, []⟩
  | .ecbBlock d o => ⟨2, 3, 0, o, d⟩
  | .cbcCfg => ⟨3, 0, 0, 0, []⟩
  | .cbcInit e t => ⟨3, 1, (initArg e t), 0, []⟩
  | .cbcReset => ⟨3, 2, 0, 0, []⟩
  | .cbcBlock d o => ⟨3, 3, 0, o, d⟩
  | .cfbCfg m => ⟨4, 0, 0, m, []⟩
  | .cfbInit e t => ⟨4, 1, (initArg e t), 0, []⟩
  | .cfbReset => ⟨4, 2, 0, 0, []⟩
  | .cfbBlock d o => ⟨4, 3, 0, o, d⟩
  | .cfbBytes d o => ⟨4, 4, 0, o, d⟩
  | .ofbCfg m => ⟨5, 0, 0, m, []⟩
  | .ofbInit e t => ⟨5, 1, (initArg e t), 0, []⟩
  | .ofbReset => ⟨5, 2, 0, 0, []⟩
  | .ofbBlock d o => ⟨5, 3, 0, o, d⟩
  | .ofbBytes d o => ⟨5, 4, 0, o, d⟩
  | .ctrCfg => ⟨6, 0, 0, 0, []⟩
  | .ctrInit e t => ⟨6, 1, (initArg e t), 0, []⟩
  | .ctrReset => ⟨6, 2, 0, 0, []⟩
  | .ctrBlock d o => ⟨6, 3, 0, o, d⟩
  | .ctrBytes d o => ⟨6, 4, 0, o, d⟩
  | .gcmCfg => ⟨7, 0, 0, 0, []⟩
  | .gcmInit e t => ⟨7, 1, (initArg e t), 0, []⟩
  | .gcmReset => ⟨7, 2, 0, 0, []⟩
  | .gcmBytes d o => ⟨7, 4, 0, o, d⟩
  | .gcmAad d => ⟨7, 5, 0, 0, d⟩
  | .gcmFinal o => ⟨7, 6, 0, o, []⟩
  | .gcmOsize n o => ⟨7, 7, 0, o, (beBytes 8 n.toNat)⟩
  | .bpcCfg k m => ⟨8, 0, (kindArg k), m, []⟩
  | .bpcInit e t => ⟨8, 1, (initArg e t), 0, []⟩
  | .bpcReset => ⟨8, 2, 0, 0, []⟩
  | .bpcBytes d o => ⟨8, 4, 0, o, d⟩
  | .bpcFinal o => ⟨8, 6, 0, o, []⟩
  | .bpcOsize n o => ⟨8, 7, 0, o, (beBytes 8 n.toNat)⟩
  | .hmacCfg => ⟨9, 0, 0, 0, []⟩
  | .hmacInit e t => ⟨9, 1, (initArg e t), 0, []⟩
  | .hmacReset => ⟨9, 2, 0, 0, []⟩
  | .hmacUpdate d => ⟨9, 4, 0, 0, d⟩
  | .hmacFinal o => ⟨9, 6, 0, o, []⟩
  | .kmacCfg m => ⟨10, 0, 0, m, []⟩
  | .kmacInit e t => ⟨10, 1, (initArg e t), 0, []⟩
  | .kmacReset => ⟨10, 2, 0, 0, []⟩
  | .kmacUpdate d => ⟨10, 4, 0, 0, d⟩
  | .kmacFinal o => ⟨10, 6, 0, o, []⟩

/-- The command word of a packet (R90). -/
def Packet.word (p : Packet) : BitVec 64 :=
  p.unit ++ p.op ++ p.arg ++ BitVec.ofNat 24 p.data.length ++ p.low

/-- The bytes of a packet: the word, most significant byte first, then the payload (R74, R90). -/
def Packet.bytes (p : Packet) : Bytes :=
  beBytes 8 p.word.toNat ++ p.data

/-- The packet bytes of a command. -/
def encode (i : Instr) : Bytes :=
  i.packet.bytes

/-- `UNIT` of a command's packet, echoed in its response (R96). -/
def Instr.unit (i : Instr) : BitVec 4 := i.packet.unit

/-- `OP` of a command's packet, echoed in its response (R96). -/
def Instr.op (i : Instr) : BitVec 4 := i.packet.op

/-- `ILEN` of a command's packet: the number of its payload bytes (R90). -/
def Instr.ilen (i : Instr) : Nat := i.packet.data.length

/-! ## Words of the opcode table -/

/-- The packet bytes for an instruction given as a number `w` of `nbits` bits: bits 63:0 are the command word, and
bits from 64 up are payload bytes, the first in bits 71:64 (zero when `nbits` is 64). The payload has as many bytes as
the word's `ILEN` says. -/
def tableBytes (nbits w : Nat) : Bytes :=
  let v := w % 2 ^ nbits
  let word := BitVec.ofNat 64 v
  beBytes 8 word.toNat ++
    (List.range (wordIlen word).toNat).map fun k => BitVec.ofNat 8 (v >>> (64 + 8 * k))

/-- The command the decoder reads from such a number, none where it rejects it. -/
def decodeTableWord (nbits w : Nat) : Option Instr :=
  match decode (tableBytes nbits w) with
  | .ok i _ => some i
  | .bad _ => none

end Sys2Proof
end

