-- ==== Sys2Proof/Config.lean ====
section
/-! DEFINITION. What the spec takes as configuration (00_scope.md R9, R10): the fixed parameters, and the external
collaborators as constants without a body. Nothing about a collaborator can be proved but what its type says, and its
type says exactly what R14 to R19 let a model assume (notes/assumptions 2, 10, 11, 12). -/

namespace Sys2Proof.Config

/-- When CTR increments its counter (44_ctr.md R204; decision D20, OPEN). -/
inductive CtrOrder where
  /-- `INC_FIRST`: increment, then encrypt. -/
  | incFirst
  /-- `ENC_FIRST`: encrypt, and increment when the block is used up. -/
  | encFirst
  deriving DecidableEq, Repr, Inhabited

/-- The legal MAC sizes of unit KMAC, in bits (10_state.md R52, 48_kmac.md R301). -/
inductive MacSize where
  | m32
  | m64
  | m128
  deriving DecidableEq, Repr

/-- The MAC size in bits. -/
def MacSize.bits : MacSize → Nat
  | .m32 => 32
  | .m64 => 64
  | .m128 => 128

/-- The MAC size in bytes. -/
def MacSize.bytes : MacSize → Nat
  | .m32 => 4
  | .m64 => 8
  | .m128 => 16

/-! ## Fixed parameters (R9, R10) -/

/-- `BS`, the block size in bytes (R9). -/
def bs : Nat := 16

/-- `CTR_MAXFREE = min(8, BS/2)`, the most free counter bytes in CTR (R9). -/
def ctrMaxFree : Nat := 8

/-- `HMAC_IPAD` (R9). -/
def hmacIpad : Byte := 0x36

/-- `HMAC_OPAD` (R9). -/
def hmacOpad : Byte := 0x5C

/-- `HMAC_BL_DEFAULT` (R9). -/
def hmacBlDefault : Nat := 64

/-- `GCM_MAC_DEFAULT` in bits (R9). -/
def gcmMacDefault : Nat := 128

/-- `GCM_BLKMAX = 2^32 - 2`, the most blocks in one GCM session (R10, R240). -/
def gcmBlkMax : Nat := 4294967294

/-- The architecture revision (R2). -/
def revision : Byte := 0x01

/-! ## The block transform (R14) -/

/-- `BC_ENC`: the block transform, encrypt direction. -/
opaque bcEnc : Bytes → Block → Block

/-- `BC_DEC`: the block transform, decrypt direction. That it inverts `BC_ENC` is not assumed (R14). -/
opaque bcDec : Bytes → Block → Block

/-- `BC_KEY_OK`: whether the block transform accepts this key. -/
opaque bcKeyOk : Bytes → Bool

/-! ## The digest (R15, R280) -/

/-- `DG_BYTELEN` less one, where the digest exposes a block length. -/
opaque digestByteLenPred : Option Nat

/-- `BL`, the HMAC block length, less one: the digest's own, else 64 (R280). -/
def hmacBlPred : Nat :=
  match digestByteLenPred with
  | some v => v
  | none => 63

/-- `BL`, the HMAC block length in bytes (R280). -/
def hmacBl : Nat := hmacBlPred + 1

/-- `DG_SIZE` less one; its type says `0 < DG_SIZE <= BL` and no more (R10, R280). -/
opaque digestSizePred : Fin (hmacBlPred + 1)

/-- `DG_SIZE`, the digest size in bytes. -/
def digestSize : Nat := digestSizePred.val + 1

/-- `DG`: the digest of a whole message, `DG_SIZE` bytes. -/
opaque digest : Bytes → Vector Byte digestSize

/-! ## The stream generator (R16) -/

/-- `SG_OK`: whether the generator accepts this key and optional IV. -/
opaque sgOk : Bytes → Option Bytes → Bool

/-- `SG_KS`: keystream byte number `i` for a key and optional IV. -/
opaque sgKs : Bytes → Option Bytes → Nat → Byte

/-! ## The mixing function of the keystream MAC (R18, R307) -/

/-- `KMAC_MIX`: its result has at least `macbits / 8` bytes, so it is those bytes and a tail. -/
opaque kmacMix : Bytes → Bytes → (m : MacSize) → Vector Byte m.bytes × Bytes

/-! ## The padding strategy (R17) -/

/-- The bytes `PAD_ADD` puts from the offset on: they depend on the bytes before the offset and on how many there are
to fill. -/
opaque padFill : Bytes → (n : Nat) → Vector Byte n

/-- `PAD_COUNT`: the number of trailing pad bytes, from 0 to the length, or an error. -/
opaque padCountFin : (b : Bytes) → Option (Fin (b.length + 1))

/-! ## The open order of the counter (R204) -/

/-- `CTR_ORDER` of this machine. -/
opaque ctrOrder : CtrOrder

end Sys2Proof.Config
end

