-- ==== Sys2Proof/Machine/State.lean ====
section
/-! DEFINITION. The state of the engine (10_state.md R30 to R57) as plain data, its reset value (70_reset_and_hazards.md
R350), and the two ways a step can answer other than with a next state. -/

namespace Sys2Proof.Machine

open Sys2Proof.Config

/-- `SYS.RUN` (R32). -/
inductive RunState where
  | running
  | done
  | halted
  deriving DecidableEq, Repr

/-- The staged parameters `P` (R33). -/
structure Staged where
  /-- `P.KEYV`: a key is staged. -/
  keyv : Bool
  /-- `P.KEY`. -/
  key : Bytes
  /-- `P.IVV`: an IV or nonce is staged. -/
  ivv : Bool
  /-- `P.IV`. -/
  iv : Bytes
  /-- `P.AADV`: initial associated data is staged. -/
  aadv : Bool
  /-- `P.AAD`. -/
  aad : Bytes
  /-- `P.MACV`: a MAC size is staged. -/
  macv : Bool
  /-- `P.MAC`, in bits. -/
  mac : BitVec 24
  deriving DecidableEq, Repr

/-- A mode context `M` (R36). Its kind is fixed in units 2 to 6 and is `B.MODE` in BPC, so it is not stored here
(notes/assumptions 8). The counts are naturals bounded by `ModeCtx.Inv` of Safety.lean (notes/assumptions 9). -/
structure ModeCtx where
  /-- `M.KEYED`: the inner block transform has been keyed. -/
  keyed : Bool
  /-- `M.KEY`: the latched key. -/
  key : Bytes
  /-- `M.DIR`: `true` = 1 = encrypt. -/
  dir : Bool
  /-- `M.INITED`: an `INIT` has succeeded since construction. -/
  inited : Bool
  /-- `M.IV`: the latched IV, or the nonce left-aligned and zero-filled (CTR). -/
  iv : Block
  /-- `M.N`: CTR only, the nonce length in bytes. -/
  n : Nat
  /-- `M.R`: chaining register, feedback register or counter block. -/
  r : Block
  /-- `M.KS`: the current keystream block. -/
  ks : Block
  /-- `M.CUR`: the byte cursor in the current keystream block. -/
  cur : Nat
  /-- `M.FB`: the feedback bytes collected in the current segment. -/
  fb : Block
  /-- `M.FBB`: the configured feedback size in bytes. -/
  fbb : Nat
  deriving DecidableEq, Repr

/-- The GCM state `G` (R42). -/
structure Gcm where
  /-- `G.INITED`: a session is open. -/
  inited : Bool
  /-- `G.DIR`: `true` = 1 = encrypt. -/
  dir : Bool
  /-- `G.KEY`. -/
  key : Bytes
  /-- `G.MACB`: the tag length in bytes. -/
  macb : Nat
  /-- `G.H`: the hash subkey. -/
  h : Block
  /-- `G.J0`: the initial counter block. -/
  j0 : Block
  /-- `G.CTRB`: the running counter block. -/
  ctrb : Block
  /-- `G.S`: the tag accumulator. -/
  s : Block
  /-- `G.SAT`: the associated-data accumulator. -/
  sat : Block
  /-- `G.ATBUF`: the partial associated-data block. -/
  atbuf : Bytes
  /-- `G.ATLEN`: associated-data bytes taken in. -/
  atlen : BitVec 64
  /-- `G.PBUF`: encrypt side, the partial plaintext block. -/
  pbuf : Bytes
  /-- `G.TOTLEN`: encrypt side, ciphertext bytes produced and hashed. -/
  totlen : BitVec 64
  /-- `G.DBUF`: decrypt side, all ciphertext and tag bytes received. -/
  dbuf : Bytes
  /-- `G.STARTED`: the cipher has been used; associated data is closed. -/
  started : Bool
  deriving DecidableEq, Repr

/-- The BPC state `B` (R46). -/
structure Bpc where
  /-- `B.MODE`: `none` = 0 = not constructed, else the kind of the private mode context, which is also `B.M.KIND`. -/
  mode : Option Kind
  /-- `B.M`: the private mode context. -/
  m : ModeCtx
  /-- `B.BUF`: the accumulation buffer; its length is the fill offset. -/
  buf : Bytes
  /-- `B.DIR`: direction of the last `BPC.INIT`. -/
  dir : Bool
  /-- `B.INITED`. -/
  inited : Bool
  /-- `B.FINISHED`: a `BPC.FINAL` has succeeded and no `INIT` or `RESET` followed. -/
  finished : Bool
  deriving DecidableEq, Repr

/-- The HMAC state `HM` (R49). -/
structure Hmac where
  /-- `HM.INITED`: a key has been set. -/
  inited : Bool
  /-- `HM.IPAD`: padded key XOR 0x36. -/
  ipad : Bytes
  /-- `HM.OPAD`: padded key XOR 0x5C. -/
  opad : Bytes
  /-- `HM.DG`: the bytes the digest has absorbed since its last reset (R15). -/
  dg : Bytes
  deriving DecidableEq, Repr

/-- The KMAC state `KM` (R52). -/
structure Kmac where
  /-- `KM.MACBITS`: the configured MAC size. -/
  macbits : MacSize
  /-- `KM.INITED`: the generator has been keyed. -/
  inited : Bool
  /-- `KM.SGKEY`: the generator key. -/
  sgkey : Bytes
  /-- `KM.SGIV`: the generator IV, or none. -/
  sgiv : Option Bytes
  /-- `KM.POS`: the generator position (R16). -/
  pos : Nat
  /-- `KM.MSG`: the accumulated message. -/
  msg : Bytes
  deriving DecidableEq, Repr

/-- The open configuration constants that are plain data (R10): the model carries them in State so that every
statement holds for every value of them; no command writes them (notes/assumptions 3 and 4). -/
structure Params where
  /-- `CTR_ORDER` (R204). -/
  ctrOrder : CtrOrder
  /-- `CAP_P`: capacity of the staging buffers; `none` = unbounded (D43). -/
  capP : Option Nat
  /-- `CAP_DBUF`: capacity of the GCM decrypt buffer. -/
  capDbuf : Option Nat
  /-- `CAP_MSG`: capacity of the MAC message buffers. -/
  capMsg : Option Nat
  deriving DecidableEq, Repr

/-- The state of the machine (R30): the engine registers (R32), `P`, the five mode contexts, `G`, `B`, `HM`, `KM`, the
response stream `RS`; and, beside them, the command stream `CS` and the open constants, which no command writes. -/
structure State where
  /-- `CS`: the command stream, byte `i` at offset `i` (R71). -/
  cs : Bytes
  /-- The open constants of the configuration (R10). -/
  params : Params
  /-- `cp`: byte offset in `CS` of the next command word. -/
  cp : BitVec 32
  /-- `SYS.RUN`. -/
  run : RunState
  /-- `SYS.FATAL`: a class-1 error has been raised. -/
  fatal : Bool
  /-- `SYS.FCODE`: its status code. -/
  fcode : BitVec 8
  /-- `SYS.FUNIT`: the `UNIT` of the command that raised it. -/
  funit : BitVec 4
  /-- `SYS.FOP`: the `OP` of that command. -/
  fop : BitVec 4
  /-- `SYS.FCP`: the `cp` of that command. -/
  fcp : BitVec 32
  /-- `SYS.LASTERR`: status code of the most recent class-2 error. -/
  lasterr : BitVec 8
  /-- `P`: the staged parameters. -/
  p : Staged
  /-- `ECB.M`. -/
  ecb : ModeCtx
  /-- `CBC.M`. -/
  cbc : ModeCtx
  /-- `CFB.M`. -/
  cfb : ModeCtx
  /-- `OFB.M`. -/
  ofb : ModeCtx
  /-- `CTR.M`. -/
  ctr : ModeCtx
  /-- `G`. -/
  g : Gcm
  /-- `B`. -/
  b : Bpc
  /-- `HM`. -/
  hm : Hmac
  /-- `KM`. -/
  km : Kmac
  /-- `RS`: the response stream, oldest byte first (R72). -/
  rs : Bytes
  deriving DecidableEq, Repr

/-! ## Named updates, one per unit -/

/-- Replace the staged parameters. -/
def State.withP (s : State) (x : Staged) : State := { s with p := x }

/-- Replace `ECB.M`. -/
def State.withEcb (s : State) (x : ModeCtx) : State := { s with ecb := x }

/-- Replace `CBC.M`. -/
def State.withCbc (s : State) (x : ModeCtx) : State := { s with cbc := x }

/-- Replace `CFB.M`. -/
def State.withCfb (s : State) (x : ModeCtx) : State := { s with cfb := x }

/-- Replace `OFB.M`. -/
def State.withOfb (s : State) (x : ModeCtx) : State := { s with ofb := x }

/-- Replace `CTR.M`. -/
def State.withCtr (s : State) (x : ModeCtx) : State := { s with ctr := x }

/-- Replace `G`. -/
def State.withG (s : State) (x : Gcm) : State := { s with g := x }

/-- Replace `B`. -/
def State.withB (s : State) (x : Bpc) : State := { s with b := x }

/-- Replace `HM`. -/
def State.withHm (s : State) (x : Hmac) : State := { s with hm := x }

/-- Replace `KM`. -/
def State.withKm (s : State) (x : Kmac) : State := { s with km := x }

/-! ## Hardware reset values (R55, R350) -/

/-- `P` after hardware reset: nothing staged (R33). -/
def Staged.reset : Staged :=
  { keyv := false, key := [], ivv := false, iv := [], aadv := false, aad := [], macv := false, mac := 0 }

/-- A mode context after hardware reset and after `CFG`: all zero or empty, `FBB` 16 (R36). -/
def ModeCtx.reset : ModeCtx :=
  { keyed := false, key := [], dir := false, inited := false, iv := 0, n := 0, r := 0, ks := 0, cur := 0, fb := 0,
    fbb := 16 }

/-- `GcmZero()`: `G` after hardware reset, `CFG`, `RESET` and auto-reset (R42, R220). -/
def Gcm.reset : Gcm :=
  { inited := false, dir := false, key := [], macb := 0, h := 0, j0 := 0, ctrb := 0, s := 0, sat := 0, atbuf := [],
    atlen := 0, pbuf := [], totlen := 0, dbuf := [], started := false }

/-- `B` after hardware reset: not constructed (R46). -/
def Bpc.reset : Bpc :=
  { mode := none, m := ModeCtx.reset, buf := [], dir := false, inited := false, finished := false }

/-- `HM` after hardware reset and `CFG` (R49). -/
def Hmac.reset : Hmac :=
  { inited := false, ipad := [], opad := [], dg := [] }

/-- `KM` after hardware reset: MAC size 64 bits (R52). -/
def Kmac.reset : Kmac :=
  { macbits := .m64, inited := false, sgkey := [], sgiv := none, pos := 0, msg := [] }

/-- The open constants of this machine: `CTR_ORDER` without a value (notes/assumptions 3), the capacities unbounded
(DESIGN CHOICE, notes/assumptions 4). -/
def Params.reset : Params :=
  { ctrOrder := Config.ctrOrder, capP := none, capDbuf := none, capMsg := none }

/-- The machine right after hardware reset (R350), with an empty command stream: a program is loaded from outside
(notes/assumptions 1). -/
def State.reset : State :=
  { cs := [], params := Params.reset, cp := 0, run := .running, fatal := false, fcode := 0, funit := 0, fop := 0,
    fcp := 0, lasterr := 0, p := Staged.reset, ecb := ModeCtx.reset, cbc := ModeCtx.reset, cfb := ModeCtx.reset,
    ofb := ModeCtx.reset, ctr := ModeCtx.reset, g := Gcm.reset, b := Bpc.reset, hm := Hmac.reset, km := Kmac.reset,
    rs := [] }

/-! ## Outcomes other than a next state -/

/-- The stuck states: a step is asked of an engine that makes none. No command ends in one; both class-1 and class-2
errors of the spec are next states. -/
inductive Fault where
  /-- Raised by `step` when `SYS.RUN = DONE`: the run has ended and nothing more is fetched (30_encoding.md R97, R100).
  Safe: the engine makes no further step either. -/
  | done
  /-- Raised by `step` when `SYS.RUN = HALTED`: after a class-1 error the engine fetches nothing until hardware reset
  (60_exceptions.md R326, R328). Safe: the engine makes no further step either. -/
  | halted
  deriving DecidableEq, Repr

/-- Refusals: an instruction that the model gives no meaning. -/
inductive Refusal where
  /-- Raised by an arm of `exec` whose instruction has no meaning yet, by its mnemonic in the opcode table. No arm
  raises it now. Safe: the model stops where the engine would go on. -/
  | notModelled (mnemonic : String)
  deriving DecidableEq, Repr

end Sys2Proof.Machine
end

