-- ==== Sys2Proof/Machine/Operands.lean ====
section
/-! DEFINITION. The operand forms of the commands and the byte-level views of blocks (00_scope.md R20, 30_encoding.md
R93 to R95): payload slices, bytes of a block, XOR of sequences, zero padding, cutting into blocks. -/

namespace Sys2Proof.Machine

open Sys2Proof.Config

/-- `0^n`: `n` zero bytes (R20). -/
def zeros (n : Nat) : Bytes := List.replicate n 0

/-- The block whose bytes are the first 16 of `a`, filled on the right with zero bytes when `a` is shorter
(`a ‖ 0^(16 - len(a))`). -/
def blockOfBytes (a : Bytes) : Block :=
  BitVec.ofNat 128 (beNat ((a ++ zeros bs).take bs))

/-- The 16 bytes of a block, byte 0 first. -/
def bytesOfBlock (b : Block) : Bytes :=
  beBytes bs b.toNat

/-- `b[i]`, byte `i` of a block (R20). -/
def blockByte (b : Block) (i : Nat) : Byte :=
  b.extractLsb' (8 * (15 - i)) 8

/-- `b[i] <- v` (R21). -/
def setBlockByte (b : Block) (i : Nat) (v : Byte) : Block :=
  blockOfBytes ((bytesOfBlock b).set i v)

/-- `a ^ b`, byte-wise XOR of two sequences, as long as the shorter one (R20). -/
def xorBytes (a b : Bytes) : Bytes :=
  List.zipWith (fun x y => x ^^^ y) a b

/-- The consecutive `n`-byte pieces of `a`, the last one possibly shorter: `a[n*k .. min(n*k + n, len(a)))` for
`k = 0, 1, ...` while `n*k < len(a)`. -/
def blocksOf (n : Nat) (a : Bytes) : List Bytes :=
  (List.range ((a.length + n - 1) / n)).map fun k => (a.drop (n * k)).take n

/-- The first block operand of a payload, `payload[0..16)`. -/
def operandBlock (data : Bytes) : Block := blockOfBytes (data.take bs)

/-- The second block operand of a payload, `payload[16..32)`. -/
def operandBlock2 (data : Bytes) : Block := blockOfBytes ((data.drop bs).take bs)

/-- A feedback size in bits is legal: a positive multiple of 8 not above `8 * BS` (43_cfb_ofb.md R181). -/
def fbSizeLegal (imm : BitVec 24) : Bool :=
  !(imm.toNat == 0 || imm.toNat % 8 != 0 || 8 * bs < imm.toNat)

/-- A number of bytes fits a capacity; `none` is unbounded (D43). -/
def fits (cap : Option Nat) (n : Nat) : Bool :=
  match cap with
  | none => true
  | some c => n ≤ c

end Sys2Proof.Machine
end

