-- ==== Sys2Proof/Machine/Flags.lean ====
section
/-! DEFINITION. The flags of the engine (10_state.md R34). There are no arithmetic flags; SYS.STATUS is the only command
that reads flags out (40_sys.md R130), and it reads the eleven `INITED` bits. -/

namespace Sys2Proof.Machine

open Sys2Proof.Config

/-- The `INITED` bitmap of SYS.STATUS: bit `u` is the `INITED` bit of unit `u`; bits 0, 1 and 11 to 15 are 0 (R130). -/
def initedMap (s : State) : BitVec 16 :=
  (0 : BitVec 5) ++ BitVec.ofBool s.km.inited ++ BitVec.ofBool s.hm.inited ++ BitVec.ofBool s.b.inited ++
    BitVec.ofBool s.g.inited ++ BitVec.ofBool s.ctr.inited ++ BitVec.ofBool s.ofb.inited ++
    BitVec.ofBool s.cfb.inited ++ BitVec.ofBool s.cbc.inited ++ BitVec.ofBool s.ecb.inited ++ (0 : BitVec 2)

/-- The four output bytes of SYS.STATUS: `SYS.LASTERR ‖ bm[15:8] ‖ bm[7:0] ‖ 0x01` (R130). -/
def statusBytes (s : State) : Bytes :=
  [s.lasterr, (initedMap s).extractLsb' 8 8, (initedMap s).extractLsb' 0 8, revision]

/-- The unit BPC is ready: constructed, initialised and not finished (46_bpc.md R260). -/
def bpcReady (b : Bpc) : Bool :=
  b.mode.isSome && b.inited && !b.finished

end Sys2Proof.Machine
end

