-- ==== Sys2Proof/Machine/Ops.lean ====
section
/-! DEFINITION. The shared operations of every command: status codes, responses, the two error entries, normal
completion, hardware reset, and fetch (60_exceptions.md R320 to R328, 30_encoding.md R96 to R98). -/

namespace Sys2Proof.Machine

open Sys2Proof.Config

/-! ## Status codes (R321) -/

/-- The recoverable errors, class 2 (R320, R321). -/
inductive ErrCode where
  | uninit
  | outShort
  | mac
  | pad
  | align
  | short
  | state
  | limit
  | prim
  deriving DecidableEq, Repr

/-- The fatal errors, class 1 (R320, R321). -/
inductive FatalCode where
  | illegal
  | trunc
  | bufLen
  | ivLen
  | fbSize
  | pType
  | dir
  | ctrDrift
  | macSize
  | key
  deriving DecidableEq, Repr

/-- The status byte of a class-2 error: 0x10 to 0x18 (R321). -/
def ErrCode.code : ErrCode → BitVec 8
  | .uninit => 0x10
  | .outShort => 0x11
  | .mac => 0x12
  | .pad => 0x13
  | .align => 0x14
  | .short => 0x15
  | .state => 0x16
  | .limit => 0x17
  | .prim => 0x18

/-- The status byte of a class-1 error: 0x80 to 0x89 (R321). -/
def FatalCode.code : FatalCode → BitVec 8
  | .illegal => 0x80
  | .trunc => 0x81
  | .bufLen => 0x82
  | .ivLen => 0x83
  | .fbSize => 0x84
  | .pType => 0x85
  | .dir => 0x86
  | .ctrDrift => 0x87
  | .macSize => 0x88
  | .key => 0x89

/-- The class-1 error that a rejected packet raises (R97). -/
def decodeFatal : DecodeError → FatalCode
  | .truncWord => .trunc
  | .illegalOp _ _ => .illegal
  | .illegalArg _ _ => .illegal
  | .illegalLen _ _ => .illegal
  | .truncPayload _ _ => .trunc

/-- The `UNIT` recorded for a rejected packet: 0 if the word could not be read (R97, R326). -/
def decodeErrorUnit : DecodeError → BitVec 4
  | .truncWord => 0
  | .illegalOp u _ => u
  | .illegalArg u _ => u
  | .illegalLen u _ => u
  | .truncPayload u _ => u

/-- The `OP` recorded for a rejected packet: 0 if the word could not be read (R97, R326). -/
def decodeErrorOp : DecodeError → BitVec 4
  | .truncWord => 0
  | .illegalOp _ o => o
  | .illegalArg _ o => o
  | .illegalLen _ o => o
  | .truncPayload _ o => o

/-! ## Responses and the three ends of a command -/

/-- The response word: `STATUS` 63:56, `UNIT` 55:52, `OP` 51:48, `OLEN` 47:24, zero 23:0 (R96). -/
def responseWord (status : BitVec 8) (unit op : BitVec 4) (olen : Nat) : BitVec 64 :=
  status ++ unit ++ op ++ BitVec.ofNat 24 olen ++ (0 : BitVec 24)

/-- A response packet: the word, most significant byte first, then the output bytes (R74, R96). -/
def responsePacket (status : BitVec 8) (unit op : BitVec 4) (out : Bytes) : Bytes :=
  beBytes 8 (responseWord status unit op out.length).toNat ++ out

/-- `cp + 8 + ILEN` in the 32-bit command pointer (R98). -/
def nextCp (cp : BitVec 32) (ilen : Nat) : BitVec 32 :=
  cp + BitVec.ofNat 32 (8 + ilen)

/-- `return OK(out)`, from the state `s` that holds the command's writes: append the response and advance `cp` (R21). -/
def returnOk (unit op : BitVec 4) (ilen : Nat) (out : Bytes) (s : State) : State :=
  { s with cp := nextCp s.cp ilen, rs := s.rs ++ responsePacket 0x00 unit op out }

/-- Taking a class-2 error, `return Err(code)`, from the state `s` before the command: `LASTERR` takes the code, a
response without output is appended, `cp` advances; every write of the command is discarded (R327). -/
def returnErr (unit op : BitVec 4) (ilen : Nat) (e : ErrCode) (s : State) : State :=
  { s with lasterr := e.code, cp := nextCp s.cp ilen, rs := s.rs ++ responsePacket e.code unit op [] }

/-- Taking a class-1 error, `raise Fatal(code)`, from the state `s` before the command: the five `SYS.F*` registers
record it, a response without output is appended, the engine halts; `cp` stays and every write of the command is
discarded (R326). -/
def raiseFatal (unit op : BitVec 4) (f : FatalCode) (s : State) : State :=
  { s with fatal := true, fcode := f.code, funit := unit, fop := op, fcp := s.cp,
           rs := s.rs ++ responsePacket f.code unit op [], run := .halted }

/-- There is no return from a class-1 error: only hardware reset leaves `HALTED`, and it loses all unit state (R328).
It gives every register its reset value (R55, R350) and keeps what is no register: the command stream and the open
constants of the configuration. -/
def hardwareReset (s : State) : State :=
  { State.reset with cs := s.cs, params := s.params }

/-- How a command's rule ends (R21). The two errors carry no state: their writes are discarded. -/
inductive CmdResult where
  /-- `return OK(out)` with the command's writes in `s`. -/
  | ok (s : State) (out : Bytes)
  /-- `return Err(code)`. -/
  | err (e : ErrCode)
  /-- `raise Fatal(code)`. -/
  | fatal (f : FatalCode)
  deriving DecidableEq, Repr

/-- End the command `i` begun in `s` as its rule says (R21, R326, R327). -/
def respond (i : Instr) (s : State) (r : CmdResult) : Host.Outcome State Fault Refusal :=
  match r with
  | .ok s' out => .next (returnOk i.unit i.op i.ilen out s')
  | .err e => .next (returnErr i.unit i.op i.ilen e s)
  | .fatal f => .next (raiseFatal i.unit i.op f s)

/-! ## The command stream -/

/-- `MemRead(addr, n)`: the bytes `CS[addr .. addr + n)`, defined only within the stream (R71). -/
def memRead (cs : Bytes) (addr n : Nat) : Option Bytes :=
  if addr + n ≤ cs.length then some ((cs.drop addr).take n) else none

/-- The bytes of `CS` from `cp` on. -/
def fetchBytes (s : State) : Bytes :=
  s.cs.drop s.cp.toNat

/-- What one fetch finds (R97). -/
inductive Fetched where
  /-- `cp = len(CS)`: the run ends. -/
  | endOfStream
  /-- The bytes are a packet. -/
  | command (i : Instr)
  /-- The bytes are no packet. -/
  | rejected (e : DecodeError)
  deriving DecidableEq, Repr

/-- Fetch and decode at `cp` (R97). -/
def fetch (s : State) : Fetched :=
  if s.cp.toNat = s.cs.length then .endOfStream
  else
    match decode (fetchBytes s) with
    | .ok i _ => .command i
    | .bad e => .rejected e

/-- The state after a fetch at the end of the stream: `SYS.RUN <- DONE` and nothing else (R97, R100). -/
def endRun (s : State) : State :=
  { s with run := .done }

/-- The state after a rejected packet: the class-1 error that R97 names, with the `UNIT` and `OP` that were read. -/
def rejectPacket (e : DecodeError) (s : State) : State :=
  raiseFatal (decodeErrorUnit e) (decodeErrorOp e) (decodeFatal e) s

/-- Store an instruction's packet where the next fetch reads it: `CS` from `cp` on begins with these bytes, and the
engine is running. Bytes of `CS` before `cp` and after the packet stay. -/
def placePacket (s : State) (bytes : Bytes) : State :=
  { s with
    cs := (s.cs ++ zeros (s.cp.toNat - s.cs.length)).take s.cp.toNat ++ bytes ++
      s.cs.drop (s.cp.toNat + bytes.length)
    run := .running }

end Sys2Proof.Machine
end

