-- ==== Sys2Proof/Machine/Modes.lean ====
section
/-! DEFINITION. The operations shared by the mode contexts: initialisation, reset, the byte steps of CFB, OFB and CTR,
the block step of every kind, and the frames of BLOCK and BYTES (42_ecb_cbc.md R160 to R162, 43_cfb_ofb.md R180,
44_ctr.md R200 to R204, 46_bpc.md R260). -/

namespace Sys2Proof.Machine

open Sys2Proof.Config

/-- `MBS(M)`, the block size of a mode context: the feedback size for CFB and OFB, else `BS` (R37). -/
def mbs (k : Kind) (m : ModeCtx) : Nat :=
  match k with
  | .cfb => m.fbb
  | .ofb => m.fbb
  | .ecb => bs
  | .cbc => bs
  | .ctr => bs

/-! ## Initialisation and reset -/

/-- Step 1 of `ModeInit`: the parameter shape. Answers whether a key is taken from `P`, and the IV or nonce (R160). -/
def modeShape (k : Kind) (t : PType) (p : Staged) : Except FatalCode (Bool × Option Bytes) :=
  if t = .aead ∨ t = .keyRandom then .error .pType
  else if k = .ecb ∧ t ≠ .key then .error .pType
  else if k = .ctr ∧ t ≠ .keyIv then .error .pType
  else if t = .key then
    if p.keyv then .ok (true, none) else .error .key
  else
    if p.ivv then .ok (p.keyv, some p.iv) else .error .ivLen

/-- Step 2 of `ModeInit`: the length of the IV (exactly `BS`) or of the CTR nonce (8 to 16) (R160, R200). -/
def ivLengthOk (k : Kind) (iv : Option Bytes) : Bool :=
  match iv with
  | none => true
  | some v =>
    if k = .ctr then !(bs < v.length || ctrMaxFree < bs - v.length) else v.length == bs

/-- Step 3 of `ModeInit`: the key, the latched key of an IV-only reinit, and the direction rule of CBC (R160). -/
def modeKeyError (k : Kind) (dir haskey : Bool) (p : Staged) (m : ModeCtx) : Option FatalCode :=
  if haskey then
    if bcKeyOk p.key then none else some .key
  else if !m.keyed then some .key
  else if k = .cbc ∧ dir ≠ m.dir then some .dir
  else none

/-- `ModeReset(M)` (R161). For CTR only the nonce bytes of the counter block are written (R202). -/
def modeReset (k : Kind) (m : ModeCtx) : ModeCtx :=
  if m.inited then
    { m with
      r := match k with
        | .ecb => m.r
        | .ctr => blockOfBytes ((bytesOfBlock m.iv).take m.n ++ (bytesOfBlock m.r).drop m.n)
        | .cbc => m.iv
        | .cfb => m.iv
        | .ofb => m.iv
      cur := 0, ks := 0, fb := 0 }
  else m

/-- Step 4 of `ModeInit`: the commit, without the closing `ModeReset` (R160). -/
def modeCommit (k : Kind) (dir haskey : Bool) (iv : Option Bytes) (p : Staged) (m : ModeCtx) : ModeCtx :=
  { m with
    key := if haskey then p.key else m.key
    keyed := haskey || m.keyed
    dir := dir
    n := if k = .ctr then (iv.getD []).length else m.n
    iv := if k = .ecb then m.iv else blockOfBytes (iv.getD [])
    inited := true }

/-- `ModeInit(M, DIR, PTYPE)` on the staged parameters `p` (R160): the context it leaves, or the class-1 error of its
first failing check. -/
def modeInit (k : Kind) (dir : Bool) (t : PType) (p : Staged) (m : ModeCtx) : Except FatalCode ModeCtx :=
  match modeShape k t p with
  | .error f => .error f
  | .ok (haskey, iv) =>
    if ivLengthOk k iv then
      match modeKeyError k dir haskey p m with
      | some f => .error f
      | none => .ok (modeReset k (modeCommit k dir haskey iv p m))
    else .error .ivLen

/-- A fresh context with a feedback size (R181, R186, R261). -/
def modeFresh (fbb : Nat) : ModeCtx :=
  { ModeCtx.reset with fbb := fbb }

/-! ## The byte steps -/

/-- `M.R[FBB .. 16) ‖ M.FB[0 .. FBB)`: the register shifted left by the feedback size, the feedback bytes appended
(R180). -/
def fbShift (fbb : Nat) (r fb : Block) : Block :=
  blockOfBytes ((bytesOfBlock r).drop fbb ++ (bytesOfBlock fb).take fbb)

/-- The keystream block in use: freshly `BC_ENC(M.KEY, M.R)` when the cursor is 0, else `M.KS` (R38, R180). -/
def fbKeystream (m : ModeCtx) : Block :=
  if m.cur = 0 then bcEnc m.key m.r else m.ks

/-- The byte fed back for an input byte `b` and its output byte `o`: the ciphertext byte for CFB, the keystream byte
for OFB (R180). -/
def fbFeedback (k : Kind) (m : ModeCtx) (b o : Byte) : Byte :=
  if k = .cfb then (if m.dir then o else b) else blockByte (fbKeystream m) m.cur

/-- `FbByteStep(M, b)` for a context of kind CFB or OFB (R180). -/
def fbByteStep (k : Kind) (m : ModeCtx) (b : Byte) : ModeCtx × Byte :=
  let ks := fbKeystream m
  let o := blockByte ks m.cur ^^^ b
  let fb := setBlockByte m.fb m.cur (fbFeedback k m b o)
  if m.cur + 1 = m.fbb then
    ({ m with ks := ks, fb := fb, r := fbShift m.fbb m.r fb, cur := 0 }, o)
  else
    ({ m with ks := ks, fb := fb, cur := m.cur + 1 }, o)

/-- `FbByteStep` on the bytes of a sequence, in order (R184, R185). -/
def fbBytes (k : Kind) (m : ModeCtx) : Bytes → ModeCtx × Bytes
  | [] => (m, [])
  | b :: rest =>
    let next := fbBytes k (fbByteStep k m b).1 rest
    (next.1, (fbByteStep k m b).2 :: next.2)

/-- `Inc128(r)`: big-endian increment modulo 2^128 (R201). -/
def inc128 (r : Block) : Block := r + 1

/-- `DriftCheck(M)` fails: the nonce bytes of the counter block differ from the nonce, with at least one free byte
(R203). -/
def ctrDrifted (m : ModeCtx) : Bool :=
  m.n < bs && (bytesOfBlock m.r).take m.n != (bytesOfBlock m.iv).take m.n

/-- The start of a keystream block, when the cursor is 0: increment first if `CTR_ORDER` says so, check for drift,
encrypt the counter; none is `F_CTRDRIFT` (R204). -/
def ctrOpenBlock (order : CtrOrder) (m : ModeCtx) : Option ModeCtx :=
  let m1 := { m with r := if order = .incFirst then inc128 m.r else m.r }
  if ctrDrifted m1 then none else some { m1 with ks := bcEnc m1.key m1.r }

/-- The rest of `CtrByteStep`: the output byte, the cursor, and the increment at the end of a block under `ENC_FIRST`
(R204). -/
def ctrEmit (order : CtrOrder) (m : ModeCtx) (b : Byte) : ModeCtx × Byte :=
  (if m.cur + 1 = bs then
     { m with cur := 0, r := if order = .encFirst then inc128 m.r else m.r }
   else { m with cur := m.cur + 1 },
   blockByte m.ks m.cur ^^^ b)

/-- `CtrByteStep(M, b)`; none is `F_CTRDRIFT` (R204). -/
def ctrByteStep (order : CtrOrder) (m : ModeCtx) (b : Byte) : Option (ModeCtx × Byte) :=
  match (if m.cur = 0 then ctrOpenBlock order m else some m) with
  | none => none
  | some m1 => some (ctrEmit order m1 b)

/-- `CtrByteStep` on the bytes of a sequence, in order (R208, R209). -/
def ctrBytes (order : CtrOrder) (m : ModeCtx) : Bytes → Option (ModeCtx × Bytes)
  | [] => some (m, [])
  | b :: rest =>
    match ctrByteStep order m b with
    | none => none
    | some (m1, o) =>
      match ctrBytes order m1 rest with
      | none => none
      | some (m2, os) => some (m2, o :: os)

/-! ## The block step -/

/-- `BlockStep` of ECB: a pass through the transform (R166). -/
def ecbBlockStep (m : ModeCtx) (x : Bytes) : Bytes :=
  bytesOfBlock (if m.dir then bcEnc m.key (blockOfBytes x) else bcDec m.key (blockOfBytes x))

/-- `BlockStep` of CBC (R170). -/
def cbcBlockStep (m : ModeCtx) (x : Bytes) : ModeCtx × Bytes :=
  if m.dir then
    let c := bcEnc m.key (m.r ^^^ blockOfBytes x)
    ({ m with r := c }, bytesOfBlock c)
  else
    ({ m with r := blockOfBytes x }, bytesOfBlock (bcDec m.key (blockOfBytes x) ^^^ m.r))

/-- `BlockStep` of a context of kind `k` on one block of `MBS` bytes, also `ModeBlock` of unit BPC; none is
`F_CTRDRIFT` (R162, R260). -/
def blockStep (k : Kind) (order : CtrOrder) (m : ModeCtx) (x : Bytes) : Option (ModeCtx × Bytes) :=
  match k with
  | .ecb => some (m, ecbBlockStep m x)
  | .cbc => some (cbcBlockStep m x)
  | .cfb => some (fbBytes .cfb m x)
  | .ofb => some (fbBytes .ofb m x)
  | .ctr => ctrBytes order m x

/-- `BlockStep` on a list of blocks, in order, the outputs joined (R264). -/
def blockSteps (k : Kind) (order : CtrOrder) (m : ModeCtx) : List Bytes → Option (ModeCtx × Bytes)
  | [] => some (m, [])
  | x :: rest =>
    match blockStep k order m x with
    | none => none
    | some (m1, o) =>
      match blockSteps k order m1 rest with
      | none => none
      | some (m2, os) => some (m2, o ++ os)

/-! ## Frames of the commands -/

/-- The end of a data command whose data path answers a new context and the output, or `F_CTRDRIFT`. -/
def dataResult (put : ModeCtx → State) (r : Option (ModeCtx × Bytes)) : CmdResult :=
  match r with
  | none => .fatal .ctrDrift
  | some (m, out) => .ok (put m) out

/-- The frame of every `BLOCK` command of units 2 to 6 (R162). -/
def blockFrame (k : Kind) (order : CtrOrder) (m : ModeCtx) (put : ModeCtx → State) (data : Bytes)
    (ocap : BitVec 24) : CmdResult :=
  if data.length < mbs k m ∨ ocap.toNat < mbs k m then .fatal .bufLen
  else if m.inited then dataResult put (blockStep k order m (data.take (mbs k m)))
  else .err .uninit

/-- The frame of the `BYTES` commands of CFB, OFB and CTR, around the result `r` of the data path (R185, R190, R209). -/
def bytesFrame (m : ModeCtx) (put : ModeCtx → State) (r : Option (ModeCtx × Bytes)) (data : Bytes)
    (ocap : BitVec 24) : CmdResult :=
  if ocap.toNat < data.length then .fatal .bufLen
  else if m.inited then dataResult put r
  else .err .uninit

/-- The end of an `INIT` of units 2 to 6 (R164, R168, R182, R187, R206). -/
def initResult (put : ModeCtx → State) (r : Except FatalCode ModeCtx) : CmdResult :=
  match r with
  | .error f => .fatal f
  | .ok m => .ok (put m) []

/-- `CFG` of CFB and OFB: construct the wrapper with a feedback size (R181, R186). -/
def fbCfgResult (put : ModeCtx → State) (imm : BitVec 24) : CmdResult :=
  if fbSizeLegal imm then .ok (put (modeFresh (imm.toNat / 8))) [] else .fatal .fbSize

end Sys2Proof.Machine
end

