-- ==== Sys2Proof/Machine/Bpc.lean ====
section
/-! DEFINITION. Unit BPC: padding-aware buffering around one private mode context (46_bpc.md R260 to R269). -/

namespace Sys2Proof.Machine

open Sys2Proof.Config

/-- `PAD_ADD buf off`: bytes before the offset unchanged, the rest filled by the padding strategy (00_scope.md R17). -/
def padAdd (buf : Bytes) (off : Nat) : Bytes :=
  buf.take off ++ (padFill (buf.take off) (buf.length - off)).toList

/-- `PAD_COUNT buf`: the number of trailing pad bytes, at most the length, or an error (R17). -/
def padCount (buf : Bytes) : Option Nat :=
  (padCountFin buf).map fun c => c.val

/-- The bytes kept back by `BPC.BYTES`: 1 to `BBS` when any byte is there (R264). -/
def bpcKeep (bbs total : Nat) : Nat :=
  if total = 0 then 0 else (total - 1) % bbs + 1

/-- The kind of the private context is a feedback mode (R261). -/
def isFeedback (k : Kind) : Bool :=
  k = .cfb || k = .ofb

/-- `BPC.CFG` (R261). -/
def bpcCfgResult (kind : Kind) (imm : BitVec 24) (s : State) : CmdResult :=
  if isFeedback kind && !fbSizeLegal imm then .fatal .fbSize
  else
    .ok (s.withB { Bpc.reset with
      mode := some kind
      m := if isFeedback kind then modeFresh (imm.toNat / 8) else ModeCtx.reset }) []

/-- `BPC.INIT` (R262). -/
def bpcInitResult (dir : Bool) (t : PType) (s : State) : CmdResult :=
  match s.b.mode with
  | none => .err .uninit
  | some k =>
    match modeInit k dir t s.p s.b.m with
    | .error f => .fatal f
    | .ok m => .ok (s.withB { s.b with m := m, dir := dir, buf := [], inited := true, finished := false }) []

/-- `BPC.RESET` (R263). -/
def bpcResetResult (s : State) : CmdResult :=
  match s.b.mode with
  | none => .ok s []
  | some k =>
    if s.b.inited then .ok (s.withB { s.b with m := modeReset k s.b.m, buf := [], finished := false }) []
    else .ok s []

/-- `BPC.BYTES` on a ready unit of kind `k` (R264). -/
def bpcBytesReady (k : Kind) (data : Bytes) (ocap : BitVec 24) (s : State) : CmdResult :=
  let bbs := mbs k s.b.m
  let total := s.b.buf.length + data.length
  let nout := total - bpcKeep bbs total
  if ocap.toNat < nout then .fatal .bufLen
  else
    dataResult (fun m => s.withB { s.b with m := m, buf := (s.b.buf ++ data).drop nout })
      (blockSteps k s.params.ctrOrder s.b.m (blocksOf bbs ((s.b.buf ++ data).take nout)))

/-- BPC `FinalEnc()` (R266). -/
def bpcFinalEnc (k : Kind) (ocap : BitVec 24) (s : State) : CmdResult :=
  let bbs := mbs k s.b.m
  let full := s.b.buf.length = bbs
  let tail := if full then [] else s.b.buf
  if ocap.toNat < (if full then 2 * bbs else bbs) then .err .outShort
  else
    dataResult (fun m => s.withB { s.b with m := m, buf := [], finished := true })
      (blockSteps k s.params.ctrOrder s.b.m
        ((if full then [s.b.buf] else []) ++ [padAdd (tail ++ zeros (bbs - tail.length)) tail.length]))

/-- BPC `FinalDec()` (R267). -/
def bpcFinalDec (k : Kind) (ocap : BitVec 24) (s : State) : CmdResult :=
  let bbs := mbs k s.b.m
  if s.b.buf.length ≠ bbs then .err .align
  else
    match blockStep k s.params.ctrOrder s.b.m s.b.buf with
    | none => .fatal .ctrDrift
    | some (m, d) =>
      match padCount d with
      | none => .err .pad
      | some cnt =>
        if ocap.toNat < bbs - cnt then .err .outShort
        else .ok (s.withB { s.b with m := m, buf := [], finished := true }) (d.take (bbs - cnt))

/-- Run `f` with the kind of a ready unit, else `E_UNINIT` (R260). -/
def whenReady (s : State) (f : Kind → CmdResult) : CmdResult :=
  match s.b.mode with
  | none => .err .uninit
  | some k => if bpcReady s.b then f k else .err .uninit

/-- `BPC.FINAL` on a ready unit (R265). -/
def bpcFinalReady (k : Kind) (ocap : BitVec 24) (s : State) : CmdResult :=
  if s.b.dir then bpcFinalEnc k ocap s else bpcFinalDec k ocap s

/-- The value `BPC.OSIZE` answers for `len` further bytes (R268). -/
def bpcOutputSize (bbs : Nat) (b : Bpc) (len : Nat) : Nat :=
  if b.dir then (len + b.buf.length) / bbs * bbs + bbs
  else (len + b.buf.length + bbs - 1) / bbs * bbs

/-! ## Commands -/

/-- `BPC.CFG` (R261). -/
def execBpcCfg (kind : Kind) (imm : BitVec 24) (s : State) : Host.Outcome State Fault Refusal :=
  respond (.bpcCfg kind imm) s (bpcCfgResult kind imm s)

/-- `BPC.INIT` (R262). -/
def execBpcInit (dir : Bool) (ptype : PType) (s : State) : Host.Outcome State Fault Refusal :=
  respond (.bpcInit dir ptype) s (bpcInitResult dir ptype s)

/-- `BPC.RESET` (R263). -/
def execBpcReset (s : State) : Host.Outcome State Fault Refusal :=
  respond .bpcReset s (bpcResetResult s)

/-- `BPC.BYTES` (R264). -/
def execBpcBytes (data : Bytes) (ocap : BitVec 24) (s : State) : Host.Outcome State Fault Refusal :=
  respond (.bpcBytes data ocap) s (whenReady s fun k => bpcBytesReady k data ocap s)

/-- `BPC.FINAL` (R265). -/
def execBpcFinal (ocap : BitVec 24) (s : State) : Host.Outcome State Fault Refusal :=
  respond (.bpcFinal ocap) s (whenReady s fun k => bpcFinalReady k ocap s)

/-- `BPC.OSIZE` (R268). -/
def execBpcOsize (len : BitVec 64) (ocap : BitVec 24) (s : State) : Host.Outcome State Fault Refusal :=
  respond (.bpcOsize len ocap) s
    (if ocap.toNat < 8 then .fatal .bufLen
     else whenReady s fun k => .ok s (beBytes 8 (bpcOutputSize (mbs k s.b.m) s.b len.toNat)))

end Sys2Proof.Machine
end

