-- ==== Sys2Proof/Machine/Cbc.lean ====
section
/-! DEFINITION. Unit CBC (42_ecb_cbc.md R167 to R170). -/

namespace Sys2Proof.Machine

/-- `CBC.CFG`: construct the wrapper; every field takes its reset value (R167). -/
def execCbcCfg (s : State) : Host.Outcome State Fault Refusal :=
  respond .cbcCfg s (.ok (s.withCbc ModeCtx.reset) [])

/-- `CBC.INIT` (R168). -/
def execCbcInit (dir : Bool) (ptype : PType) (s : State) : Host.Outcome State Fault Refusal :=
  respond (.cbcInit dir ptype) s (initResult s.withCbc (modeInit .cbc dir ptype s.p s.cbc))

/-- `CBC.RESET` (R169). -/
def execCbcReset (s : State) : Host.Outcome State Fault Refusal :=
  respond .cbcReset s (.ok (s.withCbc (modeReset .cbc s.cbc)) [])

/-- `CBC.BLOCK` (R170). -/
def execCbcBlock (data : Bytes) (ocap : BitVec 24) (s : State) : Host.Outcome State Fault Refusal :=
  respond (.cbcBlock data ocap) s (blockFrame .cbc s.params.ctrOrder s.cbc s.withCbc data ocap)

end Sys2Proof.Machine
end

