-- ==== Sys2Proof/Machine/Cfb.lean ====
section
/-! DEFINITION. Unit CFB (43_cfb_ofb.md R181 to R185). -/

namespace Sys2Proof.Machine

/-- `CFB.CFG`: construct the wrapper with a feedback size (R181). -/
def execCfbCfg (imm : BitVec 24) (s : State) : Host.Outcome State Fault Refusal :=
  respond (.cfbCfg imm) s (fbCfgResult s.withCfb imm)

/-- `CFB.INIT` (R182). -/
def execCfbInit (dir : Bool) (ptype : PType) (s : State) : Host.Outcome State Fault Refusal :=
  respond (.cfbInit dir ptype) s (initResult s.withCfb (modeInit .cfb dir ptype s.p s.cfb))

/-- `CFB.RESET` (R183). -/
def execCfbReset (s : State) : Host.Outcome State Fault Refusal :=
  respond .cfbReset s (.ok (s.withCfb (modeReset .cfb s.cfb)) [])

/-- `CFB.BLOCK` (R184). -/
def execCfbBlock (data : Bytes) (ocap : BitVec 24) (s : State) : Host.Outcome State Fault Refusal :=
  respond (.cfbBlock data ocap) s (blockFrame .cfb s.params.ctrOrder s.cfb s.withCfb data ocap)

/-- `CFB.BYTES` (R185). -/
def execCfbBytes (data : Bytes) (ocap : BitVec 24) (s : State) : Host.Outcome State Fault Refusal :=
  respond (.cfbBytes data ocap) s (bytesFrame s.cfb s.withCfb (some (fbBytes .cfb s.cfb data)) data ocap)

end Sys2Proof.Machine
end

