-- ==== Sys2Proof/Machine/Ctr.lean ====
section
/-! DEFINITION. Unit CTR (44_ctr.md R205 to R209). -/

namespace Sys2Proof.Machine

/-- `CTR.CFG`: construct the wrapper; every field takes its reset value (R205). -/
def execCtrCfg (s : State) : Host.Outcome State Fault Refusal :=
  respond .ctrCfg s (.ok (s.withCtr ModeCtx.reset) [])

/-- `CTR.INIT` (R206). -/
def execCtrInit (dir : Bool) (ptype : PType) (s : State) : Host.Outcome State Fault Refusal :=
  respond (.ctrInit dir ptype) s (initResult s.withCtr (modeInit .ctr dir ptype s.p s.ctr))

/-- `CTR.RESET` (R207). -/
def execCtrReset (s : State) : Host.Outcome State Fault Refusal :=
  respond .ctrReset s (.ok (s.withCtr (modeReset .ctr s.ctr)) [])

/-- `CTR.BLOCK` (R208). -/
def execCtrBlock (data : Bytes) (ocap : BitVec 24) (s : State) : Host.Outcome State Fault Refusal :=
  respond (.ctrBlock data ocap) s (blockFrame .ctr s.params.ctrOrder s.ctr s.withCtr data ocap)

/-- `CTR.BYTES` (R209). -/
def execCtrBytes (data : Bytes) (ocap : BitVec 24) (s : State) : Host.Outcome State Fault Refusal :=
  respond (.ctrBytes data ocap) s (bytesFrame s.ctr s.withCtr (ctrBytes s.params.ctrOrder s.ctr data) data ocap)

end Sys2Proof.Machine
end

