-- ==== Sys2Proof/Machine/Ecb.lean ====
section
/-! DEFINITION. Unit ECB (42_ecb_cbc.md R163 to R166). -/

namespace Sys2Proof.Machine

/-- `ECB.CFG`: construct the wrapper; every field takes its reset value (R163). -/
def execEcbCfg (s : State) : Host.Outcome State Fault Refusal :=
  respond .ecbCfg s (.ok (s.withEcb ModeCtx.reset) [])

/-- `ECB.INIT` (R164). -/
def execEcbInit (dir : Bool) (ptype : PType) (s : State) : Host.Outcome State Fault Refusal :=
  respond (.ecbInit dir ptype) s (initResult s.withEcb (modeInit .ecb dir ptype s.p s.ecb))

/-- `ECB.RESET` (R165). -/
def execEcbReset (s : State) : Host.Outcome State Fault Refusal :=
  respond .ecbReset s (.ok (s.withEcb (modeReset .ecb s.ecb)) [])

/-- `ECB.BLOCK` (R166). -/
def execEcbBlock (data : Bytes) (ocap : BitVec 24) (s : State) : Host.Outcome State Fault Refusal :=
  respond (.ecbBlock data ocap) s (blockFrame .ecb s.params.ctrOrder s.ecb s.withEcb data ocap)

end Sys2Proof.Machine
end

