-- ==== Sys2Proof/Machine/Gf.lean ====
section
/-! DEFINITION. Unit GF: arithmetic of GF(2^128) and GHASH (41_gf128.md R140 to R149). -/

namespace Sys2Proof.Machine

open Sys2Proof.Config

/-- Bit `i` of a field element: the coefficient of `x^i`, bit 0 the most significant bit of the first byte (R140). -/
def fieldBit (a : Block) (i : Nat) : Bool := a.getMsbD i

/-- `RC`, what `x^128` reduces to: `1 + x + x^2 + x^7`, `0xE1 << 120` (R141). -/
def reductionConstant : Block := 0xE1#128 <<< 120

/-- `GfXor(a, b)`, addition in the field (R142). -/
def gfXor (a b : Block) : Block := a ^^^ b

/-- `V >> 1` with the reduction when bit 127 of `V` is 1: the product of `V` by `x` (R143). -/
def gfShift (v : Block) : Block :=
  if fieldBit v 127 then (v >>> 1) ^^^ reductionConstant else v >>> 1

/-- One turn of the loop of `GfMul` for bit `i` of `X`, on the pair `(Z, V)` (R143). -/
def gfMulTurn (x : Block) (zv : Block × Block) (i : Nat) : Block × Block :=
  (if fieldBit x i then zv.1 ^^^ zv.2 else zv.1, gfShift zv.2)

/-- `GfMul(X, Y)`: 128 turns, whatever the operands (R143). -/
def gfMul (x y : Block) : Block :=
  ((List.range 128).foldl (gfMulTurn x) (0, y)).1

/-- `GHashBlock(Y, X, H)` (R145). -/
def ghashBlock (y x h : Block) : Block :=
  gfMul (gfXor y x) h

/-- `GHash(Y, data, H)`: per 16-byte block, the last one zero-padded (R146). -/
def ghash (y : Block) (data : Bytes) (h : Block) : Block :=
  (blocksOf bs data).foldl (fun acc blk => ghashBlock acc (blockOfBytes blk) h) y

/-- `GF.XOR` (R147). -/
def execGfXor (data : Bytes) (ocap : BitVec 24) (s : State) : Host.Outcome State Fault Refusal :=
  respond (.gfXor data ocap) s
    (if data.length ≠ 32 ∨ ocap.toNat < 16 then .fatal .bufLen
     else .ok s (bytesOfBlock (gfXor (operandBlock data) (operandBlock2 data))))

/-- `GF.MUL` (R148). -/
def execGfMul (data : Bytes) (ocap : BitVec 24) (s : State) : Host.Outcome State Fault Refusal :=
  respond (.gfMul data ocap) s
    (if data.length ≠ 32 ∨ ocap.toNat < 16 then .fatal .bufLen
     else .ok s (bytesOfBlock (gfMul (operandBlock data) (operandBlock2 data))))

/-- `GF.GHASH`: payload `H ‖ Y ‖ data` (R149). -/
def execGfGhash (data : Bytes) (ocap : BitVec 24) (s : State) : Host.Outcome State Fault Refusal :=
  respond (.gfGhash data ocap) s
    (if data.length < 32 ∨ ocap.toNat < 16 then .fatal .bufLen
     else .ok s (bytesOfBlock (ghash (operandBlock2 data) (data.drop 32) (operandBlock data))))

end Sys2Proof.Machine
end

