-- ==== Sys2Proof/Machine/Gcm.lean ====
section
/-! DEFINITION. Unit GCM: counter-mode keystream generator and tag engine (45_gcm.md R220 to R240). -/

namespace Sys2Proof.Machine

open Sys2Proof.Config

/-! ## Helper procedures -/

/-- `Inc32(b)`: bytes 12 to 15 incremented modulo 2^32, bytes 0 to 11 unchanged (R221). -/
def inc32 (b : Block) : Block :=
  b.extractLsb' 32 96 ++ (b.extractLsb' 0 32 + 1)

/-- `LenBlock(a, c) = be64(8a) ‖ be64(8c)` (R226). -/
def lenBlock (a c : Nat) : Block :=
  BitVec.ofNat 64 (8 * a) ++ BitVec.ofNat 64 (8 * c)

/-- `DeriveJ0(nonce, H)` (R222). The closing length block is `0^8 ‖ be64(8 * len(nonce))`. -/
def deriveJ0 (nonce : Bytes) (h : Block) : Block :=
  if nonce.length = 12 then blockOfBytes (nonce ++ [0, 0, 0, 1])
  else ghashBlock (ghash 0 nonce h) (lenBlock 0 nonce.length) h

/-- One byte of `AadAbsorb` (R223). -/
def aadByte (g : Gcm) (b : Byte) : Gcm :=
  if (g.atbuf ++ [b]).length = bs then
    { g with sat := ghashBlock g.sat (blockOfBytes (g.atbuf ++ [b])) g.h, atbuf := [], atlen := g.atlen + 1 }
  else
    { g with atbuf := g.atbuf ++ [b], atlen := g.atlen + 1 }

/-- `AadAbsorb(data)` (R223). -/
def aadAbsorb (g : Gcm) (data : Bytes) : Gcm :=
  data.foldl aadByte g

/-- `StartCipher()` (R224). -/
def startCipher (g : Gcm) : Gcm :=
  if g.started then g
  else
    let sat := if 0 < g.atbuf.length then ghashBlock g.sat (blockOfBytes g.atbuf) g.h else g.sat
    { g with sat := sat, atbuf := [], s := sat, started := true }

/-- The ciphertext of a block `p` under the counter block `c`: `p ^ BC_ENC(K, c)[0..len(p))` (R225, R237). -/
def ctrXor (key : Bytes) (c : Block) (p : Bytes) : Bytes :=
  xorBytes p (bytesOfBlock (bcEnc key c))

/-- `EncBlock(p)` (R225). -/
def encBlock (g : Gcm) (p : Bytes) : Gcm × Bytes :=
  let c := inc32 g.ctrb
  let ct := ctrXor g.key c p
  ({ g with ctrb := c, s := ghashBlock g.s (blockOfBytes ct) g.h,
            totlen := g.totlen + BitVec.ofNat 64 ct.length }, ct)

/-- `Tag(S, a, c)`: the leftmost `MACB` bytes of `E(K, J0) ^ GHashBlock(S, LenBlock(a, c), H)` (R227). -/
def gcmTag (g : Gcm) (s : Block) (a c : Nat) : Bytes :=
  (bytesOfBlock (bcEnc g.key g.j0 ^^^ ghashBlock s (lenBlock a c) g.h)).take g.macb

/-- One byte of `BytesEnc`: a block is emitted when its 16th byte arrives (R233). -/
def encByte (g : Gcm) (b : Byte) : Gcm × Bytes :=
  if (g.pbuf ++ [b]).length = bs then
    let r := encBlock g (g.pbuf ++ [b])
    ({ r.1 with pbuf := [] }, r.2)
  else ({ g with pbuf := g.pbuf ++ [b] }, [])

/-- `BytesEnc(data)` (R233). -/
def bytesEnc (g : Gcm) : Bytes → Gcm × Bytes
  | [] => (g, [])
  | b :: rest =>
    let next := bytesEnc (encByte g b).1 rest
    (next.1, (encByte g b).2 ++ next.2)

/-- `BytesDec(data)`: buffer, and produce nothing (R234). -/
def bytesDec (g : Gcm) (data : Bytes) : Gcm :=
  { g with dbuf := g.dbuf ++ data }

/-- The decryption loop of `FinalDec`: block `k` under the `k+1`-st increment of the counter `c` (R237). -/
def decBlocks (key : Bytes) (c : Block) : List Bytes → Bytes
  | [] => []
  | blk :: rest => ctrXor key (inc32 c) blk ++ decBlocks key (inc32 c) rest

/-- The number of blocks a `GCM.BYTES` of `ilen` bytes would bring the session to (R232, R240). -/
def blocksAfter (g : Gcm) (ilen : Nat) : Nat :=
  if g.dir then (g.totlen.toNat + g.pbuf.length + ilen + 15) / 16 else (g.dbuf.length + ilen + 15) / 16

/-- The tag size in bits that an `INIT` uses (R229). -/
def gcmMacBits (t : PType) (p : Staged) : Nat :=
  if t = .aead ∧ p.macv then p.mac.toNat else gcmMacDefault

/-- A GCM tag size is legal: 32 to 128 bits, a multiple of 8 (R229). -/
def gcmMacLegal (bits : Nat) : Bool :=
  !(bits < 32 || 128 < bits || bits % 8 != 0)

/-- The session a successful `INIT` opens, before any associated data (R229). -/
def gcmOpen (dir : Bool) (t : PType) (p : Staged) : Gcm :=
  { Gcm.reset with
    inited := true, dir := dir, key := p.key, macb := gcmMacBits t p / 8
    h := bcEnc p.key 0
    j0 := deriveJ0 p.iv (bcEnc p.key 0)
    ctrb := deriveJ0 p.iv (bcEnc p.key 0) }

/-- `GCM.INIT` (R229). -/
def gcmInitResult (dir : Bool) (t : PType) (s : State) : CmdResult :=
  if t ≠ .aead ∧ t ≠ .keyIv then .fatal .pType
  else if !s.p.keyv || !bcKeyOk s.p.key then .fatal .key
  else if !s.p.ivv || s.p.iv.length < 1 then .fatal .ivLen
  else if !gcmMacLegal (gcmMacBits t s.p) then .fatal .macSize
  else if t = .aead ∧ s.p.aadv then .ok (s.withG (aadAbsorb (gcmOpen dir t s.p) s.p.aad)) []
  else .ok (s.withG (gcmOpen dir t s.p)) []

/-- `GCM.AAD` (R231). -/
def gcmAadResult (data : Bytes) (s : State) : CmdResult :=
  if !s.g.inited then .err .uninit
  else if s.g.started then .err .state
  else .ok (s.withG (aadAbsorb s.g data)) []

/-- `GCM.BYTES` (R232). On the decrypt side a finite `CAP_DBUF` that the bytes would exceed is `E_LIMIT` (D43,
notes/assumptions 4). -/
def gcmBytesResult (data : Bytes) (ocap : BitVec 24) (s : State) : CmdResult :=
  if !s.g.inited then .err .uninit
  else if s.g.dir ∧ ocap.toNat < 16 * ((s.g.pbuf.length + data.length) / 16) then .fatal .bufLen
  else if data.length = 0 then .ok s []
  else if gcmBlkMax < blocksAfter s.g data.length then .err .limit
  else if s.g.dir then
    .ok (s.withG (bytesEnc (startCipher s.g) data).1) (bytesEnc (startCipher s.g) data).2
  else if fits s.params.capDbuf (s.g.dbuf.length + data.length) then
    .ok (s.withG (bytesDec (startCipher s.g) data)) []
  else .err .limit

/-- The state and ciphertext of the partial block that `FinalEnc` closes (R236). -/
def finalPartial (g : Gcm) : Gcm × Bytes :=
  if 0 < g.pbuf.length then encBlock g g.pbuf else (g, [])

/-- GCM `FinalEnc()` (R236), ending in the auto-reset (R239). -/
def gcmFinalEnc (ocap : BitVec 24) (s : State) : CmdResult :=
  if ocap.toNat < s.g.pbuf.length + s.g.macb then .err .outShort
  else
    let r := finalPartial (startCipher s.g)
    .ok (s.withG Gcm.reset) (r.2 ++ gcmTag r.1 r.1.s r.1.atlen.toNat r.1.totlen.toNat)

/-- The tag that `FinalDec` computes over the first `clen` buffered bytes (R237). -/
def expectedTag (g : Gcm) (clen : Nat) : Bytes :=
  gcmTag g (ghash g.s (g.dbuf.take clen) g.h) g.atlen.toNat clen

/-- GCM `FinalDec()` (R237), ending in the auto-reset (R239). -/
def gcmFinalDec (ocap : BitVec 24) (s : State) : CmdResult :=
  let g := startCipher s.g
  let clen := g.dbuf.length - g.macb
  if g.dbuf.length < g.macb then .err .short
  else if ocap.toNat < clen then .err .outShort
  else if expectedTag g clen ≠ g.dbuf.drop clen then .err .mac
  else .ok (s.withG Gcm.reset) (decBlocks g.key g.j0 (blocksOf bs (g.dbuf.take clen)))

/-- `GCM.FINAL` (R235). -/
def gcmFinalResult (ocap : BitVec 24) (s : State) : CmdResult :=
  if !s.g.inited then .err .uninit
  else if s.g.dir then gcmFinalEnc ocap s
  else gcmFinalDec ocap s

/-- The value `GCM.OSIZE` answers for `len` further bytes (R238). -/
def gcmOutputSize (g : Gcm) (len : Nat) : Nat :=
  if g.dir then len + g.pbuf.length + g.macb else len + g.dbuf.length - g.macb

/-! ## Commands -/

/-- `GCM.CFG` (R228). -/
def execGcmCfg (s : State) : Host.Outcome State Fault Refusal :=
  respond .gcmCfg s (.ok (s.withG Gcm.reset) [])

/-- `GCM.INIT` (R229). -/
def execGcmInit (dir : Bool) (ptype : PType) (s : State) : Host.Outcome State Fault Refusal :=
  respond (.gcmInit dir ptype) s (gcmInitResult dir ptype s)

/-- `GCM.RESET` (R230). -/
def execGcmReset (s : State) : Host.Outcome State Fault Refusal :=
  respond .gcmReset s (.ok (s.withG Gcm.reset) [])

/-- `GCM.BYTES` (R232). -/
def execGcmBytes (data : Bytes) (ocap : BitVec 24) (s : State) : Host.Outcome State Fault Refusal :=
  respond (.gcmBytes data ocap) s (gcmBytesResult data ocap s)

/-- `GCM.AAD` (R231). -/
def execGcmAad (data : Bytes) (s : State) : Host.Outcome State Fault Refusal :=
  respond (.gcmAad data) s (gcmAadResult data s)

/-- `GCM.FINAL` (R235). -/
def execGcmFinal (ocap : BitVec 24) (s : State) : Host.Outcome State Fault Refusal :=
  respond (.gcmFinal ocap) s (gcmFinalResult ocap s)

/-- `GCM.OSIZE` (R238). -/
def execGcmOsize (len : BitVec 64) (ocap : BitVec 24) (s : State) : Host.Outcome State Fault Refusal :=
  respond (.gcmOsize len ocap) s
    (if ocap.toNat < 8 then .fatal .bufLen
     else if s.g.inited then .ok s (beBytes 8 (gcmOutputSize s.g len.toNat))
     else .err .uninit)

end Sys2Proof.Machine
end

