-- ==== Sys2Proof/Machine/Hmac.lean ====
section
/-! DEFINITION. Unit HMAC: the generic MAC over a digest (47_hmac.md R280 to R287). -/

namespace Sys2Proof.Machine

open Sys2Proof.Config

/-- `DG(m)`, the digest of a whole message (00_scope.md R15). -/
def digestOf (m : Bytes) : Bytes := (digest m).toList

/-- The key as HMAC uses it: hashed when longer than `BL`, then zero-padded to `BL` bytes (R282). -/
def hmacKey (key : Bytes) : Bytes :=
  let k := if hmacBl < key.length then digestOf key else key
  k ++ zeros (hmacBl - k.length)

/-- A pad: every byte of the padded key XOR a constant (R282). -/
def hmacPad (c : Byte) (key : Bytes) : Bytes :=
  (hmacKey key).map fun b => b ^^^ c

/-- `HM` after a successful `INIT`: both pads set, the digest primed with the inner pad (R282). -/
def hmacPrimed (key : Bytes) : Hmac :=
  { inited := true, ipad := hmacPad hmacIpad key, opad := hmacPad hmacOpad key, dg := hmacPad hmacIpad key }

/-- `HMAC.INIT` (R282). A `CAP_MSG` below `BL` cannot hold the primed digest and is `E_LIMIT` (D43,
notes/assumptions 4). -/
def hmacInitResult (t : PType) (s : State) : CmdResult :=
  if t ≠ .key then .fatal .pType
  else if !s.p.keyv then .fatal .key
  else if fits s.params.capMsg (hmacPrimed s.p.key).dg.length then .ok (s.withHm (hmacPrimed s.p.key)) []
  else .err .limit

/-- `HMAC.RESET` (R283). -/
def hmacResetResult (s : State) : CmdResult :=
  if s.hm.inited then .ok (s.withHm { s.hm with dg := s.hm.ipad }) [] else .ok s []

/-- `HMAC.UPDATE` (R284); beyond `CAP_MSG` it is `E_LIMIT` (D43, notes/assumptions 4). -/
def hmacUpdateResult (data : Bytes) (s : State) : CmdResult :=
  if !s.hm.inited then .err .uninit
  else if fits s.params.capMsg (s.hm.dg.length + data.length) then
    .ok (s.withHm { s.hm with dg := s.hm.dg ++ data }) []
  else .err .limit

/-- The MAC that `HMAC.FINAL` answers: `DG(OPAD ‖ DG(HM.DG))` (R285). -/
def hmacMac (hm : Hmac) : Bytes :=
  digestOf (hm.opad ++ digestOf hm.dg)

/-- `HMAC.FINAL` (R285). -/
def hmacFinalResult (ocap : BitVec 24) (s : State) : CmdResult :=
  if !s.hm.inited then .err .uninit
  else if ocap.toNat < digestSize then .err .outShort
  else .ok (s.withHm { s.hm with dg := s.hm.ipad }) (hmacMac s.hm)

/-- `HMAC.CFG` (R281). -/
def execHmacCfg (s : State) : Host.Outcome State Fault Refusal :=
  respond .hmacCfg s (.ok (s.withHm Hmac.reset) [])

/-- `HMAC.INIT` (R282); `DIR` is ignored. -/
def execHmacInit (dir : Bool) (ptype : PType) (s : State) : Host.Outcome State Fault Refusal :=
  respond (.hmacInit dir ptype) s (hmacInitResult ptype s)

/-- `HMAC.RESET` (R283). -/
def execHmacReset (s : State) : Host.Outcome State Fault Refusal :=
  respond .hmacReset s (hmacResetResult s)

/-- `HMAC.UPDATE` (R284). -/
def execHmacUpdate (data : Bytes) (s : State) : Host.Outcome State Fault Refusal :=
  respond (.hmacUpdate data) s (hmacUpdateResult data s)

/-- `HMAC.FINAL` (R285). -/
def execHmacFinal (ocap : BitVec 24) (s : State) : Host.Outcome State Fault Refusal :=
  respond (.hmacFinal ocap) s (hmacFinalResult ocap s)

end Sys2Proof.Machine
end

