-- ==== Sys2Proof/Machine/Kmac.lean ====
section
/-! DEFINITION. Unit KMAC: the generic MAC over a stream generator (48_kmac.md R300 to R307). -/

namespace Sys2Proof.Machine

open Sys2Proof.Config

/-- The MAC size of an immediate: 32, 64 or 128, any other value 64 (R301). -/
def macSizeOf (imm : BitVec 24) : MacSize :=
  if imm.toNat = 32 then .m32 else if imm.toNat = 128 then .m128 else .m64

/-- One keystream word: four generator bytes from position `pos`, of an all-zero input (R16, R306). -/
def keystreamWord (key : Bytes) (iv : Option Bytes) (pos : Nat) : Bytes :=
  (List.range 4).map fun i => (0x00 : Byte) ^^^ sgKs key iv (pos + i)

/-- The loop of `DeriveKs` over `nw` words from position `pos`: the keystream and the position after it (R306). -/
def deriveWords (key : Bytes) (iv : Option Bytes) : Nat → Nat → Bytes × Nat
  | 0, pos => ([], pos)
  | nw + 1, pos =>
    let next := deriveWords key iv nw (pos + 4)
    (keystreamWord key iv pos ++ next.1, next.2)

/-- `DeriveKs(len)`: `ceil(len/4)` words from the generator's position (R306). -/
def deriveKs (km : Kmac) (len : Nat) : Bytes × Nat :=
  deriveWords km.sgkey km.sgiv ((len + 3) / 4) km.pos

/-- `KMAC_MIX(msg, ks, macbits)` (00_scope.md R18, R307). -/
def mixOf (msg ks : Bytes) (m : MacSize) : Bytes :=
  (kmacMix msg ks m).1.toList ++ (kmacMix msg ks m).2

/-- The MAC that `KMAC.FINAL` answers: the first `macbits / 8` bytes of the mix (R305, R307). -/
def kmacMac (km : Kmac) : Bytes :=
  (mixOf km.msg (deriveKs km km.msg.length).1 km.macbits).take km.macbits.bytes

/-- `KMAC.INIT` (R302). A staged IV of length 0 goes to the generator (DEDUCED, notes/assumptions 19). -/
def kmacInitResult (t : PType) (s : State) : CmdResult :=
  if t ≠ .key ∧ t ≠ .keyIv then .fatal .pType
  else if !s.p.keyv then .fatal .key
  else if t = .keyIv ∧ !s.p.ivv then .fatal .ivLen
  else
    let iv := if t = .keyIv then some s.p.iv else none
    if sgOk s.p.key iv then
      .ok (s.withKm { s.km with sgkey := s.p.key, sgiv := iv, pos := 0, msg := [], inited := true }) []
    else .err .prim

/-- `KMAC.RESET` (R303). -/
def kmacResetResult (s : State) : CmdResult :=
  if s.km.inited then .ok (s.withKm { s.km with msg := [], pos := 0 }) [] else .ok s []

/-- `KMAC.UPDATE` (R304); beyond `CAP_MSG` it is `E_LIMIT` (D43, notes/assumptions 4). -/
def kmacUpdateResult (data : Bytes) (s : State) : CmdResult :=
  if !s.km.inited then .err .uninit
  else if fits s.params.capMsg (s.km.msg.length + data.length) then
    .ok (s.withKm { s.km with msg := s.km.msg ++ data }) []
  else .err .limit

/-- `KMAC.FINAL` (R305): the generator runs on to `DeriveKs`'s position and is then rewound to 0. -/
def kmacFinalResult (ocap : BitVec 24) (s : State) : CmdResult :=
  if !s.km.inited then .err .uninit
  else if ocap.toNat < s.km.macbits.bytes then .err .outShort
  else .ok (s.withKm { s.km with msg := [], pos := 0 }) (kmacMac s.km)

/-- `KMAC.CFG` (R301). -/
def execKmacCfg (imm : BitVec 24) (s : State) : Host.Outcome State Fault Refusal :=
  respond (.kmacCfg imm) s (.ok (s.withKm { Kmac.reset with macbits := macSizeOf imm }) [])

/-- `KMAC.INIT` (R302); `DIR` is ignored. -/
def execKmacInit (dir : Bool) (ptype : PType) (s : State) : Host.Outcome State Fault Refusal :=
  respond (.kmacInit dir ptype) s (kmacInitResult ptype s)

/-- `KMAC.RESET` (R303). -/
def execKmacReset (s : State) : Host.Outcome State Fault Refusal :=
  respond .kmacReset s (kmacResetResult s)

/-- `KMAC.UPDATE` (R304). -/
def execKmacUpdate (data : Bytes) (s : State) : Host.Outcome State Fault Refusal :=
  respond (.kmacUpdate data) s (kmacUpdateResult data s)

/-- `KMAC.FINAL` (R305). -/
def execKmacFinal (ocap : BitVec 24) (s : State) : Host.Outcome State Fault Refusal :=
  respond (.kmacFinal ocap) s (kmacFinalResult ocap s)

end Sys2Proof.Machine
end

