-- ==== Sys2Proof/Machine/Ofb.lean ====
section
/-! DEFINITION. Unit OFB (43_cfb_ofb.md R186 to R190). -/

namespace Sys2Proof.Machine

/-- `OFB.CFG`: construct the wrapper with a feedback size (R186). -/
def execOfbCfg (imm : BitVec 24) (s : State) : Host.Outcome State Fault Refusal :=
  respond (.ofbCfg imm) s (fbCfgResult s.withOfb imm)

/-- `OFB.INIT` (R187). -/
def execOfbInit (dir : Bool) (ptype : PType) (s : State) : Host.Outcome State Fault Refusal :=
  respond (.ofbInit dir ptype) s (initResult s.withOfb (modeInit .ofb dir ptype s.p s.ofb))

/-- `OFB.RESET` (R188). -/
def execOfbReset (s : State) : Host.Outcome State Fault Refusal :=
  respond .ofbReset s (.ok (s.withOfb (modeReset .ofb s.ofb)) [])

/-- `OFB.BLOCK` (R189). -/
def execOfbBlock (data : Bytes) (ocap : BitVec 24) (s : State) : Host.Outcome State Fault Refusal :=
  respond (.ofbBlock data ocap) s (blockFrame .ofb s.params.ctrOrder s.ofb s.withOfb data ocap)

/-- `OFB.BYTES` (R190). -/
def execOfbBytes (data : Bytes) (ocap : BitVec 24) (s : State) : Host.Outcome State Fault Refusal :=
  respond (.ofbBytes data ocap) s (bytesFrame s.ofb s.withOfb (some (fbBytes .ofb s.ofb data)) data ocap)

end Sys2Proof.Machine
end

