-- ==== Sys2Proof/Machine/Sys.lean ====
section
/-! DEFINITION. Unit SYS: parameter staging and status (40_sys.md R121 to R130). -/

namespace Sys2Proof.Machine

/-- Stage a value in `P` unless it exceeds the capacity of the staging buffers (R122; D43, notes/assumptions 4). -/
def stage (s : State) (data : Bytes) (p : Staged) : CmdResult :=
  if fits s.params.capP data.length then .ok (s.withP p) [] else .err .limit

/-- `SYS.NOP`: do nothing (R121). -/
def execSysNop (s : State) : Host.Outcome State Fault Refusal :=
  respond .sysNop s (.ok s [])

/-- `SYS.LDKEY`: stage a key (R122). -/
def execSysLdkey (data : Bytes) (s : State) : Host.Outcome State Fault Refusal :=
  respond (.sysLdkey data) s (stage s data { s.p with key := data, keyv := true })

/-- `SYS.CLRKEY`: un-stage the key (R123). -/
def execSysClrkey (s : State) : Host.Outcome State Fault Refusal :=
  respond .sysClrkey s (.ok (s.withP { s.p with key := [], keyv := false }) [])

/-- `SYS.LDIV`: stage an IV or nonce (R124). -/
def execSysLdiv (data : Bytes) (s : State) : Host.Outcome State Fault Refusal :=
  respond (.sysLdiv data) s (stage s data { s.p with iv := data, ivv := true })

/-- `SYS.CLRIV`: un-stage the IV (R125). -/
def execSysClriv (s : State) : Host.Outcome State Fault Refusal :=
  respond .sysClriv s (.ok (s.withP { s.p with iv := [], ivv := false }) [])

/-- `SYS.LDAAD`: stage initial associated data (R126). -/
def execSysLdaad (data : Bytes) (s : State) : Host.Outcome State Fault Refusal :=
  respond (.sysLdaad data) s (stage s data { s.p with aad := data, aadv := true })

/-- `SYS.CLRAAD`: un-stage the associated data (R127). -/
def execSysClraad (s : State) : Host.Outcome State Fault Refusal :=
  respond .sysClraad s (.ok (s.withP { s.p with aad := [], aadv := false }) [])

/-- `SYS.LDMAC`: stage a MAC size in bits (R128). -/
def execSysLdmac (imm : BitVec 24) (s : State) : Host.Outcome State Fault Refusal :=
  respond (.sysLdmac imm) s (.ok (s.withP { s.p with mac := imm, macv := true }) [])

/-- `SYS.CLRMAC`: un-stage the MAC size (R129). -/
def execSysClrmac (s : State) : Host.Outcome State Fault Refusal :=
  respond .sysClrmac s (.ok (s.withP { s.p with mac := 0, macv := false }) [])

/-- `SYS.STATUS`: read `LASTERR`, the `INITED` bits and the revision (R130). -/
def execSysStatus (ocap : BitVec 24) (s : State) : Host.Outcome State Fault Refusal :=
  respond (.sysStatus ocap) s (if ocap.toNat < 4 then .fatal .bufLen else .ok s (statusBytes s))

end Sys2Proof.Machine
end

