-- ==== Sys2Proof/Machine/Dispatch.lean ====
section
/-! DEFINITION. The dispatch: one arm per command, each one call of its meaning (30_encoding.md R101). -/

namespace Sys2Proof.Machine

def exec (i : Instr) (s : State) : Host.Outcome State Fault Refusal :=
  match i with
  | .sysNop => Sys2Proof.Machine.execSysNop s
  | .sysLdkey data => Sys2Proof.Machine.execSysLdkey data s
  | .sysClrkey => Sys2Proof.Machine.execSysClrkey s
  | .sysLdiv data => Sys2Proof.Machine.execSysLdiv data s
  | .sysClriv => Sys2Proof.Machine.execSysClriv s
  | .sysLdaad data => Sys2Proof.Machine.execSysLdaad data s
  | .sysClraad => Sys2Proof.Machine.execSysClraad s
  | .sysLdmac imm => Sys2Proof.Machine.execSysLdmac imm s
  | .sysClrmac => Sys2Proof.Machine.execSysClrmac s
  | .sysStatus ocap => Sys2Proof.Machine.execSysStatus ocap s
  | .gfXor data ocap => Sys2Proof.Machine.execGfXor data ocap s
  | .gfMul data ocap => Sys2Proof.Machine.execGfMul data ocap s
  | .gfGhash data ocap => Sys2Proof.Machine.execGfGhash data ocap s
  | .ecbCfg => Sys2Proof.Machine.execEcbCfg s
  | .ecbInit dir ptype => Sys2Proof.Machine.execEcbInit dir ptype s
  | .ecbReset => Sys2Proof.Machine.execEcbReset s
  | .ecbBlock data ocap => Sys2Proof.Machine.execEcbBlock data ocap s
  | .cbcCfg => Sys2Proof.Machine.execCbcCfg s
  | .cbcInit dir ptype => Sys2Proof.Machine.execCbcInit dir ptype s
  | .cbcReset => Sys2Proof.Machine.execCbcReset s
  | .cbcBlock data ocap => Sys2Proof.Machine.execCbcBlock data ocap s
  | .cfbCfg imm => Sys2Proof.Machine.execCfbCfg imm s
  | .cfbInit dir ptype => Sys2Proof.Machine.execCfbInit dir ptype s
  | .cfbReset => Sys2Proof.Machine.execCfbReset s
  | .cfbBlock data ocap => Sys2Proof.Machine.execCfbBlock data ocap s
  | .cfbBytes data ocap => Sys2Proof.Machine.execCfbBytes data ocap s
  | .ofbCfg imm => Sys2Proof.Machine.execOfbCfg imm s
  | .ofbInit dir ptype => Sys2Proof.Machine.execOfbInit dir ptype s
  | .ofbReset => Sys2Proof.Machine.execOfbReset s
  | .ofbBlock data ocap => Sys2Proof.Machine.execOfbBlock data ocap s
  | .ofbBytes data ocap => Sys2Proof.Machine.execOfbBytes data ocap s
  | .ctrCfg => Sys2Proof.Machine.execCtrCfg s
  | .ctrInit dir ptype => Sys2Proof.Machine.execCtrInit dir ptype s
  | .ctrReset => Sys2Proof.Machine.execCtrReset s
  | .ctrBlock data ocap => Sys2Proof.Machine.execCtrBlock data ocap s
  | .ctrBytes data ocap => Sys2Proof.Machine.execCtrBytes data ocap s
  | .gcmCfg => Sys2Proof.Machine.execGcmCfg s
  | .gcmInit dir ptype => Sys2Proof.Machine.execGcmInit dir ptype s
  | .gcmReset => Sys2Proof.Machine.execGcmReset s
  | .gcmBytes data ocap => Sys2Proof.Machine.execGcmBytes data ocap s
  | .gcmAad data => Sys2Proof.Machine.execGcmAad data s
  | .gcmFinal ocap => Sys2Proof.Machine.execGcmFinal ocap s
  | .gcmOsize len ocap => Sys2Proof.Machine.execGcmOsize len ocap s
  | .bpcCfg kind imm => Sys2Proof.Machine.execBpcCfg kind imm s
  | .bpcInit dir ptype => Sys2Proof.Machine.execBpcInit dir ptype s
  | .bpcReset => Sys2Proof.Machine.execBpcReset s
  | .bpcBytes data ocap => Sys2Proof.Machine.execBpcBytes data ocap s
  | .bpcFinal ocap => Sys2Proof.Machine.execBpcFinal ocap s
  | .bpcOsize len ocap => Sys2Proof.Machine.execBpcOsize len ocap s
  | .hmacCfg => Sys2Proof.Machine.execHmacCfg s
  | .hmacInit dir ptype => Sys2Proof.Machine.execHmacInit dir ptype s
  | .hmacReset => Sys2Proof.Machine.execHmacReset s
  | .hmacUpdate data => Sys2Proof.Machine.execHmacUpdate data s
  | .hmacFinal ocap => Sys2Proof.Machine.execHmacFinal ocap s
  | .kmacCfg imm => Sys2Proof.Machine.execKmacCfg imm s
  | .kmacInit dir ptype => Sys2Proof.Machine.execKmacInit dir ptype s
  | .kmacReset => Sys2Proof.Machine.execKmacReset s
  | .kmacUpdate data => Sys2Proof.Machine.execKmacUpdate data s
  | .kmacFinal ocap => Sys2Proof.Machine.execKmacFinal ocap s

end Sys2Proof.Machine
end

