-- ==== Sys2Proof/Machine/Step.lean ====
section
/-! DEFINITION. One step of the engine: fetch, decode, execute (30_encoding.md R97), and how an instruction's word is
placed where the next step fetches. -/

namespace Sys2Proof.Machine

/-- One step (R97). While `SYS.RUN = RUNNING`: at the end of the stream the run ends; a rejected packet raises its
class-1 error; a command is executed. An engine that is `DONE` or `HALTED` makes no step. -/
def step (s : State) : Host.Outcome State Fault Refusal :=
  match s.run with
  | .done => .fault .done
  | .halted => .fault .halted
  | .running =>
    match fetch s with
    | .endOfStream => .next (endRun s)
    | .rejected e => .next (rejectPacket e s)
    | .command i => exec i s

/-- The state in which the very next step fetches the instruction whose bits are `w`, numbered as the opcode table
numbers them (notes/assumptions 1). -/
def State.withFetchWord (s : State) (nbits w : Nat) : State :=
  placePacket s (tableBytes nbits w)

end Sys2Proof.Machine
end

