-- ==== Sys2Proof/Safety.lean ====
section
/-! DEFINITION. The terms in which claims speak of the engine: the byte form of a response, the three ends of a command
written as states, the invariants of every unit between commands, what a command may touch, the statuses a command may
answer, and runs of several commands. -/

namespace Sys2Proof.Machine

open Sys2Proof.Config

/-! ## Responses and ends of a command, as the spec writes them -/

/-- A response packet byte by byte (30_encoding.md R96): `STATUS`; `UNIT` and `OP` in one byte; `OLEN` in three bytes,
most significant first; three zero bytes; the output. -/
def wireResponse (status : BitVec 8) (unit op : BitVec 4) (out : Bytes) : Bytes :=
  [status, unit ++ op, BitVec.ofNat 8 (out.length / 65536), BitVec.ofNat 8 (out.length / 256),
    BitVec.ofNat 8 out.length, 0, 0, 0] ++ out

/-- The state `s` (holding a command's writes) after `return OK(out)` of a packet with `ilen` payload bytes (R21). -/
def State.completed (s : State) (unit op : BitVec 4) (ilen : Nat) (out : Bytes) : State :=
  { s with cp := s.cp + BitVec.ofNat 32 (8 + ilen), rs := s.rs ++ wireResponse 0x00 unit op out }

/-- The state `s` before a command after `return Err(code)` (60_exceptions.md R327). -/
def State.errored (s : State) (unit op : BitVec 4) (ilen : Nat) (code : BitVec 8) : State :=
  { s with lasterr := code, cp := s.cp + BitVec.ofNat 32 (8 + ilen), rs := s.rs ++ wireResponse code unit op [] }

/-- The state `s` before a command after `raise Fatal(code)` (60_exceptions.md R326). -/
def State.haltedBy (s : State) (unit op : BitVec 4) (code : BitVec 8) : State :=
  { s with fatal := true, fcode := code, funit := unit, fop := op, fcp := s.cp,
           rs := s.rs ++ wireResponse code unit op [], run := .halted }

/-! ## Invariants between commands -/

/-- The command stream meets the launch premise (20_memory.md R71). -/
abbrev Memory.wf (cs : Bytes) : Prop := cs.length < 2 ^ 32

/-- The command stream as (address, byte) pairs. -/
def Memory.cells (cs : Bytes) : List Host.Cell :=
  (List.range cs.length).zip cs

/-- The engine registers (10_state.md R32, 60_exceptions.md R326, R327): the launch premise; `cp` within the stream;
`FATAL` exactly when `HALTED`; the fault registers zero before a fatal error, and after it `FCP = cp` and a class-1
code; `DONE` only at the end of the stream; `LASTERR` zero or a class-2 code. -/
abbrev State.EngineInv (s : State) : Prop :=
  Memory.wf s.cs ∧ s.cp.toNat ≤ s.cs.length ∧
  (s.run = .halted ↔ s.fatal = true) ∧
  (s.fatal = false → s.fcode = 0 ∧ s.funit = 0 ∧ s.fop = 0 ∧ s.fcp = 0) ∧
  (s.fatal = true → s.fcp = s.cp ∧ 0x80 ≤ s.fcode.toNat ∧ s.fcode.toNat ≤ 0x89) ∧
  (s.run = .done → s.cp.toNat = s.cs.length) ∧
  (s.lasterr = 0 ∨ 0x10 ≤ s.lasterr.toNat ∧ s.lasterr.toNat ≤ 0x18)

/-- A mode context of kind `k` between commands (10_state.md R36): widths and ranges of the counts; fields the kind does
not use at their reset value; nothing latched before the first `INIT`. -/
abbrev ModeCtx.Inv (k : Kind) (m : ModeCtx) : Prop :=
  1 ≤ m.fbb ∧ m.fbb ≤ 16 ∧ (m.inited = false → m = { ModeCtx.reset with fbb := m.fbb }) ∧
  (m.inited = true → m.keyed = true) ∧
  (k = .ecb → m.iv = 0 ∧ m.n = 0 ∧ m.r = 0 ∧ m.ks = 0 ∧ m.cur = 0 ∧ m.fb = 0 ∧ m.fbb = 16) ∧
  (k = .cbc → m.n = 0 ∧ m.ks = 0 ∧ m.cur = 0 ∧ m.fb = 0 ∧ m.fbb = 16) ∧
  (k = .cfb ∨ k = .ofb → m.n = 0 ∧ m.cur < m.fbb) ∧
  (k = .ctr → m.cur < 16 ∧ m.fb = 0 ∧ m.fbb = 16 ∧ (m.inited = true → 8 ≤ m.n ∧ m.n ≤ 16))

/-- All five mode units. -/
abbrev State.ModesInv (s : State) : Prop :=
  s.ecb.Inv .ecb ∧ s.cbc.Inv .cbc ∧ s.cfb.Inv .cfb ∧ s.ofb.Inv .ofb ∧ s.ctr.Inv .ctr

/-- The GCM state between commands (10_state.md R42, 45_gcm.md R220, R240): all zero outside a session; partial buffers
shorter than a block; the tag size in range; associated data closed once started; the two directions keep apart; the
running counter is `J0` incremented once per block, and the block limit holds. -/
abbrev Gcm.Inv (g : Gcm) : Prop :=
  (g.inited = false → g = Gcm.reset) ∧
  (g.inited = true → 4 ≤ g.macb ∧ g.macb ≤ 16 ∧ g.h = bcEnc g.key 0) ∧
  g.atbuf.length ≤ 15 ∧ g.pbuf.length ≤ 15 ∧
  (g.started = true → g.atbuf = []) ∧
  (g.started = false → g.pbuf = [] ∧ g.dbuf = [] ∧ g.totlen = 0 ∧ g.s = 0) ∧
  (g.dir = true → g.dbuf = []) ∧ (g.dir = false → g.pbuf = [] ∧ g.totlen = 0) ∧
  g.totlen.toNat % 16 = 0 ∧ g.ctrb = inc32^[g.totlen.toNat / 16] g.j0 ∧
  (g.totlen.toNat + g.pbuf.length + 15) / 16 ≤ gcmBlkMax ∧ (g.dbuf.length + 15) / 16 ≤ gcmBlkMax

/-- The BPC state between commands (10_state.md R46): all at reset before construction; else the private context meets
its kind's invariant at a block boundary, the buffer holds at most one block, and the flags agree. -/
abbrev Bpc.Inv (b : Bpc) : Prop :=
  (b.mode = none → b = Bpc.reset) ∧
  ∀ k, b.mode = some k →
    b.m.Inv k ∧ b.m.cur = 0 ∧ b.buf.length ≤ mbs k b.m ∧ b.inited = b.m.inited ∧
    (b.inited = false → b.buf = [] ∧ b.dir = false ∧ b.finished = false) ∧
    (b.inited = true → b.dir = b.m.dir) ∧ (b.finished = true → b.buf = [])

/-- The HMAC state between commands (10_state.md R49): all at reset before a key is set; else both pads have `BL` bytes,
the outer pad is the inner pad with the two constants exchanged, and the digest has absorbed the inner pad first. -/
abbrev Hmac.Inv (hm : Hmac) : Prop :=
  (hm.inited = false → hm = Hmac.reset) ∧
  (hm.inited = true → hm.ipad.length = hmacBl ∧ hm.opad = hm.ipad.map (fun b => b ^^^ hmacIpad ^^^ hmacOpad) ∧
    hm.ipad <+: hm.dg)

/-- The KMAC state between commands (10_state.md R52, 48_kmac.md R300): all but the MAC size at reset before a key is
set, and the generator always at position 0. -/
abbrev Kmac.Inv (km : Kmac) : Prop :=
  (km.inited = false → km = { Kmac.reset with macbits := km.macbits }) ∧ km.pos = 0

/-- Every buffer is within its capacity (10_state.md R33, R42, R49, R52; D43). -/
abbrev State.CapacityInv (s : State) : Prop :=
  fits s.params.capP s.p.key.length = true ∧ fits s.params.capP s.p.iv.length = true ∧
  fits s.params.capP s.p.aad.length = true ∧ fits s.params.capDbuf s.g.dbuf.length = true ∧
  (s.hm.inited = true → fits s.params.capMsg s.hm.dg.length = true) ∧
  fits s.params.capMsg s.km.msg.length = true

/-- Every unit's invariant together. -/
abbrev State.Inv (s : State) : Prop :=
  s.EngineInv ∧ s.ModesInv ∧ s.g.Inv ∧ s.b.Inv ∧ s.hm.Inv ∧ s.km.Inv ∧ s.CapacityInv

/-! ## What a command may touch and see -/

/-- Every unit but `u` is as before, the staged parameters too unless `u` is SYS, and `CS` and the open constants
(00_scope.md R3, R5; 10_state.md R33; 20_memory.md R70). -/
abbrev OnlyUnitChanged (u : BitVec 4) (s t : State) : Prop :=
  t.cs = s.cs ∧ t.params = s.params ∧ (u ≠ 0 → t.p = s.p) ∧ (u ≠ 2 → t.ecb = s.ecb) ∧ (u ≠ 3 → t.cbc = s.cbc) ∧
  (u ≠ 4 → t.cfb = s.cfb) ∧ (u ≠ 5 → t.ofb = s.ofb) ∧ (u ≠ 6 → t.ctr = s.ctr) ∧ (u ≠ 7 → t.g = s.g) ∧
  (u ≠ 8 → t.b = s.b) ∧ (u ≠ 9 → t.hm = s.hm) ∧ (u ≠ 10 → t.km = s.km)

/-- The engine registers and the response stream are as before (10_state.md R32). -/
abbrev SameEngine (s t : State) : Prop :=
  t.cp = s.cp ∧ t.run = s.run ∧ t.fatal = s.fatal ∧ t.fcode = s.fcode ∧ t.funit = s.funit ∧ t.fop = s.fop ∧
  t.fcp = s.fcp ∧ t.lasterr = s.lasterr ∧ t.rs = s.rs

/-- Two states agree on what a command of unit `u` may see: the open constants, the staged parameters, and the unit's
own state (00_scope.md R5). -/
abbrev SameView (u : BitVec 4) (s t : State) : Prop :=
  t.params = s.params ∧ t.p = s.p ∧ (u = 2 → t.ecb = s.ecb) ∧ (u = 3 → t.cbc = s.cbc) ∧
  (u = 4 → t.cfb = s.cfb) ∧ (u = 5 → t.ofb = s.ofb) ∧ (u = 6 → t.ctr = s.ctr) ∧ (u = 7 → t.g = s.g) ∧
  (u = 8 → t.b = s.b) ∧ (u = 9 → t.hm = s.hm) ∧ (u = 10 → t.km = s.km)

/-! ## The opcode map, as the spec tabulates it -/

/-- The table of 30_encoding.md R101: for every command the `match` and `mask` columns over the 64-bit word. -/
def opcodeMap : List (BitVec 64 × BitVec 64) :=
  -- SYS
  [(0x0000000000000000, 0xffffffffff000000), (0x0100000000000000, 0xffff000000000000),
   (0x0200000000000000, 0xffffffffff000000), (0x0300000000000000, 0xffff000000000000),
   (0x0400000000000000, 0xffffffffff000000), (0x0500000000000000, 0xffff000000000000),
   (0x0600000000000000, 0xffffffffff000000), (0x0700000000000000, 0xffffffffff000000),
   (0x0800000000000000, 0xffffffffff000000), (0x0900000000000000, 0xffffffffff000000)] ++
  -- GF
  [(0x1000000000000000, 0xffff000000000000), (0x1100000000000000, 0xffff000000000000),
   (0x1200000000000000, 0xffff000000000000)] ++
  -- ECB
  [(0x2000000000000000, 0xffffffffff000000), (0x2100000000000000, 0xfff8ffffff000000),
   (0x2200000000000000, 0xffffffffff000000), (0x2300000000000000, 0xffff000000000000)] ++
  -- CBC
  [(0x3000000000000000, 0xffffffffff000000), (0x3100000000000000, 0xfff8ffffff000000),
   (0x3200000000000000, 0xffffffffff000000), (0x3300000000000000, 0xffff000000000000)] ++
  -- CFB
  [(0x4000000000000000, 0xffffffffff000000), (0x4100000000000000, 0xfff8ffffff000000),
   (0x4200000000000000, 0xffffffffff000000), (0x4300000000000000, 0xffff000000000000),
   (0x4400000000000000, 0xffff000000000000)] ++
  -- OFB
  [(0x5000000000000000, 0xffffffffff000000), (0x5100000000000000, 0xfff8ffffff000000),
   (0x5200000000000000, 0xffffffffff000000), (0x5300000000000000, 0xffff000000000000),
   (0x5400000000000000, 0xffff000000000000)] ++
  -- CTR
  [(0x6000000000000000, 0xffffffffff000000), (0x6100000000000000, 0xfff8ffffff000000),
   (0x6200000000000000, 0xffffffffff000000), (0x6300000000000000, 0xffff000000000000),
   (0x6400000000000000, 0xffff000000000000)] ++
  -- GCM
  [(0x7000000000000000, 0xffffffffff000000), (0x7100000000000000, 0xfff8ffffff000000),
   (0x7200000000000000, 0xffffffffff000000), (0x7400000000000000, 0xffff000000000000),
   (0x7500000000000000, 0xffff000000000000), (0x7600000000000000, 0xffffffffff000000),
   (0x7700000008000000, 0xffffffffff000000)] ++
  -- BPC
  [(0x8000000000000000, 0xfff8ffffff000000), (0x8100000000000000, 0xfff8ffffff000000),
   (0x8200000000000000, 0xffffffffff000000), (0x8400000000000000, 0xffff000000000000),
   (0x8600000000000000, 0xffffffffff000000), (0x8700000008000000, 0xffffffffff000000)] ++
  -- HMAC
  [(0x9000000000000000, 0xffffffffff000000), (0x9100000000000000, 0xfff8ffffff000000),
   (0x9200000000000000, 0xffffffffff000000), (0x9400000000000000, 0xffff000000000000),
   (0x9600000000000000, 0xffffffffff000000)] ++
  -- KMAC
  [(0xa000000000000000, 0xffffffffff000000), (0xa100000000000000, 0xfff8ffffff000000),
   (0xa200000000000000, 0xffffffffff000000), (0xa400000000000000, 0xffff000000000000),
   (0xa600000000000000, 0xffffffffff000000)]

/-- A command word selects a row when `w & mask = match`, and for BPC.CFG also `KIND` is 1 to 5 (30_encoding.md R101). -/
abbrev SelectsRow (w : BitVec 64) (r : BitVec 64 × BitVec 64) : Prop :=
  w &&& r.2 = r.1 ∧
    (r.1 = 0x8000000000000000 → 1 ≤ (w.extractLsb' 48 3).toNat ∧ (w.extractLsb' 48 3).toNat ≤ 5)

/-- A word names a command (30_encoding.md R97, R101). -/
abbrev NamesCommand (w : BitVec 64) : Prop := ∃ r ∈ opcodeMap, SelectsRow w r

/-! ## The statuses of each command -/

/-- The statuses of an `INIT` of a mode context, by kind (60_exceptions.md R322). -/
def initStatuses : Kind → List (BitVec 8)
  | .ecb => [0x85, 0x89]
  | .cbc => [0x85, 0x89, 0x83, 0x86]
  | .cfb => [0x85, 0x89, 0x83]
  | .ofb => [0x85, 0x89, 0x83]
  | .ctr => [0x85, 0x83, 0x89]

/-- `E_LIMIT` where a capacity is finite (D43), nothing where it is unbounded. -/
def limitStatus (cap : Option Nat) : List (BitVec 8) :=
  match cap with
  | none => []
  | some _ => [0x17]

/-- `F_CTRDRIFT` where the private mode of BPC is counter mode (60_exceptions.md R322). -/
def driftStatus (b : Bpc) : List (BitVec 8) :=
  if b.mode = some .ctr then [0x87] else []

/-- The statuses besides `OK` that 60_exceptions.md R322 lists for a command in a state, and `E_LIMIT` where a finite
capacity can be exceeded (D43). -/
def listedStatuses (s : State) : Instr → List (BitVec 8)
  | .sysNop | .sysClrkey | .sysClriv | .sysClraad | .sysLdmac _ | .sysClrmac => []
  | .sysLdkey _ | .sysLdiv _ | .sysLdaad _ => limitStatus s.params.capP
  | .sysStatus _ | .gfXor _ _ | .gfMul _ _ | .gfGhash _ _ => [0x82]
  | .ecbCfg | .cbcCfg | .ctrCfg | .gcmCfg | .hmacCfg | .kmacCfg _ => []
  | .cfbCfg _ | .ofbCfg _ | .bpcCfg _ _ => [0x84]
  | .ecbReset | .cbcReset | .cfbReset | .ofbReset | .ctrReset | .gcmReset | .bpcReset | .hmacReset | .kmacReset => []
  | .ecbInit _ _ => initStatuses .ecb
  | .cbcInit _ _ => initStatuses .cbc
  | .cfbInit _ _ => initStatuses .cfb
  | .ofbInit _ _ => initStatuses .ofb
  | .ctrInit _ _ => initStatuses .ctr
  | .ecbBlock _ _ | .cbcBlock _ _ | .cfbBlock _ _ | .ofbBlock _ _ => [0x82, 0x10]
  | .cfbBytes _ _ | .ofbBytes _ _ => [0x82, 0x10]
  | .ctrBlock _ _ | .ctrBytes _ _ => [0x82, 0x10, 0x87]
  | .gcmInit _ _ => [0x85, 0x89, 0x83, 0x88]
  | .gcmAad _ => [0x10, 0x16]
  | .gcmBytes _ _ => [0x10, 0x82, 0x17]
  | .gcmFinal _ => if s.g.dir then [0x10, 0x11] else [0x10, 0x15, 0x11, 0x12]
  | .gcmOsize _ _ | .bpcOsize _ _ => [0x82, 0x10]
  | .bpcInit _ _ =>
    match s.b.mode with
    | none => [0x10]
    | some k => initStatuses k
  | .bpcBytes _ _ => [0x10, 0x82] ++ driftStatus s.b
  | .bpcFinal _ => (if s.b.dir then [0x10, 0x11] else [0x10, 0x14, 0x13, 0x11]) ++ driftStatus s.b
  | .hmacInit _ _ => [0x85, 0x89] ++ limitStatus s.params.capMsg
  | .hmacUpdate _ | .kmacUpdate _ => [0x10] ++ limitStatus s.params.capMsg
  | .hmacFinal _ | .kmacFinal _ => [0x10, 0x11]
  | .kmacInit _ _ => [0x85, 0x89, 0x83, 0x18]

/-- `OCAP` of a command whose low 24 bits are `OCAP`, none where they are an immediate or ignored (R101). -/
def ocapOf : Instr → Option (BitVec 24)
  | .sysStatus o | .gfXor _ o | .gfMul _ o | .gfGhash _ o => some o
  | .ecbBlock _ o | .cbcBlock _ o | .cfbBlock _ o | .cfbBytes _ o | .ofbBlock _ o | .ofbBytes _ o => some o
  | .ctrBlock _ o | .ctrBytes _ o | .gcmBytes _ o | .gcmFinal o | .gcmOsize _ o => some o
  | .bpcBytes _ o | .bpcFinal o | .bpcOsize _ o | .hmacFinal o | .kmacFinal o => some o
  | .sysNop | .sysLdkey _ | .sysClrkey | .sysLdiv _ | .sysClriv | .sysLdaad _ | .sysClraad | .sysLdmac _ => none
  | .sysClrmac | .ecbCfg | .ecbInit _ _ | .ecbReset | .cbcCfg | .cbcInit _ _ | .cbcReset | .cfbCfg _ => none
  | .cfbInit _ _ | .cfbReset | .ofbCfg _ | .ofbInit _ _ | .ofbReset | .ctrCfg | .ctrInit _ _ | .ctrReset => none
  | .gcmCfg | .gcmInit _ _ | .gcmReset | .gcmAad _ | .bpcCfg _ _ | .bpcInit _ _ | .bpcReset => none
  | .hmacCfg | .hmacInit _ _ | .hmacReset | .hmacUpdate _ => none
  | .kmacCfg _ | .kmacInit _ _ | .kmacReset | .kmacUpdate _ => none

/-- `IMM` of a command whose low 24 bits are an immediate, none elsewhere (30_encoding.md R90, R101). -/
def immOf : Instr → Option (BitVec 24)
  | .sysLdmac m | .cfbCfg m | .ofbCfg m | .kmacCfg m => some m
  | .bpcCfg _ m => some m
  | .sysNop | .sysLdkey _ | .sysClrkey | .sysLdiv _ | .sysClriv | .sysLdaad _ | .sysClraad | .sysClrmac => none
  | .sysStatus _ | .gfXor _ _ | .gfMul _ _ | .gfGhash _ _ | .ecbCfg | .ecbInit _ _ | .ecbReset | .ecbBlock _ _ => none
  | .cbcCfg | .cbcInit _ _ | .cbcReset | .cbcBlock _ _ | .cfbInit _ _ | .cfbReset | .cfbBlock _ _ => none
  | .cfbBytes _ _ | .ofbInit _ _ | .ofbReset | .ofbBlock _ _ | .ofbBytes _ _ | .ctrCfg | .ctrInit _ _ => none
  | .ctrReset | .ctrBlock _ _ | .ctrBytes _ _ | .gcmCfg | .gcmInit _ _ | .gcmReset | .gcmBytes _ _ | .gcmAad _ => none
  | .gcmFinal _ | .gcmOsize _ _ | .bpcInit _ _ | .bpcReset | .bpcBytes _ _ | .bpcFinal _ | .bpcOsize _ _ => none
  | .hmacCfg | .hmacInit _ _ | .hmacReset | .hmacUpdate _ | .hmacFinal _ | .kmacInit _ _ | .kmacReset => none
  | .kmacUpdate _ | .kmacFinal _ => none

/-- Whether a command reads its low 24 bits, as `OCAP` or as `IMM`; elsewhere they are don't-care bits (R99, R101). -/
def readsLow (i : Instr) : Bool :=
  (ocapOf i).isSome || (immOf i).isSome

/-! ## Counter mode over a whole byte sequence -/

/-- The counter of keystream block number `j`, counted from the block the cursor of `m` stands in: the register plus `j`,
and one more where a block is still to be opened and the increment comes first (44_ctr.md R201, R204). -/
def ctrCounter (order : CtrOrder) (m : ModeCtx) (j : Nat) : Block :=
  m.r + BitVec.ofNat 128 (j + if m.cur = 0 ∧ order = .incFirst then 1 else 0)

/-- Keystream block `j` is opened while `len` bytes are processed; with the cursor inside a block, block 0 is open
already (44_ctr.md R204). -/
abbrev CtrOpens (m : ModeCtx) (len j : Nat) : Prop :=
  (m.cur ≠ 0 → 1 ≤ j) ∧ 16 * j < m.cur + len

/-- The drift check fails for some block opened while `len` bytes are processed: there are free counter bytes, and the
nonce bytes of the block's counter differ from the nonce (44_ctr.md R203). -/
abbrev CtrDrifts (order : CtrOrder) (m : ModeCtx) (len : Nat) : Prop :=
  m.n < 16 ∧ ∃ j, CtrOpens m len j ∧ (bytesOfBlock (ctrCounter order m j)).take m.n ≠ (bytesOfBlock m.iv).take m.n

/-- The output for the bytes `d`: byte `i` is XORed with the keystream byte under the cursor, from the open block while it
lasts and then from the encrypted counters (44_ctr.md R204). -/
def ctrCrypt (order : CtrOrder) (m : ModeCtx) (d : Bytes) : Bytes :=
  (List.range d.length).map fun i =>
    d.getD i 0 ^^^
      blockByte (if m.cur ≠ 0 ∧ m.cur + i < 16 then m.ks else bcEnc m.key (ctrCounter order m ((m.cur + i) / 16)))
        ((m.cur + i) % 16)

/-- The context after `len` bytes without drift: the register has advanced once for each block opened (`INC_FIRST`) or
used up (`ENC_FIRST`), the keystream block is the last one opened, the cursor has moved on (44_ctr.md R204). -/
def ctrAfter (order : CtrOrder) (m : ModeCtx) (len : Nat) : ModeCtx :=
  { m with
    r := m.r + BitVec.ofNat 128
      (if order = .incFirst then (m.cur + len + 15) / 16 - (m.cur + 15) / 16 else (m.cur + len) / 16)
    ks := if len = 0 ∨ m.cur ≠ 0 ∧ m.cur + len ≤ 16 then m.ks
          else bcEnc m.key (ctrCounter order m ((m.cur + len - 1) / 16))
    cur := (m.cur + len) % 16 }

/-! ## The authenticated cipher of one GCM session, as one function of the whole message -/

/-- `E(K, Inc32^(k+1)(J0))` over the bytes of a message: byte `i` is XORed with byte `i mod 16` of block `i / 16`
(45_gcm.md R221, R225). -/
def gcmCrypt (key : Bytes) (j0 : Block) (p : Bytes) : Bytes :=
  (List.range p.length).map fun i => p.getD i 0 ^^^ blockByte (bcEnc key (inc32^[i / 16 + 1] j0)) (i % 16)

/-- The tag over the whole associated data and ciphertext (45_gcm.md R227, R237). -/
def gcmAuth (key : Bytes) (h j0 : Block) (macb : Nat) (aad ct : Bytes) : Bytes :=
  (bytesOfBlock (bcEnc key j0 ^^^ gfMul (ghash (ghash 0 aad h) ct h ^^^ lenBlock aad.length ct.length) h)).take macb

/-- The wire output `ciphertext ‖ tag` of a whole message (20_memory.md R73, 45_gcm.md R236). -/
def gcmSeal (key : Bytes) (h j0 : Block) (macb : Nat) (aad p : Bytes) : Bytes :=
  gcmCrypt key j0 p ++ gcmAuth key h j0 macb aad (gcmCrypt key j0 p)

/-- A session just opened by `GCM.INIT`, with no associated data yet (45_gcm.md R229). -/
abbrev Gcm.Fresh (g : Gcm) : Prop :=
  g.inited = true ∧ g.started = false ∧ g.s = 0 ∧ g.sat = 0 ∧ g.atbuf = [] ∧ g.atlen = 0 ∧ g.pbuf = [] ∧
  g.totlen = 0 ∧ g.dbuf = [] ∧ g.ctrb = g.j0 ∧ g.macb ≤ 16

/-! ## Runs of several commands -/

/-- Execute commands one after another; none if one of them does not answer a next state. -/
def execAll : List Instr → State → Option State
  | [], s => some s
  | i :: rest, s =>
    match exec i s with
    | .next t => execAll rest t
    | .fault _ => none
    | .refused _ => none

/-- The response to the command `i` that takes `s` to `t` is `OK` with output `out` (R96). -/
def AnswersOk (i : Instr) (s t : State) (out : Bytes) : Prop :=
  exec i s = .next t ∧ t.rs = s.rs ++ wireResponse 0x00 i.unit i.op out

end Sys2Proof.Machine
end

