-- ==== Sys2Proof/Certificates/Slice0/Obligations.lean ====
section
/-! DEFINITION. The statements for the provers, in the order of OBLIGATIONS.json: encoding, step, ends of a command,
the commands unit by unit, properties of whole messages, reset and invariants. -/

section Statements

open Sys2Proof Sys2Proof.Machine Sys2Proof.Config

/-! ## Encoding -/

/-- 30_encoding.md R90, R93 to R95, R101: decoding the packet of a well-formed command gives the command back, whatever
bytes follow. -/
def Obligations.DecodeInvertsEncode : Prop :=
  ∀ (i : Instr) (rest : Bytes), i.WellFormed → decode (encode i ++ rest) = .ok i rest

/-- 30_encoding.md R90, R99, R100: bytes that decode are the packet of the decoded command but for the low 24 bits of a
command that reads none; its length is 8 plus bytes 2 to 4 read as `ILEN`. -/
def Obligations.DecodedBytesAreThePacket : Prop :=
  ∀ (b : Bytes) (i : Instr) (rest : Bytes), decode b = .ok i rest →
    i.WellFormed ∧ i.ilen = beNat ((b.drop 2).take 3) ∧ 8 + i.ilen ≤ b.length ∧ rest = b.drop (8 + i.ilen) ∧
    encode i = b.take 5 ++ (if readsLow i then (b.drop 5).take 3 else [0, 0, 0]) ++ (b.drop 8).take i.ilen

/-- 30_encoding.md R104: the worked encodings, and the response to the worked CBC.BLOCK. -/
def Obligations.WorkedEncodings : Prop :=
  (Instr.cbcInit true .keyIv).packet.word = 0x3103000000000000 ∧
  (∀ rest, decode ([0x31, 0x03, 0, 0, 0, 0, 0, 0] ++ rest) = .ok (.cbcInit true .keyIv) rest) ∧
  (∀ d rest, d.length = 16 → (Instr.cbcBlock d 16).packet.word = 0x3300000010000010 ∧
    decode ([0x33, 0, 0, 0, 0x10, 0, 0, 0x10] ++ d ++ rest) = .ok (.cbcBlock d 16) rest) ∧
  (∀ out : Bytes, out.length = 16 → responseWord 0x00 3 3 out.length = 0x0033000010000000 ∧
    responsePacket 0x00 3 3 out = [0x00, 0x33, 0, 0, 0x10, 0, 0, 0] ++ out) ∧
  decode [0x40, 0, 0, 0, 0, 0, 0, 0x08] = .ok (.cfbCfg 8) [] ∧
  decode [0x80, 0x02, 0, 0, 0, 0, 0, 0] = .ok (.bpcCfg .cbc 0) [] ∧
  decode [0x77, 0, 0, 0, 0x08, 0, 0, 0x08, 0, 0, 0, 0, 0, 0, 0, 0x05] = .ok (.gcmOsize 5 8) []

/-- 30_encoding.md R91, R92, R99, R101: a word selects at most one row of the opcode map; a word that selects a row is a
command once its payload is there; any other word is illegal, whatever follows. -/
def Obligations.OpcodeMapDecidesWhichWordsAreLegal : Prop :=
  opcodeMap.length = 59 ∧
  (∀ w, ∀ r ∈ opcodeMap, ∀ q ∈ opcodeMap, SelectsRow w r → SelectsRow w q → r = q) ∧
  (∀ (w : BitVec 64) (tail : Bytes), NamesCommand w → (w.extractLsb' 24 24).toNat ≤ tail.length →
    ∃ i, decodeWord w tail = .ok i (tail.drop (w.extractLsb' 24 24).toNat)) ∧
  (∀ (w : BitVec 64) (tail : Bytes), ¬ NamesCommand w →
    ∃ e, decodeWord w tail = .bad e ∧ (decodeFatal e).code = 0x80 ∧ decodeErrorUnit e = w.extractLsb' 60 4 ∧
      decodeErrorOp e = w.extractLsb' 56 4)

/-! ## One step -/

/-- 30_encoding.md R97: when the bytes at `cp` decode to a command, the step is that command's meaning and nothing else. -/
def Obligations.StepRunsTheDecodedCommand : Prop :=
  ∀ (s : State) (i : Instr) (rest : Bytes), s.run = .running → decode (s.cs.drop s.cp.toNat) = .ok i rest →
    step s = exec i s

/-- 30_encoding.md R97: every case of a step of a running engine, in the order of the rule's checks. -/
def Obligations.FetchRule : Prop :=
  ∀ s : State, s.run = .running →
    let b := s.cs.drop s.cp.toNat
    let w := BitVec.ofNat 64 (beNat (b.take 8))
    (s.cp.toNat = s.cs.length → step s = .next { s with run := .done }) ∧
    (s.cp.toNat < s.cs.length →
      (b.length < 8 → step s = .next (s.haltedBy 0 0 0x81)) ∧
      (8 ≤ b.length → ¬ NamesCommand w →
        step s = .next (s.haltedBy (w.extractLsb' 60 4) (w.extractLsb' 56 4) 0x80)) ∧
      (8 ≤ b.length → NamesCommand w → b.length - 8 < (w.extractLsb' 24 24).toNat →
        step s = .next (s.haltedBy (w.extractLsb' 60 4) (w.extractLsb' 56 4) 0x81)) ∧
      (8 ≤ b.length → NamesCommand w → (w.extractLsb' 24 24).toNat ≤ b.length - 8 →
        ∃ i, decode b = .ok i (b.drop (8 + (w.extractLsb' 24 24).toNat)) ∧ step s = exec i s))

/-- 30_encoding.md R97, R100, 60_exceptions.md R326: an engine that is `DONE` or `HALTED` makes no step. That the model
answers with a fault there is the model's choice (notes/assumptions 5). -/
def Obligations.StoppedEngineMakesNoStep : Prop :=
  ∀ s : State, (s.run = .done → step s = .fault .done) ∧ (s.run = .halted → step s = .fault .halted)

/-- 20_memory.md R72: `RS` is empty after reset; a step appends exactly one response packet, none when the run ends; and
what `RS` holds makes no difference to a step. -/
def Obligations.OneResponsePerFetchedCommand : Prop :=
  State.reset.rs = [] ∧
  ∀ s t : State, step s = .next t →
    (s.cp.toNat = s.cs.length → t.rs = s.rs) ∧
    (s.cp.toNat ≠ s.cs.length → ∃ status unit op out, t.rs = s.rs ++ wireResponse status unit op out) ∧
    ∀ old, step { s with rs := old ++ s.rs } = .next { t with rs := old ++ t.rs }

/-- 20_memory.md R71, R82: a step reads only the bytes of the packet it fetches; bytes before it and after it make no
difference, and the stream itself is left alone. -/
def Obligations.OtherBytesOfTheStreamDoNotMatter : Prop :=
  ∀ (s t : State) (i : Instr) (rest cs : Bytes), s.run = .running → decode (s.cs.drop s.cp.toNat) = .ok i rest →
    (∀ j, j < 8 + i.ilen → cs[s.cp.toNat + j]? = s.cs[s.cp.toNat + j]?) →
    step s = .next t → t.cs = s.cs ∧ step { s with cs := cs } = .next { t with cs := cs }

/-! ## How a command ends -/

/-- 00_scope.md R21, 30_encoding.md R98, 60_exceptions.md R320, R322, R326, R327: a command completes, or takes a class-2
error, or takes a class-1 error; an error leaves every unit and `P` as before, and is one that R322 lists for the
command. The one exception is `E_LIMIT` of SYS.LDKEY, SYS.LDIV, SYS.LDAAD, HMAC.INIT, HMAC.UPDATE and KMAC.UPDATE where a
capacity is finite, which R322 does not list and which is the model's choice (D43, notes/assumptions 4). -/
def Obligations.EveryCommandEndsInOneOfThreeWays : Prop :=
  ∀ (i : Instr) (s : State),
    (∃ u out, OnlyUnitChanged i.unit s u ∧ SameEngine s u ∧ exec i s = .next (u.completed i.unit i.op i.ilen out)) ∨
    (∃ c ∈ listedStatuses s i, 0x10 ≤ c.toNat ∧ c.toNat ≤ 0x18 ∧
      exec i s = .next (s.errored i.unit i.op i.ilen c)) ∨
    (∃ c ∈ listedStatuses s i, 0x80 ≤ c.toNat ∧ c.toNat ≤ 0x89 ∧ exec i s = .next (s.haltedBy i.unit i.op c))

/-- 30_encoding.md R96: a command whose low 24 bits are `OCAP` never answers more bytes than that. -/
def Obligations.OutputFitsTheCallersBuffer : Prop :=
  ∀ (i : Instr) (s t : State) (out : Bytes) (o : BitVec 24), s.b.Inv → ocapOf i = some o → AnswersOk i s t out →
    out.length ≤ o.toNat

/-- 00_scope.md R3, R5, 10_state.md R34: what a command answers and what it writes depend on the staged parameters and
its own unit alone. SYS.STATUS, which reads every unit's `INITED` bit and `LASTERR`, is the one exception. -/
def Obligations.CommandSeesOnlyItsUnit : Prop :=
  ∀ (i : Instr) (s t s' t' : State), (∀ o, i ≠ .sysStatus o) → SameView i.unit s t →
    exec i s = .next s' → exec i t = .next t' →
    SameView i.unit s' t' ∧ s'.cp - s.cp = t'.cp - t.cp ∧ (s.run = t.run → s'.run = t'.run) ∧
    ∃ answer, s'.rs = s.rs ++ answer ∧ t'.rs = t.rs ++ answer

/-! ## Unit SYS -/

/-- 40_sys.md R121 to R129: SYS.NOP only answers; a loading command stages one parameter, a clearing command un-stages
one, and the others stay. Beyond a finite `CAP_P` the model answers `E_LIMIT`, which is the model's choice (D43,
notes/assumptions 4). -/
def Obligations.StagingCommandsSetOneParameter : Prop :=
  ∀ (d : Bytes) (m : BitVec 24) (s : State),
    exec .sysNop s = .next (s.completed 0 0 0 []) ∧
    exec (.sysLdkey d) s = .next
      (if fits s.params.capP d.length then (s.withP { s.p with key := d, keyv := true }).completed 0 1 d.length []
       else s.errored 0 1 d.length 0x17) ∧
    exec .sysClrkey s = .next ((s.withP { s.p with key := [], keyv := false }).completed 0 2 0 []) ∧
    exec (.sysLdiv d) s = .next
      (if fits s.params.capP d.length then (s.withP { s.p with iv := d, ivv := true }).completed 0 3 d.length []
       else s.errored 0 3 d.length 0x17) ∧
    exec .sysClriv s = .next ((s.withP { s.p with iv := [], ivv := false }).completed 0 4 0 []) ∧
    exec (.sysLdaad d) s = .next
      (if fits s.params.capP d.length then (s.withP { s.p with aad := d, aadv := true }).completed 0 5 d.length []
       else s.errored 0 5 d.length 0x17) ∧
    exec .sysClraad s = .next ((s.withP { s.p with aad := [], aadv := false }).completed 0 6 0 []) ∧
    exec (.sysLdmac m) s = .next ((s.withP { s.p with mac := m, macv := true }).completed 0 7 0 []) ∧
    exec .sysClrmac s = .next ((s.withP { s.p with mac := 0, macv := false }).completed 0 8 0 [])

/-- 40_sys.md R130: SYS.STATUS answers `LASTERR`, the sixteen `INITED` bits and the revision, and writes nothing. -/
def Obligations.StatusReadsTheFlags : Prop :=
  ∀ (o : BitVec 24) (s : State),
    (o.toNat < 4 → exec (.sysStatus o) s = .next (s.haltedBy 0 9 0x82)) ∧
    (4 ≤ o.toNat → ∃ bm : BitVec 16,
      bm.getLsbD 0 = false ∧ bm.getLsbD 1 = false ∧ bm.getLsbD 2 = s.ecb.inited ∧ bm.getLsbD 3 = s.cbc.inited ∧
      bm.getLsbD 4 = s.cfb.inited ∧ bm.getLsbD 5 = s.ofb.inited ∧ bm.getLsbD 6 = s.ctr.inited ∧
      bm.getLsbD 7 = s.g.inited ∧ bm.getLsbD 8 = s.b.inited ∧ bm.getLsbD 9 = s.hm.inited ∧
      bm.getLsbD 10 = s.km.inited ∧ (∀ j, 11 ≤ j → bm.getLsbD j = false) ∧
      exec (.sysStatus o) s =
        .next (s.completed 0 9 0 [s.lasterr, bm.extractLsb' 8 8, bm.extractLsb' 0 8, 0x01]))

/-! ## Unit GF -/

/-- 41_gf128.md R147, R148, R149: the three commands of the unit, which write no state. -/
def Obligations.FieldCommandsAnswerTheFunctions : Prop :=
  ∀ (d : Bytes) (o : BitVec 24) (s : State),
    exec (.gfXor d o) s = .next
      (if d.length ≠ 32 ∨ o.toNat < 16 then s.haltedBy 1 0 0x82
       else s.completed 1 0 32 (List.zipWith (fun a b => a ^^^ b) (d.take 16) (d.drop 16))) ∧
    exec (.gfMul d o) s = .next
      (if d.length ≠ 32 ∨ o.toNat < 16 then s.haltedBy 1 1 0x82
       else s.completed 1 1 32 (bytesOfBlock (gfMul (blockOfBytes (d.take 16)) (blockOfBytes (d.drop 16))))) ∧
    exec (.gfGhash d o) s = .next
      (if d.length < 32 ∨ o.toNat < 16 then s.haltedBy 1 2 0x82
       else s.completed 1 2 d.length
         (bytesOfBlock (ghash (blockOfBytes ((d.drop 16).take 16)) (d.drop 32) (blockOfBytes (d.take 16)))))

/-- 41_gf128.md R140, R141, R143: read as polynomials over GF(2), bit `i` the coefficient of `x^i`, the multiplier's
result is the product modulo `x^128 + x^7 + x^2 + x + 1`. -/
def Obligations.MultiplierIsThePolynomialProduct : Prop :=
  let poly : Block → Polynomial (ZMod 2) := fun a =>
    ∑ i ∈ Finset.range 128, if a.getLsbD (8 * (15 - i / 8) + (7 - i % 8)) then Polynomial.X ^ i else 0
  ∀ x y : Block,
    (Polynomial.X ^ 128 + Polynomial.X ^ 7 + Polynomial.X ^ 2 + Polynomial.X + 1) ∣ (poly (gfMul x y) - poly x * poly y)

/-- 41_gf128.md R144: the laws of the multiplier and its spot values. -/
def Obligations.MultiplierLaws : Prop :=
  (∀ x y, gfMul x y = gfMul y x) ∧
  (∀ y, gfMul 0x80000000000000000000000000000000 y = y) ∧
  (∀ y, gfMul 0 y = 0) ∧
  (∀ x x' y, gfMul (x ^^^ x') y = gfMul x y ^^^ gfMul x' y) ∧
  (∀ x y w, gfMul (gfMul x y) w = gfMul x (gfMul y w)) ∧
  gfMul 0x00000000000000000000000000000001 0x40000000000000000000000000000000 = 0xe1000000000000000000000000000000 ∧
  gfMul 0x40000000000000000000000000000000 0x40000000000000000000000000000000 = 0x20000000000000000000000000000000 ∧
  gfMul 0x00000000000000000000000000000001 0x00000000000000000000000000000001 = 0xe6080000000000000000000000000003 ∧
  gfMul 0xffffffffffffffffffffffffffffffff 0xffffffffffffffffffffffffffffffff = 0xf402aaaaaaaaaaaaaaaaaaaaaaaaaaaa

/-- 41_gf128.md R145, R146: GHASH of nothing, of one block or a zero-padded part of one, and of a whole number of blocks
followed by more. -/
def Obligations.GhashFoldsOneBlockAtATime : Prop :=
  (∀ y x h, ghashBlock y x h = gfMul (y ^^^ x) h) ∧
  (∀ y h, ghash y [] h = y) ∧
  (∀ y (b : Bytes) h, 1 ≤ b.length → b.length ≤ 16 →
    ghash y b h = ghashBlock y (blockOfBytes (b ++ zeros (16 - b.length))) h) ∧
  (∀ y (a b : Bytes) h, a.length % 16 = 0 → ghash y (a ++ b) h = ghash (ghash y a h) b h)

/-! ## Construction and reset of the units -/

/-- 10_state.md R56, 42_ecb_cbc.md R163, R167, 44_ctr.md R205, 45_gcm.md R228, R230, 47_hmac.md R281: construction of a
unit without a configuration operand, and GCM.RESET, give every field of the unit its hardware-reset value. -/
def Obligations.PlainConstructionZeroesTheUnit : Prop :=
  let m : ModeCtx := { keyed := false, key := [], dir := false, inited := false, iv := 0, n := 0, r := 0, ks := 0,
                       cur := 0, fb := 0, fbb := 16 }
  let g : Gcm := { inited := false, dir := false, key := [], macb := 0, h := 0, j0 := 0, ctrb := 0, s := 0, sat := 0,
                   atbuf := [], atlen := 0, pbuf := [], totlen := 0, dbuf := [], started := false }
  ∀ s : State,
    exec .ecbCfg s = .next ((s.withEcb m).completed 2 0 0 []) ∧
    exec .cbcCfg s = .next ((s.withCbc m).completed 3 0 0 []) ∧
    exec .ctrCfg s = .next ((s.withCtr m).completed 6 0 0 []) ∧
    exec .gcmCfg s = .next ((s.withG g).completed 7 0 0 []) ∧
    exec .gcmReset s = .next ((s.withG g).completed 7 2 0 []) ∧
    exec .hmacCfg s = .next
      ((s.withHm { inited := false, ipad := [], opad := [], dg := [] }).completed 9 0 0 [])

/-- 43_cfb_ofb.md R181, R186, 46_bpc.md R261: construction with a feedback size. A size of `k` bytes, 1 to 16, is stored
and everything else is at its reset value; any other size is `F_FBSIZE`. BPC reads the size for kinds CFB and OFB only. -/
def Obligations.FeedbackSizeIsOneToSixteenBytes : Prop :=
  let fresh : Nat → ModeCtx := fun k =>
    { keyed := false, key := [], dir := false, inited := false, iv := 0, n := 0, r := 0, ks := 0, cur := 0, fb := 0,
      fbb := k }
  let wrapper : Kind → Nat → Bpc := fun kind k =>
    { mode := some kind, m := fresh k, buf := [], dir := false, inited := false, finished := false }
  ∀ (imm : BitVec 24) (s : State),
    (∀ k, 1 ≤ k → k ≤ 16 → imm.toNat = 8 * k →
      exec (.cfbCfg imm) s = .next ((s.withCfb (fresh k)).completed 4 0 0 []) ∧
      exec (.ofbCfg imm) s = .next ((s.withOfb (fresh k)).completed 5 0 0 []) ∧
      exec (.bpcCfg .cfb imm) s = .next ((s.withB (wrapper .cfb k)).completed 8 0 0 []) ∧
      exec (.bpcCfg .ofb imm) s = .next ((s.withB (wrapper .ofb k)).completed 8 0 0 [])) ∧
    ((∀ k, 1 ≤ k → k ≤ 16 → imm.toNat ≠ 8 * k) →
      exec (.cfbCfg imm) s = .next (s.haltedBy 4 0 0x84) ∧ exec (.ofbCfg imm) s = .next (s.haltedBy 5 0 0x84) ∧
      exec (.bpcCfg .cfb imm) s = .next (s.haltedBy 8 0 0x84) ∧
      exec (.bpcCfg .ofb imm) s = .next (s.haltedBy 8 0 0x84)) ∧
    (∀ kind, kind = .ecb ∨ kind = .cbc ∨ kind = .ctr →
      exec (.bpcCfg kind imm) s = .next ((s.withB (wrapper kind 16)).completed 8 0 0 []))

/-- 42_ecb_cbc.md R161, R165, R169, 43_cfb_ofb.md R183, R188, 44_ctr.md R202, R207: RESET of a mode unit that was
initialised restores the latched IV and drops the keystream; in counter mode only the nonce bytes are restored; before
any INIT it changes nothing. -/
def Obligations.ModeResetRestoresTheLatchedIv : Prop :=
  let back : ModeCtx → Block → ModeCtx := fun m r =>
    if m.inited then { m with r := r, cur := 0, ks := 0, fb := 0 } else m
  ∀ s : State,
    exec .ecbReset s = .next ((s.withEcb (back s.ecb s.ecb.r)).completed 2 2 0 []) ∧
    exec .cbcReset s = .next ((s.withCbc (back s.cbc s.cbc.iv)).completed 3 2 0 []) ∧
    exec .cfbReset s = .next ((s.withCfb (back s.cfb s.cfb.iv)).completed 4 2 0 []) ∧
    exec .ofbReset s = .next ((s.withOfb (back s.ofb s.ofb.iv)).completed 5 2 0 []) ∧
    ∃ r, (∀ j, j < 16 → blockByte r j = if j < s.ctr.n then blockByte s.ctr.iv j else blockByte s.ctr.r j) ∧
      exec .ctrReset s = .next ((s.withCtr (back s.ctr r)).completed 6 2 0 [])

/-! ## Initialisation of the mode units -/

/-- 42_ecb_cbc.md R160, R164, 44_ctr.md R206, 60_exceptions.md R324: the INIT of ECB and of CTR, check by check. -/
def Obligations.EcbAndCtrInit : Prop :=
  ∀ (dir : Bool) (t : PType) (s : State),
    exec (.ecbInit dir t) s = .next
      (if t ≠ .key then s.haltedBy 2 1 0x85
       else if s.p.keyv = false then s.haltedBy 2 1 0x89
       else if bcKeyOk s.p.key = false then s.haltedBy 2 1 0x89
       else (s.withEcb { s.ecb with keyed := true, key := s.p.key, dir := dir, inited := true, cur := 0, ks := 0,
                                    fb := 0 }).completed 2 1 0 []) ∧
    exec (.ctrInit dir t) s = .next
      (if t ≠ .keyIv then s.haltedBy 6 1 0x85
       else if s.p.ivv = false then s.haltedBy 6 1 0x83
       else if s.p.iv.length < 8 ∨ 16 < s.p.iv.length then s.haltedBy 6 1 0x83
       else if s.p.keyv = true ∧ bcKeyOk s.p.key = false then s.haltedBy 6 1 0x89
       else if s.p.keyv = false ∧ s.ctr.keyed = false then s.haltedBy 6 1 0x89
       else (s.withCtr { s.ctr with keyed := true, key := if s.p.keyv then s.p.key else s.ctr.key, dir := dir,
                                    inited := true, n := s.p.iv.length,
                                    iv := blockOfBytes (s.p.iv ++ zeros (16 - s.p.iv.length)),
                                    r := blockOfBytes (s.p.iv ++ (bytesOfBlock s.ctr.r).drop s.p.iv.length),
                                    cur := 0, ks := 0, fb := 0 }).completed 6 1 0 [])

/-- 42_ecb_cbc.md R160, R168, 60_exceptions.md R324: CBC.INIT, check by check. -/
def Obligations.CbcInit : Prop :=
  ∀ (dir : Bool) (t : PType) (s : State),
    let done : Bytes → Block → State := fun key iv =>
      (s.withCbc { s.cbc with keyed := true, key := key, dir := dir, inited := true, iv := iv, r := iv, cur := 0,
                              ks := 0, fb := 0 }).completed 3 1 0 []
    exec (.cbcInit dir t) s = .next
      (if t = .aead ∨ t = .keyRandom then s.haltedBy 3 1 0x85
       else if t = .key then
         (if s.p.keyv = false then s.haltedBy 3 1 0x89
          else if bcKeyOk s.p.key = false then s.haltedBy 3 1 0x89
          else done s.p.key 0)
       else if s.p.ivv = false then s.haltedBy 3 1 0x83
       else if s.p.iv.length ≠ 16 then s.haltedBy 3 1 0x83
       else if s.p.keyv = true then
         (if bcKeyOk s.p.key = false then s.haltedBy 3 1 0x89 else done s.p.key (blockOfBytes s.p.iv))
       else if s.cbc.keyed = false then s.haltedBy 3 1 0x89
       else if dir ≠ s.cbc.dir then s.haltedBy 3 1 0x86
       else done s.cbc.key (blockOfBytes s.p.iv))

/-- 42_ecb_cbc.md R160, 43_cfb_ofb.md R182, R187, 60_exceptions.md R324: the INIT of CFB and of OFB, check by check; an
IV-only reinit may change the direction. -/
def Obligations.CfbAndOfbInit : Prop :=
  ∀ (dir : Bool) (t : PType) (s : State),
    let latched : ModeCtx → Bytes → Block → ModeCtx := fun m key iv =>
      { m with keyed := true, key := key, dir := dir, inited := true, iv := iv, r := iv, cur := 0, ks := 0, fb := 0 }
    let rule : ModeCtx → (ModeCtx → State) → (BitVec 8 → State) → State := fun m done fatal =>
      if t = .aead ∨ t = .keyRandom then fatal 0x85
      else if t = .key then
        (if s.p.keyv = false then fatal 0x89
         else if bcKeyOk s.p.key = false then fatal 0x89
         else done (latched m s.p.key 0))
      else if s.p.ivv = false then fatal 0x83
      else if s.p.iv.length ≠ 16 then fatal 0x83
      else if s.p.keyv = true then
        (if bcKeyOk s.p.key = false then fatal 0x89 else done (latched m s.p.key (blockOfBytes s.p.iv)))
      else if m.keyed = false then fatal 0x89
      else done (latched m m.key (blockOfBytes s.p.iv))
    exec (.cfbInit dir t) s =
      .next (rule s.cfb (fun m => (s.withCfb m).completed 4 1 0 []) (s.haltedBy 4 1)) ∧
    exec (.ofbInit dir t) s =
      .next (rule s.ofb (fun m => (s.withOfb m).completed 5 1 0 []) (s.haltedBy 5 1))

/-- 42_ecb_cbc.md R160, 60_exceptions.md R324: with no key staged, a 16-byte IV staged and a key latched before, INIT
with KEY_IV completes in CBC (same direction), CFB, OFB and CTR, keeps the key and takes the IV. -/
def Obligations.IvOnlyReinitKeepsTheKey : Prop :=
  ∀ (dir : Bool) (s : State), s.p.keyv = false → s.p.ivv = true → s.p.iv.length = 16 →
    let iv := blockOfBytes s.p.iv
    let again : ModeCtx → ModeCtx := fun m =>
      { m with keyed := true, dir := dir, inited := true, iv := iv, r := iv, cur := 0, ks := 0, fb := 0 }
    (s.cbc.keyed = true → s.cbc.dir = dir →
      exec (.cbcInit dir .keyIv) s = .next ((s.withCbc (again s.cbc)).completed 3 1 0 [])) ∧
    (s.cfb.keyed = true → exec (.cfbInit dir .keyIv) s = .next ((s.withCfb (again s.cfb)).completed 4 1 0 [])) ∧
    (s.ofb.keyed = true → exec (.ofbInit dir .keyIv) s = .next ((s.withOfb (again s.ofb)).completed 5 1 0 [])) ∧
    (s.ctr.keyed = true → exec (.ctrInit dir .keyIv) s =
      .next ((s.withCtr { again s.ctr with n := 16 }).completed 6 1 0 []))

/-! ## Data commands of the mode units -/

/-- 42_ecb_cbc.md R162, R166, R170: ECB.BLOCK and CBC.BLOCK, in both directions. -/
def Obligations.EcbAndCbcBlock : Prop :=
  ∀ (d : Bytes) (o : BitVec 24) (s : State),
    let x := blockOfBytes (d.take 16)
    exec (.ecbBlock d o) s = .next
      (if d.length < 16 ∨ o.toNat < 16 then s.haltedBy 2 3 0x82
       else if s.ecb.inited = false then s.errored 2 3 d.length 0x10
       else if s.ecb.dir then s.completed 2 3 d.length (bytesOfBlock (bcEnc s.ecb.key x))
       else s.completed 2 3 d.length (bytesOfBlock (bcDec s.ecb.key x))) ∧
    exec (.cbcBlock d o) s = .next
      (if d.length < 16 ∨ o.toNat < 16 then s.haltedBy 3 3 0x82
       else if s.cbc.inited = false then s.errored 3 3 d.length 0x10
       else if s.cbc.dir then
         (s.withCbc { s.cbc with r := bcEnc s.cbc.key (s.cbc.r ^^^ x) }).completed 3 3 d.length
           (bytesOfBlock (bcEnc s.cbc.key (s.cbc.r ^^^ x)))
       else
         (s.withCbc { s.cbc with r := x }).completed 3 3 d.length (bytesOfBlock (bcDec s.cbc.key x ^^^ s.cbc.r)))

/-- 42_ecb_cbc.md R171: decrypting with CBC.BLOCK, block by block, a ciphertext in which one block `c` is replaced by
`c'` changes the output of that block and of the next one, if there is one, and of no other; and of the next one by
exactly the difference. -/
def Obligations.CbcErrorPropagationIsBounded : Prop :=
  ∀ (s : State) (before after : List Bytes) (c c' : Bytes),
    s.cbc.inited = true → s.cbc.dir = false →
    (∀ x ∈ before, x.length = 16) → (∀ x ∈ after, x.length = 16) → c.length = 16 → c'.length = 16 →
    let run : Bytes → Option State := fun y =>
      execAll ((before ++ [y] ++ after).map fun x => .cbcBlock x 16) s
    let answers : List Bytes → Bytes := fun outs => (outs.map (wireResponse 0x00 3 3)).flatten
    let next : List Bytes → List Bytes := fun outs =>
      match outs with
      | [] => []
      | b :: rest => xorBytes b (xorBytes c c') :: rest
    ∃ (t t' : State) (outs outs' : List Bytes) (a a' : Bytes),
      run c = some t ∧ run c' = some t' ∧ outs.length = before.length ∧ outs'.length = after.length ∧
      t.rs = s.rs ++ answers (outs ++ [a] ++ outs') ∧ t'.rs = s.rs ++ answers (outs ++ [a'] ++ next outs')

/-- 43_cfb_ofb.md R180: one byte step of CFB or OFB, byte by byte of every register. -/
def Obligations.FeedbackByteStep : Prop :=
  ∀ (k : Kind) (m : ModeCtx) (b : Byte), k = .cfb ∨ k = .ofb → m.fbb ≤ 16 → m.cur < m.fbb →
    let ks := if m.cur = 0 then bcEnc m.key m.r else m.ks
    let o := blockByte ks m.cur ^^^ b
    let fed := if k = .cfb then (if m.dir then o else b) else blockByte ks m.cur
    ∃ fb r,
      (∀ j, j < 16 → blockByte fb j = if j = m.cur then fed else blockByte m.fb j) ∧
      (∀ j, j < 16 → blockByte r j =
        if j < 16 - m.fbb then blockByte m.r (j + m.fbb) else blockByte fb (j - (16 - m.fbb))) ∧
      fbByteStep k m b =
        (if m.cur + 1 = m.fbb then { m with ks := ks, fb := fb, r := r, cur := 0 }
         else { m with ks := ks, fb := fb, cur := m.cur + 1 }, o)

/-- 43_cfb_ofb.md R184, R185, R189, R190, 42_ecb_cbc.md R162: BLOCK and BYTES of CFB and OFB: the buffer check, the
`INITED` check, then the byte step on the bytes in order. -/
def Obligations.FeedbackDataCommands : Prop :=
  ∀ (d : Bytes) (o : BitVec 24) (s : State),
    exec (.cfbBlock d o) s = .next
      (if d.length < s.cfb.fbb ∨ o.toNat < s.cfb.fbb then s.haltedBy 4 3 0x82
       else if s.cfb.inited = false then s.errored 4 3 d.length 0x10
       else (s.withCfb (fbBytes .cfb s.cfb (d.take s.cfb.fbb)).1).completed 4 3 d.length
         (fbBytes .cfb s.cfb (d.take s.cfb.fbb)).2) ∧
    exec (.cfbBytes d o) s = .next
      (if o.toNat < d.length then s.haltedBy 4 4 0x82
       else if s.cfb.inited = false then s.errored 4 4 d.length 0x10
       else (s.withCfb (fbBytes .cfb s.cfb d).1).completed 4 4 d.length (fbBytes .cfb s.cfb d).2) ∧
    exec (.ofbBlock d o) s = .next
      (if d.length < s.ofb.fbb ∨ o.toNat < s.ofb.fbb then s.haltedBy 5 3 0x82
       else if s.ofb.inited = false then s.errored 5 3 d.length 0x10
       else (s.withOfb (fbBytes .ofb s.ofb (d.take s.ofb.fbb)).1).completed 5 3 d.length
         (fbBytes .ofb s.ofb (d.take s.ofb.fbb)).2) ∧
    exec (.ofbBytes d o) s = .next
      (if o.toNat < d.length then s.haltedBy 5 4 0x82
       else if s.ofb.inited = false then s.errored 5 4 d.length 0x10
       else (s.withOfb (fbBytes .ofb s.ofb d).1).completed 5 4 d.length (fbBytes .ofb s.ofb d).2) ∧
    (∀ k m, fbBytes k m [] = (m, [])) ∧
    (∀ k m b rest, fbBytes k m (b :: rest) =
      ((fbBytes k (fbByteStep k m b).1 rest).1, (fbByteStep k m b).2 :: (fbBytes k (fbByteStep k m b).1 rest).2))

/-- 43_cfb_ofb.md R180, R185: what CFB encrypts, CFB decrypts from the same register, and both sides end with the same
register. -/
def Obligations.CfbDecryptsWhatItEncrypts : Prop :=
  ∀ (s t : State) (p : Bytes) (o o' : BitVec 24), s.cfb.inited = true → s.cfb.dir = true →
    t.cfb = { s.cfb with dir := false } → p.length ≤ o.toNat → p.length ≤ o'.toNat →
    ∃ u c v, AnswersOk (.cfbBytes p o) s u c ∧ AnswersOk (.cfbBytes c o') t v p ∧
      v.cfb = { u.cfb with dir := false }

/-- 43_cfb_ofb.md R180, R187, R190, R191, 44_ctr.md R204, R209: OFB and CTR are their own inverse: the answer, sent again
from the same register, gives the data back and leaves the same register; and the register OFB ends with, like its
keystream, does not depend on the data. -/
def Obligations.OfbAndCtrAreTheirOwnInverse : Prop :=
  (∀ (s t : State) (p q : Bytes) (o o' : BitVec 24), s.ofb.inited = true → t.ofb = s.ofb → q.length = p.length →
    p.length ≤ o.toNat → p.length ≤ o'.toNat →
    ∃ u c v w e, AnswersOk (.ofbBytes p o) s u c ∧ AnswersOk (.ofbBytes c o') t v p ∧
      AnswersOk (.ofbBytes q o') t w e ∧ v.ofb = u.ofb ∧ w.ofb = u.ofb ∧ xorBytes c p = xorBytes e q) ∧
  (∀ (s t u : State) (p c : Bytes) (o : BitVec 24), t.ctr = s.ctr → t.params = s.params →
    AnswersOk (.ctrBytes p o) s u c → ∃ v, AnswersOk (.ctrBytes c o) t v p ∧ v.ctr = u.ctr)

/-- 44_ctr.md R203, R204, R208, R209, 42_ecb_cbc.md R162: CTR.BLOCK and CTR.BYTES: the buffer check, the `INITED` check,
then the byte step on the bytes in order, where a drift is `F_CTRDRIFT` and discards everything. The byte step, with the
cursor inside a block and at the start of one. -/
def Obligations.CounterDataCommands : Prop :=
  (∀ (d : Bytes) (o : BitVec 24) (s : State),
    let end_ : BitVec 4 → Option (ModeCtx × Bytes) → State := fun op r =>
      match r with
      | none => s.haltedBy 6 op 0x87
      | some (m, out) => (s.withCtr m).completed 6 op d.length out
    exec (.ctrBlock d o) s = .next
      (if d.length < 16 ∨ o.toNat < 16 then s.haltedBy 6 3 0x82
       else if s.ctr.inited = false then s.errored 6 3 d.length 0x10
       else end_ 3 (ctrBytes s.params.ctrOrder s.ctr (d.take 16))) ∧
    exec (.ctrBytes d o) s = .next
      (if o.toNat < d.length then s.haltedBy 6 4 0x82
       else if s.ctr.inited = false then s.errored 6 4 d.length 0x10
       else end_ 4 (ctrBytes s.params.ctrOrder s.ctr d))) ∧
  (∀ order m, ctrBytes order m [] = some (m, [])) ∧
  (∀ order m b rest, ctrBytes order m (b :: rest) =
    match ctrByteStep order m b with
    | none => none
    | some (m1, x) =>
      match ctrBytes order m1 rest with
      | none => none
      | some (m2, xs) => some (m2, x :: xs)) ∧
  (∀ (order : CtrOrder) (m : ModeCtx) (b : Byte), m.cur ≠ 0 →
    ctrByteStep order m b = some
      (if m.cur + 1 = 16 then { m with cur := 0, r := if order = .encFirst then m.r + 1 else m.r }
       else { m with cur := m.cur + 1 }, blockByte m.ks m.cur ^^^ b)) ∧
  (∀ (order : CtrOrder) (m : ModeCtx) (b : Byte), m.cur = 0 →
    let r := if order = .incFirst then m.r + 1 else m.r
    ctrByteStep order m b =
      if m.n < 16 ∧ (bytesOfBlock r).take m.n ≠ (bytesOfBlock m.iv).take m.n then none
      else some ({ m with r := r, ks := bcEnc m.key r, cur := 1 }, blockByte (bcEnc m.key r) 0 ^^^ b))

/-- 44_ctr.md R201, R203, R204, R208, R209: from any cursor, CTR.BYTES halts with `F_CTRDRIFT` exactly when a block it
opens has a counter with changed nonce bytes; else it XORs each byte with the keystream byte under the cursor, from
consecutive encrypted counters, in the order the machine has (`ctrCounter`, `ctrCrypt`, `ctrAfter` of Safety.lean).
CTR.BLOCK is the same on the first 16 bytes of its payload. With a 16-byte nonce there is no drift; with a shorter one
whose bytes are intact, there is drift exactly when the free counter bytes overflow. -/
def Obligations.CounterModeKeystream : Prop :=
  ∀ (s : State) (d : Bytes) (o : BitVec 24), s.ctr.inited = true → s.ctr.cur < 16 → s.ctr.n ≤ 16 →
    let order := s.params.ctrOrder
    (d.length ≤ o.toNat →
      (CtrDrifts order s.ctr d.length → exec (.ctrBytes d o) s = .next (s.haltedBy 6 4 0x87)) ∧
      (¬ CtrDrifts order s.ctr d.length →
        exec (.ctrBytes d o) s = .next
          ((s.withCtr (ctrAfter order s.ctr d.length)).completed 6 4 d.length (ctrCrypt order s.ctr d)))) ∧
    (16 ≤ d.length → 16 ≤ o.toNat →
      (CtrDrifts order s.ctr 16 → exec (.ctrBlock d o) s = .next (s.haltedBy 6 3 0x87)) ∧
      (¬ CtrDrifts order s.ctr 16 →
        exec (.ctrBlock d o) s = .next
          ((s.withCtr (ctrAfter order s.ctr 16)).completed 6 3 d.length (ctrCrypt order s.ctr (d.take 16))))) ∧
    (s.ctr.n = 16 → ∀ len, ¬ CtrDrifts order s.ctr len) ∧
    (8 ≤ s.ctr.n → s.ctr.n < 16 →
      let free := 256 ^ (16 - s.ctr.n)
      let first := if s.ctr.cur = 0 ∧ order = .incFirst then 1 else 0
      s.ctr.r.toNat / free = s.ctr.iv.toNat / free →
      ∀ len, 0 < len →
        (CtrDrifts order s.ctr len ↔ free ≤ s.ctr.r.toNat % free + first + (s.ctr.cur + len - 1) / 16))

/-- 43_cfb_ofb.md R185, 44_ctr.md R204, 10_state.md R38: splitting a message over two BYTES commands at any point gives
the same output bytes and the same state as one command, in CFB, OFB and CTR. -/
def Obligations.SplittingAModeStreamChangesNothing : Prop :=
  ∀ (s t : State) (a b out : Bytes) (o : BitVec 24) (bytes : Bytes → BitVec 24 → Instr),
    bytes = .cfbBytes ∨ bytes = .ofbBytes ∨ bytes = .ctrBytes →
    AnswersOk (bytes (a ++ b) o) s t out →
    ∃ u v x y, AnswersOk (bytes a o) s u x ∧ AnswersOk (bytes b o) u v y ∧ x ++ y = out ∧
      { v with cp := t.cp, rs := t.rs } = t

/-! ## Unit GCM -/

/-- 45_gcm.md R222, R229, 60_exceptions.md R324: GCM.INIT, check by check, and the session it opens; and its initial
counter block, whose closing length block for nonces of other than 12 bytes is the spec's own choice (R222, D30). -/
def Obligations.GcmInitOpensASession : Prop :=
  (∀ nonce h, deriveJ0 nonce h =
    if nonce.length = 12 then blockOfBytes (nonce ++ [0x00, 0x00, 0x00, 0x01])
    else ghashBlock (ghash 0 nonce h) (blockOfBytes (zeros 8 ++ beBytes 8 (8 * nonce.length))) h) ∧
  ∀ (dir : Bool) (t : PType) (s : State),
    let bits := if t = .aead ∧ s.p.macv = true then s.p.mac.toNat else 128
    let h := bcEnc s.p.key 0
    let g : Gcm := { inited := true, dir := dir, key := s.p.key, macb := bits / 8, h := h, j0 := deriveJ0 s.p.iv h,
                     ctrb := deriveJ0 s.p.iv h, s := 0, sat := 0, atbuf := [], atlen := 0, pbuf := [], totlen := 0,
                     dbuf := [], started := false }
    exec (.gcmInit dir t) s = .next
      (if t ≠ .aead ∧ t ≠ .keyIv then s.haltedBy 7 1 0x85
       else if s.p.keyv = false ∨ bcKeyOk s.p.key = false then s.haltedBy 7 1 0x89
       else if s.p.ivv = false ∨ s.p.iv = [] then s.haltedBy 7 1 0x83
       else if bits < 32 ∨ 128 < bits ∨ bits % 8 ≠ 0 then s.haltedBy 7 1 0x88
       else if t = .aead ∧ s.p.aadv = true then (s.withG (aadAbsorb g s.p.aad)).completed 7 1 0 []
       else (s.withG g).completed 7 1 0 [])

/-- 44_ctr.md R201, 45_gcm.md R221, R226: the two counters and the length block, byte by byte. -/
def Obligations.CounterAndLengthBlocks : Prop :=
  (∀ r, bytesOfBlock (inc128 r) = beBytes 16 (beNat (bytesOfBlock r) + 1)) ∧
  (∀ b, bytesOfBlock (inc32 b) = (bytesOfBlock b).take 12 ++ beBytes 4 (beNat ((bytesOfBlock b).drop 12) + 1)) ∧
  (∀ a c, bytesOfBlock (lenBlock a c) = beBytes 8 (8 * a) ++ beBytes 8 (8 * c))

/-- 45_gcm.md R223, R224: absorbing associated data hashes every completed block and keeps the rest; starting the cipher
closes it with the zero-padded rest and seeds `S` once. -/
def Obligations.AssociatedDataIsHashedInBlocks : Prop :=
  (∀ (g : Gcm) (d : Bytes), g.atbuf.length ≤ 15 →
    let n := (g.atbuf ++ d).length / 16 * 16
    aadAbsorb g d = { g with sat := ghash g.sat ((g.atbuf ++ d).take n) g.h, atbuf := (g.atbuf ++ d).drop n,
                             atlen := g.atlen + BitVec.ofNat 64 d.length }) ∧
  (∀ g : Gcm, g.atbuf.length ≤ 15 →
    startCipher g =
      if g.started then g
      else { g with sat := ghash g.sat g.atbuf g.h, s := ghash g.sat g.atbuf g.h, atbuf := [], started := true })

/-- 45_gcm.md R231, R232, R234, R240: GCM.AAD and GCM.BYTES, check by check. A finite `CAP_DBUF` that would be exceeded
is `E_LIMIT`, which is the model's choice (D43, notes/assumptions 4). -/
def Obligations.GcmAadAndBytes : Prop :=
  ∀ (d : Bytes) (o : BitVec 24) (s : State),
    let blocks := if s.g.dir then (s.g.totlen.toNat + s.g.pbuf.length + d.length + 15) / 16
                  else (s.g.dbuf.length + d.length + 15) / 16
    let g := startCipher s.g
    exec (.gcmAad d) s = .next
      (if s.g.inited = false then s.errored 7 5 d.length 0x10
       else if s.g.started = true then s.errored 7 5 d.length 0x16
       else (s.withG (aadAbsorb s.g d)).completed 7 5 d.length []) ∧
    exec (.gcmBytes d o) s = .next
      (if s.g.inited = false then s.errored 7 4 d.length 0x10
       else if s.g.dir = true ∧ o.toNat < 16 * ((s.g.pbuf.length + d.length) / 16) then s.haltedBy 7 4 0x82
       else if d = [] then s.completed 7 4 0 []
       else if 2 ^ 32 - 2 < blocks then s.errored 7 4 d.length 0x17
       else if s.g.dir = true then (s.withG (bytesEnc g d).1).completed 7 4 d.length (bytesEnc g d).2
       else if fits s.params.capDbuf (s.g.dbuf.length + d.length) then
         (s.withG { g with dbuf := s.g.dbuf ++ d }).completed 7 4 d.length []
       else s.errored 7 4 d.length 0x17)

/-- 45_gcm.md R225, R233: the encrypt side emits every completed block, encrypted under the next counters and folded into
the tag accumulator, and keeps the rest. -/
def Obligations.GcmEncryptsCompletedBlocks : Prop :=
  ∀ (g : Gcm) (d : Bytes), g.pbuf.length ≤ 15 →
    let n := (g.pbuf ++ d).length / 16 * 16
    let ct := gcmCrypt g.key g.ctrb ((g.pbuf ++ d).take n)
    bytesEnc g d =
      ({ g with s := ghash g.s ct g.h, ctrb := inc32^[n / 16] g.ctrb, totlen := g.totlen + BitVec.ofNat 64 n,
                pbuf := (g.pbuf ++ d).drop n }, ct)

/-- 45_gcm.md R227, R235, R236, R237, R239: GCM.FINAL in both directions: on success the last bytes and the session
closed, else an error that leaves the session as it was. -/
def Obligations.GcmFinalClosesTheSession : Prop :=
  ∀ (o : BitVec 24) (s : State),
    let g := startCipher s.g
    let tag : Block → Nat → Bytes := fun acc c =>
      (bytesOfBlock (bcEnc g.key g.j0 ^^^ gfMul (acc ^^^ lenBlock g.atlen.toNat c) g.h)).take g.macb
    let last := xorBytes g.pbuf (bytesOfBlock (bcEnc g.key (inc32 g.ctrb)))
    let ct := g.dbuf.take (g.dbuf.length - g.macb)
    exec (.gcmFinal o) s = .next
      (if s.g.inited = false then s.errored 7 6 0 0x10
       else if s.g.dir = true then
         (if o.toNat < s.g.pbuf.length + s.g.macb then s.errored 7 6 0 0x11
          else (s.withG Gcm.reset).completed 7 6 0
            (last ++ tag (ghash g.s last g.h) (g.totlen.toNat + last.length)))
       else if s.g.dbuf.length < s.g.macb then s.errored 7 6 0 0x15
       else if o.toNat < s.g.dbuf.length - s.g.macb then s.errored 7 6 0 0x11
       else if tag (ghash g.s ct g.h) ct.length ≠ g.dbuf.drop (g.dbuf.length - g.macb) then s.errored 7 6 0 0x12
       else (s.withG Gcm.reset).completed 7 6 0 (gcmCrypt g.key g.j0 ct))

/-- 45_gcm.md R238, 46_bpc.md R268: GCM.OSIZE and BPC.OSIZE answer the size as eight big-endian bytes and write nothing. -/
def Obligations.OutputSizeCommands : Prop :=
  ∀ (len : BitVec 64) (o : BitVec 24) (s : State),
    exec (.gcmOsize len o) s = .next
      (if o.toNat < 8 then s.haltedBy 7 7 0x82
       else if s.g.inited = false then s.errored 7 7 8 0x10
       else if s.g.dir = true then s.completed 7 7 8 (beBytes 8 (len.toNat + s.g.pbuf.length + s.g.macb))
       else s.completed 7 7 8 (beBytes 8 (len.toNat + s.g.dbuf.length - s.g.macb))) ∧
    exec (.bpcOsize len o) s = .next
      (if o.toNat < 8 then s.haltedBy 8 7 0x82
       else
         match s.b.mode with
         | none => s.errored 8 7 8 0x10
         | some k =>
           let size := mbs k s.b.m
           let total := len.toNat + s.b.buf.length
           if s.b.inited = false ∨ s.b.finished = true then s.errored 8 7 8 0x10
           else if s.b.dir = true then s.completed 8 7 8 (beBytes 8 (total / size * size + size))
           else s.completed 8 7 8 (beBytes 8 ((total + size - 1) / size * size)))

/-- 45_gcm.md R220, R229 to R237, 20_memory.md R73: a whole encrypt session, with its associated data and its plaintext
split over any commands, answers `ciphertext ‖ tag` of the whole message and closes the session. -/
def Obligations.GcmEncryptSessionSealsTheMessage : Prop :=
  ∀ (s : State) (aads : List Bytes) (datas : List (Bytes × BitVec 24)) (o : BitVec 24),
    s.g.Fresh → s.g.dir = true → (datas.map Prod.fst).flatten.length ≤ 16 * (2 ^ 32 - 2) →
    (∀ x ∈ datas, x.1.length + 15 ≤ x.2.toNat) → 31 ≤ o.toNat →
    ∃ (t : State) (outs : List Bytes) (last : Bytes),
      execAll (aads.map .gcmAad ++ datas.map (fun x => .gcmBytes x.1 x.2) ++ [.gcmFinal o]) s = some t ∧
      t.g = Gcm.reset ∧ outs.length = datas.length ∧
      t.rs = s.rs ++ (aads.map fun _ => wireResponse 0x00 7 5 []).flatten ++
        (outs.map (wireResponse 0x00 7 4)).flatten ++ wireResponse 0x00 7 6 last ∧
      outs.flatten ++ last =
        gcmSeal s.g.key s.g.h s.g.j0 s.g.macb aads.flatten (datas.map Prod.fst).flatten

/-- 45_gcm.md R234, R237, R241, 70_reset_and_hazards.md R359: the round trip. A decrypt session opened with the same key
material, fed the same associated data and the sealed message split over any commands, emits nothing before GCM.FINAL,
which answers the plaintext and closes the session. -/
def Obligations.GcmDecryptSessionOpensTheSealedMessage : Prop :=
  ∀ (s : State) (aads : List Bytes) (datas : List (Bytes × BitVec 24)) (p : Bytes) (o : BitVec 24),
    s.g.Fresh → s.g.dir = false → p.length + 16 ≤ 16 * (2 ^ 32 - 2) → p.length ≤ o.toNat →
    fits s.params.capDbuf (p.length + s.g.macb) = true →
    (datas.map Prod.fst).flatten = gcmSeal s.g.key s.g.h s.g.j0 s.g.macb aads.flatten p →
    ∃ t : State,
      execAll (aads.map .gcmAad ++ datas.map (fun x => .gcmBytes x.1 x.2) ++ [.gcmFinal o]) s = some t ∧
      t.g = Gcm.reset ∧
      t.rs = s.rs ++ (aads.map fun _ => wireResponse 0x00 7 5 []).flatten ++
        (datas.map fun _ => wireResponse 0x00 7 4 []).flatten ++ wireResponse 0x00 7 6 p

/-- 45_gcm.md R237, R241: of a message that GCM.FINAL accepts, a changed tag of the same length is always `E_MAC`. With a
16-byte tag and a hash subkey that is not zero, so is a ciphertext changed in any bits of one 16-byte block, a single
flipped bit among them; and so is any other ciphertext of the same length unless the hash subkey annihilates the
difference of the two hashes. Nothing is emitted and the session stays as it is. -/
def Obligations.TamperedMessagesAreRejected : Prop :=
  ∀ (s t : State) (o : BitVec 24) (ct tag out : Bytes), s.g.inited = true → s.g.dir = false →
    s.g.dbuf = ct ++ tag → tag.length = s.g.macb → AnswersOk (.gcmFinal o) s t out →
    let reject : Bytes → Prop := fun dbuf =>
      let s' := s.withG { s.g with dbuf := dbuf }
      exec (.gcmFinal o) s' = .next (s'.errored 7 6 0 0x12)
    let hash : Bytes → Block := fun c => ghash (startCipher s.g).s c s.g.h
    (∀ tag', tag'.length = tag.length → tag' ≠ tag → reject (ct ++ tag')) ∧
    (s.g.macb = 16 → s.g.h ≠ 0 → ∀ (ct' : Bytes) (q : Nat), ct'.length = ct.length → ct' ≠ ct →
      (∀ j, j / 16 ≠ q → ct'[j]? = ct[j]?) → reject (ct' ++ tag)) ∧
    (s.g.macb = 16 → ∀ ct', ct'.length = ct.length → gfMul (hash ct' ^^^ hash ct) s.g.h ≠ 0 → reject (ct' ++ tag))

/-- 45_gcm.md R220, 90_conflicts.md C4: while a session stays open, no command but GCM.INIT changes its key, direction,
tag length, hash subkey or initial counter block. -/
def Obligations.GcmSessionConstantsStay : Prop :=
  ∀ (i : Instr) (s t : State), (∀ dir p, i ≠ .gcmInit dir p) → s.g.inited = true → exec i s = .next t →
    t.g.inited = true →
    t.g.key = s.g.key ∧ t.g.dir = s.g.dir ∧ t.g.macb = s.g.macb ∧ t.g.h = s.g.h ∧ t.g.j0 = s.g.j0

/-! ## Unit BPC -/

/-- 46_bpc.md R262, R263: BPC.INIT takes the checks and effects of the wrapped kind's INIT on the private context, drops
buffered bytes and arms the unit; BPC.RESET restores the context of an initialised unit and re-arms it. -/
def Obligations.BpcInitAndReset : Prop :=
  ∀ (dir : Bool) (t : PType) (s : State),
    exec (.bpcInit dir t) s = .next
      (match s.b.mode with
       | none => s.errored 8 1 0 0x10
       | some k =>
         match modeInit k dir t s.p s.b.m with
         | .error f => s.haltedBy 8 1 f.code
         | .ok m => (s.withB { s.b with m := m, dir := dir, buf := [], inited := true,
                                        finished := false }).completed 8 1 0 []) ∧
    exec .bpcReset s = .next
      (match s.b.mode with
       | none => s.completed 8 2 0 []
       | some k =>
         if s.b.inited = false then s.completed 8 2 0 []
         else (s.withB { s.b with m := modeReset k s.b.m, buf := [], finished := false }).completed 8 2 0 [])

/-- 46_bpc.md R260, R264, 42_ecb_cbc.md R162: BPC.BYTES emits every whole block but the last bytes, of which it keeps 1 to
`BBS` when any are there; in counter mode it halts with `F_CTRDRIFT` exactly when a block it opens drifts. The blocks go
one by one through the block step of the private context, which each leaves for the next. -/
def Obligations.BpcBytesKeepsTheLastBlockBack : Prop :=
  (∀ (k : Kind) (d : Bytes) (o : BitVec 24) (s : State), s.b.Inv → s.b.mode = some k →
    let size := mbs k s.b.m
    let total := s.b.buf.length + d.length
    let kept := if total = 0 then 0 else (total - 1) % size + 1
    let data := s.b.buf ++ d
    let drift := k = .ctr ∧ CtrDrifts s.params.ctrOrder s.b.m (total - kept)
    (s.b.inited = false ∨ s.b.finished = true → exec (.bpcBytes d o) s = .next (s.errored 8 4 d.length 0x10)) ∧
    (s.b.inited = true → s.b.finished = false → o.toNat < total - kept →
      exec (.bpcBytes d o) s = .next (s.haltedBy 8 4 0x82)) ∧
    (s.b.inited = true → s.b.finished = false → total - kept ≤ o.toNat →
      (total - kept) % size = 0 ∧
      (drift → exec (.bpcBytes d o) s = .next (s.haltedBy 8 4 0x87)) ∧
      (¬ drift →
        ∃ m out, blockSteps k s.params.ctrOrder s.b.m (blocksOf size (data.take (total - kept))) = some (m, out) ∧
          out.length = total - kept ∧
          exec (.bpcBytes d o) s = .next
            ((s.withB { s.b with m := m, buf := data.drop (total - kept) }).completed 8 4 d.length out)))) ∧
  (∀ k order m, blockSteps k order m [] = some (m, [])) ∧
  (∀ k order m x rest, blockSteps k order m (x :: rest) =
    match blockStep k order m x with
    | none => none
    | some (m1, y) =>
      match blockSteps k order m1 rest with
      | none => none
      | some (m2, ys) => some (m2, y ++ ys)) ∧
  (∀ (order : CtrOrder) (m : ModeCtx) (x : Bytes),
    let b := blockOfBytes x
    blockStep .ecb order m x = some (m, bytesOfBlock (if m.dir then bcEnc m.key b else bcDec m.key b)) ∧
    blockStep .cbc order m x = some
      (if m.dir then ({ m with r := bcEnc m.key (m.r ^^^ b) }, bytesOfBlock (bcEnc m.key (m.r ^^^ b)))
       else ({ m with r := b }, bytesOfBlock (bcDec m.key b ^^^ m.r))) ∧
    blockStep .cfb order m x = some (fbBytes .cfb m x) ∧ blockStep .ofb order m x = some (fbBytes .ofb m x) ∧
    blockStep .ctr order m x = ctrBytes order m x)

/-- 46_bpc.md R265, R266: BPC.FINAL when encrypting: with room, the buffered block if it is full and then always a padded
block, through the block step (its equations are in `BpcBytesKeepsTheLastBlockBack`), and the unit is finished; in counter
mode `F_CTRDRIFT` exactly when a block it opens drifts. -/
def Obligations.BpcFinalEncryptPadsOneBlock : Prop :=
  ∀ (k : Kind) (o : BitVec 24) (s : State), s.b.Inv → s.b.mode = some k → s.b.inited = true →
    s.b.finished = false → s.b.dir = true →
    let size := mbs k s.b.m
    let order := s.params.ctrOrder
    let full := s.b.buf.length = size
    let need := if full then 2 * size else size
    let padded := if full then padAdd (zeros size) 0
                  else padAdd (s.b.buf ++ zeros (size - s.b.buf.length)) s.b.buf.length
    let drift := k = .ctr ∧ CtrDrifts order s.b.m need
    (o.toNat < need → exec (.bpcFinal o) s = .next (s.errored 8 6 0 0x11)) ∧
    (need ≤ o.toNat → drift → exec (.bpcFinal o) s = .next (s.haltedBy 8 6 0x87)) ∧
    (need ≤ o.toNat → ¬ drift →
      ∃ m1 out1 m2 out2,
        (if full then blockStep k order s.b.m s.b.buf = some (m1, out1) else m1 = s.b.m ∧ out1 = []) ∧
        blockStep k order m1 padded = some (m2, out2) ∧ (out1 ++ out2).length = need ∧
        exec (.bpcFinal o) s =
          .next ((s.withB { s.b with m := m2, buf := [], finished := true }).completed 8 6 0 (out1 ++ out2)))

/-- 46_bpc.md R260, R265, R267, R269: BPC.FINAL when decrypting, check by check; and a unit that is not constructed, not
initialised or finished answers BYTES, FINAL and OSIZE with `E_UNINIT`. -/
def Obligations.BpcFinalDecryptAndNotReady : Prop :=
  (∀ (k : Kind) (o : BitVec 24) (s : State), s.b.mode = some k → s.b.inited = true → s.b.finished = false →
    s.b.dir = false →
    let size := mbs k s.b.m
    exec (.bpcFinal o) s = .next
      (if s.b.buf.length ≠ size then s.errored 8 6 0 0x14
       else
         match blockStep k s.params.ctrOrder s.b.m s.b.buf with
         | none => s.haltedBy 8 6 0x87
         | some (m, d) =>
           match padCount d with
           | none => s.errored 8 6 0 0x13
           | some cnt =>
             if o.toNat < size - cnt then s.errored 8 6 0 0x11
             else (s.withB { s.b with m := m, buf := [], finished := true }).completed 8 6 0 (d.take (size - cnt)))) ∧
  (∀ (d : Bytes) (len : BitVec 64) (o : BitVec 24) (s : State),
    s.b.mode = none ∨ s.b.inited = false ∨ s.b.finished = true →
    exec (.bpcBytes d o) s = .next (s.errored 8 4 d.length 0x10) ∧
    exec (.bpcFinal o) s = .next (s.errored 8 6 0 0x10) ∧
    (8 ≤ o.toNat → exec (.bpcOsize len o) s = .next (s.errored 8 7 8 0x10)))

/-- 45_gcm.md R231, R233, 46_bpc.md R264: the same bytes split over two commands give the same concatenated output and
the same state, for GCM.AAD, GCM.BYTES and BPC.BYTES. -/
def Obligations.SplittingABufferedStreamChangesNothing : Prop :=
  ∀ (s t : State) (a b out : Bytes) (o : BitVec 24) (cmd : Bytes → Instr),
    s.g.Inv → s.b.Inv → cmd = .gcmAad ∨ cmd = (fun d => .gcmBytes d o) ∨ cmd = (fun d => .bpcBytes d o) →
    AnswersOk (cmd (a ++ b)) s t out →
    ∃ u v x y, AnswersOk (cmd a) s u x ∧ AnswersOk (cmd b) u v y ∧ x ++ y = out ∧
      { v with cp := t.cp, rs := t.rs } = t

/-! ## Units HMAC and KMAC -/

/-- 47_hmac.md R280, R282 to R285, 60_exceptions.md R324: the commands of HMAC, check by check. `E_LIMIT` beyond a finite
`CAP_MSG` is the model's choice (D43, notes/assumptions 4). -/
def Obligations.HmacCommands : Prop :=
  ∀ (dir : Bool) (t : PType) (d : Bytes) (o : BitVec 24) (s : State),
    let short := if hmacBl < s.p.key.length then (digest s.p.key).toList else s.p.key
    let key := short ++ List.replicate (hmacBl - short.length) 0x00
    let inner := key.map fun b => b ^^^ 0x36
    let outer := key.map fun b => b ^^^ 0x5C
    hmacBl = (digestByteLenPred.map (fun v => v + 1)).getD 64 ∧
    exec (.hmacInit dir t) s = .next
      (if t ≠ .key then s.haltedBy 9 1 0x85
       else if s.p.keyv = false then s.haltedBy 9 1 0x89
       else if fits s.params.capMsg hmacBl then
         (s.withHm { inited := true, ipad := inner, opad := outer, dg := inner }).completed 9 1 0 []
       else s.errored 9 1 0 0x17) ∧
    exec .hmacReset s = .next
      (if s.hm.inited = true then (s.withHm { s.hm with dg := s.hm.ipad }).completed 9 2 0 []
       else s.completed 9 2 0 []) ∧
    exec (.hmacUpdate d) s = .next
      (if s.hm.inited = false then s.errored 9 4 d.length 0x10
       else if fits s.params.capMsg (s.hm.dg.length + d.length) then
         (s.withHm { s.hm with dg := s.hm.dg ++ d }).completed 9 4 d.length []
       else s.errored 9 4 d.length 0x17) ∧
    exec (.hmacFinal o) s = .next
      (if s.hm.inited = false then s.errored 9 6 0 0x10
       else if o.toNat < digestSize then s.errored 9 6 0 0x11
       else (s.withHm { s.hm with dg := s.hm.ipad }).completed 9 6 0
         (digest (s.hm.opad ++ (digest s.hm.dg).toList)).toList)

/-- 47_hmac.md R286, R287: for a unit keyed with `key` and fed a message in any pieces within `CAP_MSG`, HMAC.FINAL, given
room for it, answers `DG(K' ^ 5C.. ‖ DG(K' ^ 36.. ‖ m))`; the unit is then as just after INIT, so the same pieces give the
same MAC again. -/
def Obligations.HmacAnswersTheNestedDigest : Prop :=
  ∀ (s : State) (dir : Bool) (parts : List Bytes) (o : BitVec 24), s.p.keyv = true →
    fits s.params.capMsg (hmacBl + parts.flatten.length) = true →
    let short := if hmacBl < s.p.key.length then (digest s.p.key).toList else s.p.key
    let key := short ++ List.replicate (hmacBl - short.length) 0x00
    let mac := (digest ((key.map fun b => b ^^^ 0x5C) ++
      (digest ((key.map fun b => b ^^^ 0x36) ++ parts.flatten)).toList)).toList
    let feed := parts.map Instr.hmacUpdate
    let acks := (parts.map fun _ => wireResponse 0x00 9 4 []).flatten
    ∃ t u v w : State, exec (.hmacInit dir .key) s = .next t ∧
      execAll feed t = some u ∧ u.rs = t.rs ++ acks ∧
      v = (u.withHm t.hm).completed 9 6 0 mac ∧
      exec (.hmacFinal o) u = .next (if o.toNat < digestSize then u.errored 9 6 0 0x11 else v) ∧
      execAll feed v = some w ∧ w.rs = v.rs ++ acks ∧
      exec (.hmacFinal o) w =
        .next (if o.toNat < digestSize then w.errored 9 6 0 0x11 else (w.withHm t.hm).completed 9 6 0 mac)

/-- 48_kmac.md R301 to R305, 60_exceptions.md R324: the commands of KMAC, check by check. `E_LIMIT` beyond a finite
`CAP_MSG` is the model's choice (D43, notes/assumptions 4). That a staged IV of length 0 goes to the generator is the
model's choice between two conflicting rules (notes/assumptions 19): R302 leaves the length to `SG_OK`, while a
corner-case sentence of R124 says that every consuming INIT answers `F_IVLEN`. -/
def Obligations.KmacCommands : Prop :=
  ∀ (dir : Bool) (t : PType) (d : Bytes) (imm o : BitVec 24) (s : State),
    let size : MacSize := if imm = 32 then .m32 else if imm = 128 then .m128 else .m64
    let iv := if t = .keyIv then some s.p.iv else none
    exec (.kmacCfg imm) s = .next
      ((s.withKm { macbits := size, inited := false, sgkey := [], sgiv := none, pos := 0,
                   msg := [] }).completed 10 0 0 []) ∧
    exec (.kmacInit dir t) s = .next
      (if t ≠ .key ∧ t ≠ .keyIv then s.haltedBy 10 1 0x85
       else if s.p.keyv = false then s.haltedBy 10 1 0x89
       else if t = .keyIv ∧ s.p.ivv = false then s.haltedBy 10 1 0x83
       else if sgOk s.p.key iv = false then s.errored 10 1 0 0x18
       else (s.withKm { s.km with sgkey := s.p.key, sgiv := iv, pos := 0, msg := [],
                                  inited := true }).completed 10 1 0 []) ∧
    exec .kmacReset s = .next
      (if s.km.inited = true then (s.withKm { s.km with msg := [], pos := 0 }).completed 10 2 0 []
       else s.completed 10 2 0 []) ∧
    exec (.kmacUpdate d) s = .next
      (if s.km.inited = false then s.errored 10 4 d.length 0x10
       else if fits s.params.capMsg (s.km.msg.length + d.length) then
         (s.withKm { s.km with msg := s.km.msg ++ d }).completed 10 4 d.length []
       else s.errored 10 4 d.length 0x17) ∧
    exec (.kmacFinal o) s = .next
      (if s.km.inited = false then s.errored 10 6 0 0x10
       else if o.toNat < s.km.macbits.bits / 8 then s.errored 10 6 0 0x11
       else (s.withKm { s.km with msg := [], pos := 0 }).completed 10 6 0
         ((mixOf s.km.msg (deriveKs s.km s.km.msg.length).1 s.km.macbits).take (s.km.macbits.bits / 8)))

/-- 48_kmac.md R300, R305, R306, R307: for a keyed unit at the start of a message, fed in any pieces within `CAP_MSG`, KMAC.FINAL
answers the leading bytes of the mix of the message with the generator's first `4 * ceil(len / 4)` bytes, and leaves the unit at
the start of the next message, so the same pieces give the same MAC again. -/
def Obligations.KmacMixesTheFirstKeystreamBytes : Prop :=
  ∀ (s : State) (parts : List Bytes) (o : BitVec 24), s.km.inited = true → s.km.pos = 0 → s.km.msg = [] →
    s.km.macbits.bits / 8 ≤ o.toNat → fits s.params.capMsg parts.flatten.length = true →
    let ks := (List.range (4 * ((parts.flatten.length + 3) / 4))).map (sgKs s.km.sgkey s.km.sgiv)
    let mac := (mixOf parts.flatten ks s.km.macbits).take (s.km.macbits.bits / 8)
    let message := parts.map Instr.kmacUpdate ++ [.kmacFinal o]
    let answers := (parts.map fun _ => wireResponse 0x00 10 4 []).flatten ++ wireResponse 0x00 10 6 mac
    mac.length = s.km.macbits.bits / 8 ∧
    ∃ u v : State, execAll message s = some u ∧ u.rs = s.rs ++ answers ∧ u.km = s.km ∧
      execAll message u = some v ∧ v.rs = u.rs ++ answers ∧ v.km = s.km

/-! ## Reset and invariants -/

/-- 10_state.md R55: the hardware-reset value of every field, and an empty response stream; `State.reset` is that state
with an empty command stream, which is the model's choice (notes/assumptions 1). -/
def Obligations.HardwareResetValues : Prop :=
  let m : ModeCtx := { keyed := false, key := [], dir := false, inited := false, iv := 0, n := 0, r := 0, ks := 0,
                       cur := 0, fb := 0, fbb := 16 }
  ∀ s : State,
    hardwareReset s =
      { cs := s.cs, params := s.params, cp := 0, run := .running, fatal := false, fcode := 0, funit := 0, fop := 0,
        fcp := 0, lasterr := 0,
        p := { keyv := false, key := [], ivv := false, iv := [], aadv := false, aad := [], macv := false, mac := 0 },
        ecb := m, cbc := m, cfb := m, ofb := m, ctr := m,
        g := { inited := false, dir := false, key := [], macb := 0, h := 0, j0 := 0, ctrb := 0, s := 0, sat := 0,
               atbuf := [], atlen := 0, pbuf := [], totlen := 0, dbuf := [], started := false },
        b := { mode := none, m := m, buf := [], dir := false, inited := false, finished := false },
        hm := { inited := false, ipad := [], opad := [], dg := [] },
        km := { macbits := .m64, inited := false, sgkey := [], sgiv := none, pos := 0, msg := [] },
        rs := [] } ∧
    State.reset = hardwareReset State.reset ∧ State.reset.cs = []

/-- The invariants of every unit hold right after reset (10_state.md R32, R33, R36, R42, R46, R49, R52, R55). -/
def Obligations.ResetMeetsTheInvariants : Prop :=
  State.reset.Inv

/-- 10_state.md R32, 20_memory.md R71, 30_encoding.md R97, R98, 60_exceptions.md R326, R327: every step keeps the
invariant of the engine registers. -/
def Obligations.StepKeepsTheEngineInvariant : Prop :=
  ∀ s t : State, s.EngineInv → step s = .next t → t.EngineInv

/-- 10_state.md R36, R38, R46, 44_ctr.md R200, 46_bpc.md R264, R269: every step keeps the invariants of the five mode
units and of the buffered cipher. -/
def Obligations.StepKeepsTheModeAndBufferInvariants : Prop :=
  ∀ s t : State, step s = .next t → (s.ModesInv → t.ModesInv) ∧ (s.b.Inv → t.b.Inv)

/-- 10_state.md R42, R43, 45_gcm.md R220, R221, R240: every step keeps the invariant of the GCM session; in particular
the running counter is `J0` incremented once per whole block and the block limit holds. -/
def Obligations.StepKeepsTheGcmInvariant : Prop :=
  ∀ s t : State, s.g.Inv → step s = .next t → t.g.Inv

/-- 10_state.md R33, R42, R49, R52, 48_kmac.md R300, 92_eei_decisions.md D43: every step keeps the invariants of the two
MAC units and, with the staged parameters and the GCM buffer, of the capacities. That `CAP_P` bounds each staging buffer
by itself and that an overflow is refused with `E_LIMIT` is the model's choice (notes/assumptions 4). -/
def Obligations.StepKeepsTheMacAndCapacityInvariants : Prop :=
  ∀ s t : State, s.hm.Inv → s.km.Inv → s.CapacityInv → step s = .next t → t.hm.Inv ∧ t.km.Inv ∧ t.CapacityInv

end Statements
end

