-- ==== Sys2Proof/Laws/Bytes.lean ====
section
/-! SUPPORT. Bytes and numbers: big-endian conversion, blocks, cutting a sequence into pieces, XOR of sequences. -/

namespace Sys2Proof

/-! ## Big-endian numbers -/

/-- The unsigned value of two bit strings joined. -/
theorem toNat_append_eq {m n : Nat} (x : BitVec m) (y : BitVec n) : (x ++ y).toNat = x.toNat * 2 ^ n + y.toNat := by
  rw [BitVec.toNat_append, ← Nat.shiftLeft_add_eq_or_of_lt y.isLt, Nat.shiftLeft_eq]

@[simp] theorem beNat_nil : beNat [] = 0 := rfl

theorem foldl_be (a : Bytes) (n : Nat) :
    a.foldl (fun n b => n * 256 + b.toNat) n = n * 256 ^ a.length + beNat a := by
  induction a generalizing n with
  | nil => simp
  | cons b a ih =>
    simp only [List.foldl_cons, List.length_cons, beNat]
    rw [ih, ih (0 * 256 + b.toNat)]
    ring

theorem beNat_cons (b : Byte) (a : Bytes) : beNat (b :: a) = b.toNat * 256 ^ a.length + beNat a := by
  rw [beNat, List.foldl_cons, foldl_be]; simp

theorem beNat_append (a b : Bytes) : beNat (a ++ b) = beNat a * 256 ^ b.length + beNat b := by
  rw [beNat, List.foldl_append, foldl_be]; rfl

theorem beNat_lt (a : Bytes) : beNat a < 256 ^ a.length := by
  induction a with
  | nil => simp
  | cons b a ih =>
    rw [beNat_cons, List.length_cons, pow_succ]
    have := b.isLt
    have h : b.toNat * 256 ^ a.length + 256 ^ a.length ≤ 256 * 256 ^ a.length := by
      rw [← Nat.succ_mul]; exact Nat.mul_le_mul_right _ (by omega)
    omega

@[simp] theorem beBytes_length (k n : Nat) : (beBytes k n).length = k := by
  induction k with
  | zero => rfl
  | succ k ih => simp [beBytes, ih]

theorem beNat_beBytes (k n : Nat) : beNat (beBytes k n) = n % 256 ^ k := by
  induction k with
  | zero => simp [beBytes, Nat.mod_one]
  | succ k ih =>
    rw [beBytes, beNat_cons, beBytes_length, ih, BitVec.toNat_ofNat, Nat.shiftRight_eq_div_pow,
      show (2 : Nat) ^ 8 = 256 by norm_num, show (2 : Nat) ^ (8 * k) = 256 ^ k by rw [pow_mul]; norm_num,
      pow_succ, Nat.mod_mul]
    ring

theorem beBytes_beNat (a : Bytes) : beBytes a.length (beNat a) = a := by
  suffices h : ∀ (a : Bytes) (m : Nat), beBytes a.length (m * 256 ^ a.length + beNat a) = a by
    simpa using h a 0
  intro a
  induction a with
  | nil => intro m; rfl
  | cons b a ih =>
    intro m
    rw [List.length_cons, beBytes, beNat_cons]
    have hlt := beNat_lt a
    have hpos : 0 < 256 ^ a.length := by positivity
    congr 1
    · rw [Nat.shiftRight_eq_div_pow, show (2 : Nat) ^ (8 * a.length) = 256 ^ a.length by rw [pow_mul]; norm_num]
      have : (m * 256 ^ (a.length + 1) + (b.toNat * 256 ^ a.length + beNat a)) / 256 ^ a.length
          = m * 256 + b.toNat := by
        rw [show m * 256 ^ (a.length + 1) + (b.toNat * 256 ^ a.length + beNat a)
          = beNat a + 256 ^ a.length * (m * 256 + b.toNat) by ring, Nat.add_mul_div_left _ _ hpos,
          Nat.div_eq_of_lt hlt]
        omega
      rw [this]
      apply BitVec.eq_of_toNat_eq
      have := b.isLt
      simp only [BitVec.toNat_ofNat]
      omega
    · rw [show m * 256 ^ (a.length + 1) + (b.toNat * 256 ^ a.length + beNat a)
        = (m * 256 + b.toNat) * 256 ^ a.length + beNat a by ring]
      exact ih _

theorem beNat_inj {a b : Bytes} (hl : a.length = b.length) (h : beNat a = beNat b) : a = b := by
  rw [← beBytes_beNat a, ← beBytes_beNat b, hl, h]

@[simp] theorem beNat_replicate_zero (n : Nat) : beNat (List.replicate n 0) = 0 := by
  induction n with
  | zero => rfl
  | succ n ih => rw [List.replicate_succ, beNat_cons, ih]; simp

end Sys2Proof

namespace Sys2Proof.Machine

open Sys2Proof.Config

/-! ## Blocks -/

@[simp] theorem zeros_length (n : Nat) : (zeros n).length = n := by simp [zeros]

@[simp] theorem bytesOfBlock_length (b : Block) : (bytesOfBlock b).length = 16 := by simp [bytesOfBlock, bs]

theorem blockOfBytes_of_length {a : Bytes} (h : a.length = 16) :
    blockOfBytes a = BitVec.ofNat 128 (beNat a) := by
  rw [blockOfBytes, bs, List.take_append_of_le_length (by omega), List.take_of_length_le (by omega)]

@[simp] theorem bytesOfBlock_blockOfBytes {a : Bytes} (h : a.length = 16) : bytesOfBlock (blockOfBytes a) = a := by
  rw [blockOfBytes_of_length h, bytesOfBlock, BitVec.toNat_ofNat, Nat.mod_eq_of_lt, bs, ← h, beBytes_beNat]
  have := beNat_lt a
  rw [h] at this
  calc beNat a < 256 ^ 16 := this
    _ = 2 ^ 128 := by norm_num

@[simp] theorem blockOfBytes_bytesOfBlock (b : Block) : blockOfBytes (bytesOfBlock b) = b := by
  rw [blockOfBytes_of_length (by simp)]
  apply BitVec.eq_of_toNat_eq
  have := b.isLt
  rw [BitVec.toNat_ofNat, bytesOfBlock, beNat_beBytes, bs,
    show (256 : Nat) ^ 16 = 2 ^ 128 by norm_num, Nat.mod_mod, Nat.mod_eq_of_lt this]

theorem bytesOfBlock_inj {a b : Block} (h : bytesOfBlock a = bytesOfBlock b) : a = b := by
  rw [← blockOfBytes_bytesOfBlock a, ← blockOfBytes_bytesOfBlock b, h]

/-- The bytes of a block made from a short sequence are the sequence and zero bytes. -/
theorem bytesOfBlock_blockOfBytes_of_le {a : Bytes} (h : a.length ≤ 16) :
    bytesOfBlock (blockOfBytes a) = a ++ zeros (16 - a.length) := by
  have e : blockOfBytes a = blockOfBytes (a ++ zeros (16 - a.length)) := by
    have hl : (a ++ zeros (16 - a.length)).length = 16 := by simp; omega
    rw [blockOfBytes_of_length hl, blockOfBytes]
    congr 2
    rw [bs, List.take_append, List.take_of_length_le h]
    congr 1
    rw [zeros, zeros, List.take_replicate]
    congr 1
    omega
  rw [e, bytesOfBlock_blockOfBytes (by simp; omega)]

@[simp] theorem blockOfBytes_nil : blockOfBytes [] = 0 := by decide

/-! ## The bytes of a block -/

theorem beBytes_eq_map (k n : Nat) :
    beBytes k n = (List.range k).map fun i => BitVec.ofNat 8 (n >>> (8 * (k - 1 - i))) := by
  induction k with
  | zero => rfl
  | succ k ih =>
    rw [beBytes, ih, List.range_succ_eq_map, List.map_cons, List.map_map]
    congr 1
    refine List.map_congr_left fun i _ => ?_
    simp only [Function.comp_apply]
    congr 3
    omega

theorem bytesOfBlock_eq_map (b : Block) : bytesOfBlock b = (List.range 16).map (blockByte b) := by
  rw [bytesOfBlock, bs, beBytes_eq_map]
  refine List.map_congr_left fun i _ => ?_
  simp only [blockByte, BitVec.extractLsb']

theorem bytesOfBlock_getElem (b : Block) {i : Nat} (h : i < 16) :
    (bytesOfBlock b)[i]'(by simpa using h) = blockByte b i := by
  simp [bytesOfBlock_eq_map]

theorem blockByte_ext {a b : Block} (h : ∀ i, i < 16 → blockByte a i = blockByte b i) : a = b := by
  apply bytesOfBlock_inj
  rw [bytesOfBlock_eq_map, bytesOfBlock_eq_map]
  exact List.map_congr_left fun i hi => h i (by simpa using hi)

/-- Byte `i` of a block made from a sequence: its byte `i`, zero beyond its end. -/
theorem blockByte_blockOfBytes (a : Bytes) {i : Nat} (h : i < 16) : blockByte (blockOfBytes a) i = a.getD i 0 := by
  have hl : ((a ++ zeros 16).take 16).length = 16 := by simp
  have e : blockOfBytes a = blockOfBytes ((a ++ zeros 16).take 16) := by
    rw [blockOfBytes_of_length hl, blockOfBytes, bs]
  rw [← bytesOfBlock_getElem _ h, ← Option.some_inj, ← List.getElem?_eq_getElem, e, bytesOfBlock_blockOfBytes hl,
    List.getElem?_take_of_lt h, List.getD_eq_getElem?_getD]
  by_cases hi : i < a.length
  · rw [List.getElem?_append_left hi, List.getElem?_eq_getElem hi]; rfl
  · rw [List.getElem?_append_right (by omega), List.getElem?_eq_none (by omega : a.length ≤ i), zeros,
      List.getElem?_replicate_of_lt (by omega)]; rfl

theorem blockByte_xor (a b : Block) (i : Nat) : blockByte (a ^^^ b) i = blockByte a i ^^^ blockByte b i := by
  simp [blockByte, BitVec.extractLsb'_xor]

theorem blockByte_setBlockByte (b : Block) {i j : Nat} (v : Byte) (h : j < 16) :
    blockByte (setBlockByte b i v) j = if j = i then v else blockByte b j := by
  rw [setBlockByte, blockByte_blockOfBytes _ h, List.getD_eq_getElem?_getD, List.getElem?_set]
  by_cases e : i = j
  · subst e; simp [h]
  · rw [if_neg e, if_neg (Ne.symm e), List.getElem?_eq_getElem (by simpa using h), bytesOfBlock_getElem b h]; rfl

theorem bytesOfBlock_xor (a b : Block) : bytesOfBlock (a ^^^ b) = xorBytes (bytesOfBlock a) (bytesOfBlock b) := by
  rw [xorBytes, bytesOfBlock_eq_map, bytesOfBlock_eq_map, bytesOfBlock_eq_map, List.zipWith_map, List.zipWith_self]
  exact List.map_congr_left fun i _ => blockByte_xor a b i

/-! ## Pieces of a sequence -/

@[simp] theorem blocksOf_nil (n : Nat) : blocksOf n [] = [] := by
  cases n with
  | zero => simp [blocksOf]
  | succ n => simp [blocksOf]

theorem blocksOf_eq_cons {n : Nat} (hn : 0 < n) {a : Bytes} (ha : a ≠ []) :
    blocksOf n a = a.take n :: blocksOf n (a.drop n) := by
  have hl : 0 < a.length := List.length_pos_iff.mpr ha
  have hc : (a.length + n - 1) / n = ((a.drop n).length + n - 1) / n + 1 := by
    rw [List.length_drop]
    by_cases h : a.length ≤ n
    · rw [Nat.sub_eq_zero_of_le h]
      have h1 : (a.length + n - 1) / n = 1 := by
        rw [Nat.div_eq_iff hn]; omega
      have h2 : (0 + n - 1) / n = 0 := Nat.div_eq_of_lt (by omega)
      omega
    · rw [show a.length + n - 1 = a.length - n + n - 1 + n by omega, Nat.add_div_right _ hn]
  rw [blocksOf, hc, List.range_succ_eq_map, List.map_cons, List.map_map, blocksOf]
  congr 1
  apply List.map_congr_left
  intro k _
  simp only [Function.comp_apply, List.drop_drop]
  rw [show n * (k + 1) = n + n * k by ring]

/-- The pieces joined are the sequence. -/
theorem blocksOf_flatten {n : Nat} (hn : 0 < n) (a : Bytes) : (blocksOf n a).flatten = a := by
  suffices h : ∀ (m : Nat) (a : Bytes), a.length ≤ m → (blocksOf n a).flatten = a from h _ a le_rfl
  intro m
  induction m with
  | zero => intro a h; rw [List.length_eq_zero_iff.mp (by omega : a.length = 0)]; simp
  | succ m ih =>
    intro a h
    by_cases ha : a = []
    · subst ha; simp
    · have hl : 0 < a.length := List.length_pos_iff.mpr ha
      rw [blocksOf_eq_cons hn ha, List.flatten_cons, ih _ (by rw [List.length_drop]; omega), List.take_append_drop]

/-- A sequence that begins with whole pieces is cut there. -/
theorem blocksOf_append {n : Nat} (hn : 0 < n) (a b : Bytes) (h : a.length % n = 0) :
    blocksOf n (a ++ b) = blocksOf n a ++ blocksOf n b := by
  suffices hm : ∀ (m : Nat) (a : Bytes), a.length ≤ m → a.length % n = 0 →
      blocksOf n (a ++ b) = blocksOf n a ++ blocksOf n b from hm _ a le_rfl h
  intro m
  induction m with
  | zero => intro a h _; rw [List.length_eq_zero_iff.mp (by omega : a.length = 0)]; simp
  | succ m ih =>
    intro a hl hmod
    by_cases ha : a = []
    · subst ha; simp
    · have h0 : 0 < a.length := List.length_pos_iff.mpr ha
      have hle : n ≤ a.length := by
        by_contra hlt
        rw [Nat.mod_eq_of_lt (by omega)] at hmod
        omega
      rw [blocksOf_eq_cons hn ha, blocksOf_eq_cons hn (by simp [ha]), List.take_append_of_le_length hle,
        List.drop_append_of_le_length hle, ih _ (by rw [List.length_drop]; omega)
          (by rw [List.length_drop]; exact (Nat.mod_eq_sub_mod hle).symm.trans hmod), List.cons_append]

/-- Every piece of a whole number of pieces has full length. -/
theorem length_of_mem_blocksOf {n : Nat} (hn : 0 < n) {a x : Bytes} (h : a.length % n = 0) (hx : x ∈ blocksOf n a) :
    x.length = n := by
  suffices hm : ∀ (m : Nat) (a : Bytes), a.length ≤ m → a.length % n = 0 → x ∈ blocksOf n a → x.length = n from
    hm _ a le_rfl h hx
  intro m
  induction m with
  | zero => intro a h _ hx; rw [List.length_eq_zero_iff.mp (by omega : a.length = 0)] at hx; simp at hx
  | succ m ih =>
    intro a hl hmod hx
    by_cases ha : a = []
    · subst ha; simp at hx
    · have h0 : 0 < a.length := List.length_pos_iff.mpr ha
      have hle : n ≤ a.length := by
        by_contra hlt
        rw [Nat.mod_eq_of_lt (by omega)] at hmod
        omega
      rw [blocksOf_eq_cons hn ha, List.mem_cons] at hx
      rcases hx with rfl | hx
      · rw [List.length_take]; omega
      · exact ih _ (by rw [List.length_drop]; omega)
          (by rw [List.length_drop]; exact (Nat.mod_eq_sub_mod hle).symm.trans hmod) hx

/-- A whole number of pieces is as long as its pieces together. -/
theorem blocksOf_length_mul {n : Nat} (hn : 0 < n) {a : Bytes} (h : a.length % n = 0) :
    (blocksOf n a).length * n = a.length := by
  have hl := congrArg List.length (blocksOf_flatten hn a)
  rw [List.length_flatten, List.map_congr_left fun x hx => length_of_mem_blocksOf hn h hx, List.map_const',
    List.sum_replicate, smul_eq_mul] at hl
  exact hl

/-! ## XOR of sequences -/

@[simp] theorem xorBytes_length (a b : Bytes) : (xorBytes a b).length = min a.length b.length := by
  simp [xorBytes]

/-- XOR with the same sequence twice gives the first one back. -/
theorem xorBytes_cancel {p k : Bytes} (h : p.length ≤ k.length) : xorBytes (xorBytes p k) k = p := by
  induction p generalizing k with
  | nil => simp [xorBytes]
  | cons x p ih =>
    cases k with
    | nil => simp at h
    | cons y k =>
      simp only [xorBytes, List.zipWith_cons_cons] at ih ⊢
      rw [ih (by simpa using h), BitVec.xor_assoc, BitVec.xor_self, BitVec.xor_zero]

end Sys2Proof.Machine
end

