-- ==== Sys2Proof/Laws/State.lean ====
section
/-! SUPPORT. One lemma per field and per named update of State: what each update writes and what it leaves. -/

namespace Sys2Proof.Machine

@[simp] theorem State.withP_cs (s : State) (x : Staged) : (s.withP x).cs = s.cs := rfl
@[simp] theorem State.withP_params (s : State) (x : Staged) : (s.withP x).params = s.params := rfl
@[simp] theorem State.withP_cp (s : State) (x : Staged) : (s.withP x).cp = s.cp := rfl
@[simp] theorem State.withP_run (s : State) (x : Staged) : (s.withP x).run = s.run := rfl
@[simp] theorem State.withP_fatal (s : State) (x : Staged) : (s.withP x).fatal = s.fatal := rfl
@[simp] theorem State.withP_fcode (s : State) (x : Staged) : (s.withP x).fcode = s.fcode := rfl
@[simp] theorem State.withP_funit (s : State) (x : Staged) : (s.withP x).funit = s.funit := rfl
@[simp] theorem State.withP_fop (s : State) (x : Staged) : (s.withP x).fop = s.fop := rfl
@[simp] theorem State.withP_fcp (s : State) (x : Staged) : (s.withP x).fcp = s.fcp := rfl
@[simp] theorem State.withP_lasterr (s : State) (x : Staged) : (s.withP x).lasterr = s.lasterr := rfl
@[simp] theorem State.withP_p (s : State) (x : Staged) : (s.withP x).p = x := rfl
@[simp] theorem State.withP_ecb (s : State) (x : Staged) : (s.withP x).ecb = s.ecb := rfl
@[simp] theorem State.withP_cbc (s : State) (x : Staged) : (s.withP x).cbc = s.cbc := rfl
@[simp] theorem State.withP_cfb (s : State) (x : Staged) : (s.withP x).cfb = s.cfb := rfl
@[simp] theorem State.withP_ofb (s : State) (x : Staged) : (s.withP x).ofb = s.ofb := rfl
@[simp] theorem State.withP_ctr (s : State) (x : Staged) : (s.withP x).ctr = s.ctr := rfl
@[simp] theorem State.withP_g (s : State) (x : Staged) : (s.withP x).g = s.g := rfl
@[simp] theorem State.withP_b (s : State) (x : Staged) : (s.withP x).b = s.b := rfl
@[simp] theorem State.withP_hm (s : State) (x : Staged) : (s.withP x).hm = s.hm := rfl
@[simp] theorem State.withP_km (s : State) (x : Staged) : (s.withP x).km = s.km := rfl
@[simp] theorem State.withP_rs (s : State) (x : Staged) : (s.withP x).rs = s.rs := rfl
@[simp] theorem State.withP_self (s : State) : s.withP s.p = s := rfl
@[simp] theorem State.withP_withP (s : State) (x y : Staged) : (s.withP x).withP y = s.withP y := rfl

@[simp] theorem State.withEcb_cs (s : State) (x : ModeCtx) : (s.withEcb x).cs = s.cs := rfl
@[simp] theorem State.withEcb_params (s : State) (x : ModeCtx) : (s.withEcb x).params = s.params := rfl
@[simp] theorem State.withEcb_cp (s : State) (x : ModeCtx) : (s.withEcb x).cp = s.cp := rfl
@[simp] theorem State.withEcb_run (s : State) (x : ModeCtx) : (s.withEcb x).run = s.run := rfl
@[simp] theorem State.withEcb_fatal (s : State) (x : ModeCtx) : (s.withEcb x).fatal = s.fatal := rfl
@[simp] theorem State.withEcb_fcode (s : State) (x : ModeCtx) : (s.withEcb x).fcode = s.fcode := rfl
@[simp] theorem State.withEcb_funit (s : State) (x : ModeCtx) : (s.withEcb x).funit = s.funit := rfl
@[simp] theorem State.withEcb_fop (s : State) (x : ModeCtx) : (s.withEcb x).fop = s.fop := rfl
@[simp] theorem State.withEcb_fcp (s : State) (x : ModeCtx) : (s.withEcb x).fcp = s.fcp := rfl
@[simp] theorem State.withEcb_lasterr (s : State) (x : ModeCtx) : (s.withEcb x).lasterr = s.lasterr := rfl
@[simp] theorem State.withEcb_p (s : State) (x : ModeCtx) : (s.withEcb x).p = s.p := rfl
@[simp] theorem State.withEcb_ecb (s : State) (x : ModeCtx) : (s.withEcb x).ecb = x := rfl
@[simp] theorem State.withEcb_cbc (s : State) (x : ModeCtx) : (s.withEcb x).cbc = s.cbc := rfl
@[simp] theorem State.withEcb_cfb (s : State) (x : ModeCtx) : (s.withEcb x).cfb = s.cfb := rfl
@[simp] theorem State.withEcb_ofb (s : State) (x : ModeCtx) : (s.withEcb x).ofb = s.ofb := rfl
@[simp] theorem State.withEcb_ctr (s : State) (x : ModeCtx) : (s.withEcb x).ctr = s.ctr := rfl
@[simp] theorem State.withEcb_g (s : State) (x : ModeCtx) : (s.withEcb x).g = s.g := rfl
@[simp] theorem State.withEcb_b (s : State) (x : ModeCtx) : (s.withEcb x).b = s.b := rfl
@[simp] theorem State.withEcb_hm (s : State) (x : ModeCtx) : (s.withEcb x).hm = s.hm := rfl
@[simp] theorem State.withEcb_km (s : State) (x : ModeCtx) : (s.withEcb x).km = s.km := rfl
@[simp] theorem State.withEcb_rs (s : State) (x : ModeCtx) : (s.withEcb x).rs = s.rs := rfl
@[simp] theorem State.withEcb_self (s : State) : s.withEcb s.ecb = s := rfl
@[simp] theorem State.withEcb_withEcb (s : State) (x y : ModeCtx) : (s.withEcb x).withEcb y = s.withEcb y := rfl

@[simp] theorem State.withCbc_cs (s : State) (x : ModeCtx) : (s.withCbc x).cs = s.cs := rfl
@[simp] theorem State.withCbc_params (s : State) (x : ModeCtx) : (s.withCbc x).params = s.params := rfl
@[simp] theorem State.withCbc_cp (s : State) (x : ModeCtx) : (s.withCbc x).cp = s.cp := rfl
@[simp] theorem State.withCbc_run (s : State) (x : ModeCtx) : (s.withCbc x).run = s.run := rfl
@[simp] theorem State.withCbc_fatal (s : State) (x : ModeCtx) : (s.withCbc x).fatal = s.fatal := rfl
@[simp] theorem State.withCbc_fcode (s : State) (x : ModeCtx) : (s.withCbc x).fcode = s.fcode := rfl
@[simp] theorem State.withCbc_funit (s : State) (x : ModeCtx) : (s.withCbc x).funit = s.funit := rfl
@[simp] theorem State.withCbc_fop (s : State) (x : ModeCtx) : (s.withCbc x).fop = s.fop := rfl
@[simp] theorem State.withCbc_fcp (s : State) (x : ModeCtx) : (s.withCbc x).fcp = s.fcp := rfl
@[simp] theorem State.withCbc_lasterr (s : State) (x : ModeCtx) : (s.withCbc x).lasterr = s.lasterr := rfl
@[simp] theorem State.withCbc_p (s : State) (x : ModeCtx) : (s.withCbc x).p = s.p := rfl
@[simp] theorem State.withCbc_ecb (s : State) (x : ModeCtx) : (s.withCbc x).ecb = s.ecb := rfl
@[simp] theorem State.withCbc_cbc (s : State) (x : ModeCtx) : (s.withCbc x).cbc = x := rfl
@[simp] theorem State.withCbc_cfb (s : State) (x : ModeCtx) : (s.withCbc x).cfb = s.cfb := rfl
@[simp] theorem State.withCbc_ofb (s : State) (x : ModeCtx) : (s.withCbc x).ofb = s.ofb := rfl
@[simp] theorem State.withCbc_ctr (s : State) (x : ModeCtx) : (s.withCbc x).ctr = s.ctr := rfl
@[simp] theorem State.withCbc_g (s : State) (x : ModeCtx) : (s.withCbc x).g = s.g := rfl
@[simp] theorem State.withCbc_b (s : State) (x : ModeCtx) : (s.withCbc x).b = s.b := rfl
@[simp] theorem State.withCbc_hm (s : State) (x : ModeCtx) : (s.withCbc x).hm = s.hm := rfl
@[simp] theorem State.withCbc_km (s : State) (x : ModeCtx) : (s.withCbc x).km = s.km := rfl
@[simp] theorem State.withCbc_rs (s : State) (x : ModeCtx) : (s.withCbc x).rs = s.rs := rfl
@[simp] theorem State.withCbc_self (s : State) : s.withCbc s.cbc = s := rfl
@[simp] theorem State.withCbc_withCbc (s : State) (x y : ModeCtx) : (s.withCbc x).withCbc y = s.withCbc y := rfl

@[simp] theorem State.withCfb_cs (s : State) (x : ModeCtx) : (s.withCfb x).cs = s.cs := rfl
@[simp] theorem State.withCfb_params (s : State) (x : ModeCtx) : (s.withCfb x).params = s.params := rfl
@[simp] theorem State.withCfb_cp (s : State) (x : ModeCtx) : (s.withCfb x).cp = s.cp := rfl
@[simp] theorem State.withCfb_run (s : State) (x : ModeCtx) : (s.withCfb x).run = s.run := rfl
@[simp] theorem State.withCfb_fatal (s : State) (x : ModeCtx) : (s.withCfb x).fatal = s.fatal := rfl
@[simp] theorem State.withCfb_fcode (s : State) (x : ModeCtx) : (s.withCfb x).fcode = s.fcode := rfl
@[simp] theorem State.withCfb_funit (s : State) (x : ModeCtx) : (s.withCfb x).funit = s.funit := rfl
@[simp] theorem State.withCfb_fop (s : State) (x : ModeCtx) : (s.withCfb x).fop = s.fop := rfl
@[simp] theorem State.withCfb_fcp (s : State) (x : ModeCtx) : (s.withCfb x).fcp = s.fcp := rfl
@[simp] theorem State.withCfb_lasterr (s : State) (x : ModeCtx) : (s.withCfb x).lasterr = s.lasterr := rfl
@[simp] theorem State.withCfb_p (s : State) (x : ModeCtx) : (s.withCfb x).p = s.p := rfl
@[simp] theorem State.withCfb_ecb (s : State) (x : ModeCtx) : (s.withCfb x).ecb = s.ecb := rfl
@[simp] theorem State.withCfb_cbc (s : State) (x : ModeCtx) : (s.withCfb x).cbc = s.cbc := rfl
@[simp] theorem State.withCfb_cfb (s : State) (x : ModeCtx) : (s.withCfb x).cfb = x := rfl
@[simp] theorem State.withCfb_ofb (s : State) (x : ModeCtx) : (s.withCfb x).ofb = s.ofb := rfl
@[simp] theorem State.withCfb_ctr (s : State) (x : ModeCtx) : (s.withCfb x).ctr = s.ctr := rfl
@[simp] theorem State.withCfb_g (s : State) (x : ModeCtx) : (s.withCfb x).g = s.g := rfl
@[simp] theorem State.withCfb_b (s : State) (x : ModeCtx) : (s.withCfb x).b = s.b := rfl
@[simp] theorem State.withCfb_hm (s : State) (x : ModeCtx) : (s.withCfb x).hm = s.hm := rfl
@[simp] theorem State.withCfb_km (s : State) (x : ModeCtx) : (s.withCfb x).km = s.km := rfl
@[simp] theorem State.withCfb_rs (s : State) (x : ModeCtx) : (s.withCfb x).rs = s.rs := rfl
@[simp] theorem State.withCfb_self (s : State) : s.withCfb s.cfb = s := rfl
@[simp] theorem State.withCfb_withCfb (s : State) (x y : ModeCtx) : (s.withCfb x).withCfb y = s.withCfb y := rfl

@[simp] theorem State.withOfb_cs (s : State) (x : ModeCtx) : (s.withOfb x).cs = s.cs := rfl
@[simp] theorem State.withOfb_params (s : State) (x : ModeCtx) : (s.withOfb x).params = s.params := rfl
@[simp] theorem State.withOfb_cp (s : State) (x : ModeCtx) : (s.withOfb x).cp = s.cp := rfl
@[simp] theorem State.withOfb_run (s : State) (x : ModeCtx) : (s.withOfb x).run = s.run := rfl
@[simp] theorem State.withOfb_fatal (s : State) (x : ModeCtx) : (s.withOfb x).fatal = s.fatal := rfl
@[simp] theorem State.withOfb_fcode (s : State) (x : ModeCtx) : (s.withOfb x).fcode = s.fcode := rfl
@[simp] theorem State.withOfb_funit (s : State) (x : ModeCtx) : (s.withOfb x).funit = s.funit := rfl
@[simp] theorem State.withOfb_fop (s : State) (x : ModeCtx) : (s.withOfb x).fop = s.fop := rfl
@[simp] theorem State.withOfb_fcp (s : State) (x : ModeCtx) : (s.withOfb x).fcp = s.fcp := rfl
@[simp] theorem State.withOfb_lasterr (s : State) (x : ModeCtx) : (s.withOfb x).lasterr = s.lasterr := rfl
@[simp] theorem State.withOfb_p (s : State) (x : ModeCtx) : (s.withOfb x).p = s.p := rfl
@[simp] theorem State.withOfb_ecb (s : State) (x : ModeCtx) : (s.withOfb x).ecb = s.ecb := rfl
@[simp] theorem State.withOfb_cbc (s : State) (x : ModeCtx) : (s.withOfb x).cbc = s.cbc := rfl
@[simp] theorem State.withOfb_cfb (s : State) (x : ModeCtx) : (s.withOfb x).cfb = s.cfb := rfl
@[simp] theorem State.withOfb_ofb (s : State) (x : ModeCtx) : (s.withOfb x).ofb = x := rfl
@[simp] theorem State.withOfb_ctr (s : State) (x : ModeCtx) : (s.withOfb x).ctr = s.ctr := rfl
@[simp] theorem State.withOfb_g (s : State) (x : ModeCtx) : (s.withOfb x).g = s.g := rfl
@[simp] theorem State.withOfb_b (s : State) (x : ModeCtx) : (s.withOfb x).b = s.b := rfl
@[simp] theorem State.withOfb_hm (s : State) (x : ModeCtx) : (s.withOfb x).hm = s.hm := rfl
@[simp] theorem State.withOfb_km (s : State) (x : ModeCtx) : (s.withOfb x).km = s.km := rfl
@[simp] theorem State.withOfb_rs (s : State) (x : ModeCtx) : (s.withOfb x).rs = s.rs := rfl
@[simp] theorem State.withOfb_self (s : State) : s.withOfb s.ofb = s := rfl
@[simp] theorem State.withOfb_withOfb (s : State) (x y : ModeCtx) : (s.withOfb x).withOfb y = s.withOfb y := rfl

@[simp] theorem State.withCtr_cs (s : State) (x : ModeCtx) : (s.withCtr x).cs = s.cs := rfl
@[simp] theorem State.withCtr_params (s : State) (x : ModeCtx) : (s.withCtr x).params = s.params := rfl
@[simp] theorem State.withCtr_cp (s : State) (x : ModeCtx) : (s.withCtr x).cp = s.cp := rfl
@[simp] theorem State.withCtr_run (s : State) (x : ModeCtx) : (s.withCtr x).run = s.run := rfl
@[simp] theorem State.withCtr_fatal (s : State) (x : ModeCtx) : (s.withCtr x).fatal = s.fatal := rfl
@[simp] theorem State.withCtr_fcode (s : State) (x : ModeCtx) : (s.withCtr x).fcode = s.fcode := rfl
@[simp] theorem State.withCtr_funit (s : State) (x : ModeCtx) : (s.withCtr x).funit = s.funit := rfl
@[simp] theorem State.withCtr_fop (s : State) (x : ModeCtx) : (s.withCtr x).fop = s.fop := rfl
@[simp] theorem State.withCtr_fcp (s : State) (x : ModeCtx) : (s.withCtr x).fcp = s.fcp := rfl
@[simp] theorem State.withCtr_lasterr (s : State) (x : ModeCtx) : (s.withCtr x).lasterr = s.lasterr := rfl
@[simp] theorem State.withCtr_p (s : State) (x : ModeCtx) : (s.withCtr x).p = s.p := rfl
@[simp] theorem State.withCtr_ecb (s : State) (x : ModeCtx) : (s.withCtr x).ecb = s.ecb := rfl
@[simp] theorem State.withCtr_cbc (s : State) (x : ModeCtx) : (s.withCtr x).cbc = s.cbc := rfl
@[simp] theorem State.withCtr_cfb (s : State) (x : ModeCtx) : (s.withCtr x).cfb = s.cfb := rfl
@[simp] theorem State.withCtr_ofb (s : State) (x : ModeCtx) : (s.withCtr x).ofb = s.ofb := rfl
@[simp] theorem State.withCtr_ctr (s : State) (x : ModeCtx) : (s.withCtr x).ctr = x := rfl
@[simp] theorem State.withCtr_g (s : State) (x : ModeCtx) : (s.withCtr x).g = s.g := rfl
@[simp] theorem State.withCtr_b (s : State) (x : ModeCtx) : (s.withCtr x).b = s.b := rfl
@[simp] theorem State.withCtr_hm (s : State) (x : ModeCtx) : (s.withCtr x).hm = s.hm := rfl
@[simp] theorem State.withCtr_km (s : State) (x : ModeCtx) : (s.withCtr x).km = s.km := rfl
@[simp] theorem State.withCtr_rs (s : State) (x : ModeCtx) : (s.withCtr x).rs = s.rs := rfl
@[simp] theorem State.withCtr_self (s : State) : s.withCtr s.ctr = s := rfl
@[simp] theorem State.withCtr_withCtr (s : State) (x y : ModeCtx) : (s.withCtr x).withCtr y = s.withCtr y := rfl

@[simp] theorem State.withG_cs (s : State) (x : Gcm) : (s.withG x).cs = s.cs := rfl
@[simp] theorem State.withG_params (s : State) (x : Gcm) : (s.withG x).params = s.params := rfl
@[simp] theorem State.withG_cp (s : State) (x : Gcm) : (s.withG x).cp = s.cp := rfl
@[simp] theorem State.withG_run (s : State) (x : Gcm) : (s.withG x).run = s.run := rfl
@[simp] theorem State.withG_fatal (s : State) (x : Gcm) : (s.withG x).fatal = s.fatal := rfl
@[simp] theorem State.withG_fcode (s : State) (x : Gcm) : (s.withG x).fcode = s.fcode := rfl
@[simp] theorem State.withG_funit (s : State) (x : Gcm) : (s.withG x).funit = s.funit := rfl
@[simp] theorem State.withG_fop (s : State) (x : Gcm) : (s.withG x).fop = s.fop := rfl
@[simp] theorem State.withG_fcp (s : State) (x : Gcm) : (s.withG x).fcp = s.fcp := rfl
@[simp] theorem State.withG_lasterr (s : State) (x : Gcm) : (s.withG x).lasterr = s.lasterr := rfl
@[simp] theorem State.withG_p (s : State) (x : Gcm) : (s.withG x).p = s.p := rfl
@[simp] theorem State.withG_ecb (s : State) (x : Gcm) : (s.withG x).ecb = s.ecb := rfl
@[simp] theorem State.withG_cbc (s : State) (x : Gcm) : (s.withG x).cbc = s.cbc := rfl
@[simp] theorem State.withG_cfb (s : State) (x : Gcm) : (s.withG x).cfb = s.cfb := rfl
@[simp] theorem State.withG_ofb (s : State) (x : Gcm) : (s.withG x).ofb = s.ofb := rfl
@[simp] theorem State.withG_ctr (s : State) (x : Gcm) : (s.withG x).ctr = s.ctr := rfl
@[simp] theorem State.withG_g (s : State) (x : Gcm) : (s.withG x).g = x := rfl
@[simp] theorem State.withG_b (s : State) (x : Gcm) : (s.withG x).b = s.b := rfl
@[simp] theorem State.withG_hm (s : State) (x : Gcm) : (s.withG x).hm = s.hm := rfl
@[simp] theorem State.withG_km (s : State) (x : Gcm) : (s.withG x).km = s.km := rfl
@[simp] theorem State.withG_rs (s : State) (x : Gcm) : (s.withG x).rs = s.rs := rfl
@[simp] theorem State.withG_self (s : State) : s.withG s.g = s := rfl
@[simp] theorem State.withG_withG (s : State) (x y : Gcm) : (s.withG x).withG y = s.withG y := rfl

@[simp] theorem State.withB_cs (s : State) (x : Bpc) : (s.withB x).cs = s.cs := rfl
@[simp] theorem State.withB_params (s : State) (x : Bpc) : (s.withB x).params = s.params := rfl
@[simp] theorem State.withB_cp (s : State) (x : Bpc) : (s.withB x).cp = s.cp := rfl
@[simp] theorem State.withB_run (s : State) (x : Bpc) : (s.withB x).run = s.run := rfl
@[simp] theorem State.withB_fatal (s : State) (x : Bpc) : (s.withB x).fatal = s.fatal := rfl
@[simp] theorem State.withB_fcode (s : State) (x : Bpc) : (s.withB x).fcode = s.fcode := rfl
@[simp] theorem State.withB_funit (s : State) (x : Bpc) : (s.withB x).funit = s.funit := rfl
@[simp] theorem State.withB_fop (s : State) (x : Bpc) : (s.withB x).fop = s.fop := rfl
@[simp] theorem State.withB_fcp (s : State) (x : Bpc) : (s.withB x).fcp = s.fcp := rfl
@[simp] theorem State.withB_lasterr (s : State) (x : Bpc) : (s.withB x).lasterr = s.lasterr := rfl
@[simp] theorem State.withB_p (s : State) (x : Bpc) : (s.withB x).p = s.p := rfl
@[simp] theorem State.withB_ecb (s : State) (x : Bpc) : (s.withB x).ecb = s.ecb := rfl
@[simp] theorem State.withB_cbc (s : State) (x : Bpc) : (s.withB x).cbc = s.cbc := rfl
@[simp] theorem State.withB_cfb (s : State) (x : Bpc) : (s.withB x).cfb = s.cfb := rfl
@[simp] theorem State.withB_ofb (s : State) (x : Bpc) : (s.withB x).ofb = s.ofb := rfl
@[simp] theorem State.withB_ctr (s : State) (x : Bpc) : (s.withB x).ctr = s.ctr := rfl
@[simp] theorem State.withB_g (s : State) (x : Bpc) : (s.withB x).g = s.g := rfl
@[simp] theorem State.withB_b (s : State) (x : Bpc) : (s.withB x).b = x := rfl
@[simp] theorem State.withB_hm (s : State) (x : Bpc) : (s.withB x).hm = s.hm := rfl
@[simp] theorem State.withB_km (s : State) (x : Bpc) : (s.withB x).km = s.km := rfl
@[simp] theorem State.withB_rs (s : State) (x : Bpc) : (s.withB x).rs = s.rs := rfl
@[simp] theorem State.withB_self (s : State) : s.withB s.b = s := rfl
@[simp] theorem State.withB_withB (s : State) (x y : Bpc) : (s.withB x).withB y = s.withB y := rfl

@[simp] theorem State.withHm_cs (s : State) (x : Hmac) : (s.withHm x).cs = s.cs := rfl
@[simp] theorem State.withHm_params (s : State) (x : Hmac) : (s.withHm x).params = s.params := rfl
@[simp] theorem State.withHm_cp (s : State) (x : Hmac) : (s.withHm x).cp = s.cp := rfl
@[simp] theorem State.withHm_run (s : State) (x : Hmac) : (s.withHm x).run = s.run := rfl
@[simp] theorem State.withHm_fatal (s : State) (x : Hmac) : (s.withHm x).fatal = s.fatal := rfl
@[simp] theorem State.withHm_fcode (s : State) (x : Hmac) : (s.withHm x).fcode = s.fcode := rfl
@[simp] theorem State.withHm_funit (s : State) (x : Hmac) : (s.withHm x).funit = s.funit := rfl
@[simp] theorem State.withHm_fop (s : State) (x : Hmac) : (s.withHm x).fop = s.fop := rfl
@[simp] theorem State.withHm_fcp (s : State) (x : Hmac) : (s.withHm x).fcp = s.fcp := rfl
@[simp] theorem State.withHm_lasterr (s : State) (x : Hmac) : (s.withHm x).lasterr = s.lasterr := rfl
@[simp] theorem State.withHm_p (s : State) (x : Hmac) : (s.withHm x).p = s.p := rfl
@[simp] theorem State.withHm_ecb (s : State) (x : Hmac) : (s.withHm x).ecb = s.ecb := rfl
@[simp] theorem State.withHm_cbc (s : State) (x : Hmac) : (s.withHm x).cbc = s.cbc := rfl
@[simp] theorem State.withHm_cfb (s : State) (x : Hmac) : (s.withHm x).cfb = s.cfb := rfl
@[simp] theorem State.withHm_ofb (s : State) (x : Hmac) : (s.withHm x).ofb = s.ofb := rfl
@[simp] theorem State.withHm_ctr (s : State) (x : Hmac) : (s.withHm x).ctr = s.ctr := rfl
@[simp] theorem State.withHm_g (s : State) (x : Hmac) : (s.withHm x).g = s.g := rfl
@[simp] theorem State.withHm_b (s : State) (x : Hmac) : (s.withHm x).b = s.b := rfl
@[simp] theorem State.withHm_hm (s : State) (x : Hmac) : (s.withHm x).hm = x := rfl
@[simp] theorem State.withHm_km (s : State) (x : Hmac) : (s.withHm x).km = s.km := rfl
@[simp] theorem State.withHm_rs (s : State) (x : Hmac) : (s.withHm x).rs = s.rs := rfl
@[simp] theorem State.withHm_self (s : State) : s.withHm s.hm = s := rfl
@[simp] theorem State.withHm_withHm (s : State) (x y : Hmac) : (s.withHm x).withHm y = s.withHm y := rfl

@[simp] theorem State.withKm_cs (s : State) (x : Kmac) : (s.withKm x).cs = s.cs := rfl
@[simp] theorem State.withKm_params (s : State) (x : Kmac) : (s.withKm x).params = s.params := rfl
@[simp] theorem State.withKm_cp (s : State) (x : Kmac) : (s.withKm x).cp = s.cp := rfl
@[simp] theorem State.withKm_run (s : State) (x : Kmac) : (s.withKm x).run = s.run := rfl
@[simp] theorem State.withKm_fatal (s : State) (x : Kmac) : (s.withKm x).fatal = s.fatal := rfl
@[simp] theorem State.withKm_fcode (s : State) (x : Kmac) : (s.withKm x).fcode = s.fcode := rfl
@[simp] theorem State.withKm_funit (s : State) (x : Kmac) : (s.withKm x).funit = s.funit := rfl
@[simp] theorem State.withKm_fop (s : State) (x : Kmac) : (s.withKm x).fop = s.fop := rfl
@[simp] theorem State.withKm_fcp (s : State) (x : Kmac) : (s.withKm x).fcp = s.fcp := rfl
@[simp] theorem State.withKm_lasterr (s : State) (x : Kmac) : (s.withKm x).lasterr = s.lasterr := rfl
@[simp] theorem State.withKm_p (s : State) (x : Kmac) : (s.withKm x).p = s.p := rfl
@[simp] theorem State.withKm_ecb (s : State) (x : Kmac) : (s.withKm x).ecb = s.ecb := rfl
@[simp] theorem State.withKm_cbc (s : State) (x : Kmac) : (s.withKm x).cbc = s.cbc := rfl
@[simp] theorem State.withKm_cfb (s : State) (x : Kmac) : (s.withKm x).cfb = s.cfb := rfl
@[simp] theorem State.withKm_ofb (s : State) (x : Kmac) : (s.withKm x).ofb = s.ofb := rfl
@[simp] theorem State.withKm_ctr (s : State) (x : Kmac) : (s.withKm x).ctr = s.ctr := rfl
@[simp] theorem State.withKm_g (s : State) (x : Kmac) : (s.withKm x).g = s.g := rfl
@[simp] theorem State.withKm_b (s : State) (x : Kmac) : (s.withKm x).b = s.b := rfl
@[simp] theorem State.withKm_hm (s : State) (x : Kmac) : (s.withKm x).hm = s.hm := rfl
@[simp] theorem State.withKm_km (s : State) (x : Kmac) : (s.withKm x).km = x := rfl
@[simp] theorem State.withKm_rs (s : State) (x : Kmac) : (s.withKm x).rs = s.rs := rfl
@[simp] theorem State.withKm_self (s : State) : s.withKm s.km = s := rfl
@[simp] theorem State.withKm_withKm (s : State) (x y : Kmac) : (s.withKm x).withKm y = s.withKm y := rfl

@[simp] theorem State.completed_cs (s : State) (unit op : BitVec 4) (ilen : Nat) (out : Bytes) :
    (s.completed unit op ilen out).cs = s.cs := rfl
@[simp] theorem State.completed_params (s : State) (unit op : BitVec 4) (ilen : Nat) (out : Bytes) :
    (s.completed unit op ilen out).params = s.params := rfl
@[simp] theorem State.completed_cp (s : State) (unit op : BitVec 4) (ilen : Nat) (out : Bytes) :
    (s.completed unit op ilen out).cp = s.cp + BitVec.ofNat 32 (8 + ilen) := rfl
@[simp] theorem State.completed_run (s : State) (unit op : BitVec 4) (ilen : Nat) (out : Bytes) :
    (s.completed unit op ilen out).run = s.run := rfl
@[simp] theorem State.completed_fatal (s : State) (unit op : BitVec 4) (ilen : Nat) (out : Bytes) :
    (s.completed unit op ilen out).fatal = s.fatal := rfl
@[simp] theorem State.completed_fcode (s : State) (unit op : BitVec 4) (ilen : Nat) (out : Bytes) :
    (s.completed unit op ilen out).fcode = s.fcode := rfl
@[simp] theorem State.completed_funit (s : State) (unit op : BitVec 4) (ilen : Nat) (out : Bytes) :
    (s.completed unit op ilen out).funit = s.funit := rfl
@[simp] theorem State.completed_fop (s : State) (unit op : BitVec 4) (ilen : Nat) (out : Bytes) :
    (s.completed unit op ilen out).fop = s.fop := rfl
@[simp] theorem State.completed_fcp (s : State) (unit op : BitVec 4) (ilen : Nat) (out : Bytes) :
    (s.completed unit op ilen out).fcp = s.fcp := rfl
@[simp] theorem State.completed_lasterr (s : State) (unit op : BitVec 4) (ilen : Nat) (out : Bytes) :
    (s.completed unit op ilen out).lasterr = s.lasterr := rfl
@[simp] theorem State.completed_p (s : State) (unit op : BitVec 4) (ilen : Nat) (out : Bytes) :
    (s.completed unit op ilen out).p = s.p := rfl
@[simp] theorem State.completed_ecb (s : State) (unit op : BitVec 4) (ilen : Nat) (out : Bytes) :
    (s.completed unit op ilen out).ecb = s.ecb := rfl
@[simp] theorem State.completed_cbc (s : State) (unit op : BitVec 4) (ilen : Nat) (out : Bytes) :
    (s.completed unit op ilen out).cbc = s.cbc := rfl
@[simp] theorem State.completed_cfb (s : State) (unit op : BitVec 4) (ilen : Nat) (out : Bytes) :
    (s.completed unit op ilen out).cfb = s.cfb := rfl
@[simp] theorem State.completed_ofb (s : State) (unit op : BitVec 4) (ilen : Nat) (out : Bytes) :
    (s.completed unit op ilen out).ofb = s.ofb := rfl
@[simp] theorem State.completed_ctr (s : State) (unit op : BitVec 4) (ilen : Nat) (out : Bytes) :
    (s.completed unit op ilen out).ctr = s.ctr := rfl
@[simp] theorem State.completed_g (s : State) (unit op : BitVec 4) (ilen : Nat) (out : Bytes) :
    (s.completed unit op ilen out).g = s.g := rfl
@[simp] theorem State.completed_b (s : State) (unit op : BitVec 4) (ilen : Nat) (out : Bytes) :
    (s.completed unit op ilen out).b = s.b := rfl
@[simp] theorem State.completed_hm (s : State) (unit op : BitVec 4) (ilen : Nat) (out : Bytes) :
    (s.completed unit op ilen out).hm = s.hm := rfl
@[simp] theorem State.completed_km (s : State) (unit op : BitVec 4) (ilen : Nat) (out : Bytes) :
    (s.completed unit op ilen out).km = s.km := rfl
@[simp] theorem State.completed_rs (s : State) (unit op : BitVec 4) (ilen : Nat) (out : Bytes) :
    (s.completed unit op ilen out).rs = s.rs ++ wireResponse 0x00 unit op out := rfl

@[simp] theorem State.errored_cs (s : State) (unit op : BitVec 4) (ilen : Nat) (code : BitVec 8) :
    (s.errored unit op ilen code).cs = s.cs := rfl
@[simp] theorem State.errored_params (s : State) (unit op : BitVec 4) (ilen : Nat) (code : BitVec 8) :
    (s.errored unit op ilen code).params = s.params := rfl
@[simp] theorem State.errored_cp (s : State) (unit op : BitVec 4) (ilen : Nat) (code : BitVec 8) :
    (s.errored unit op ilen code).cp = s.cp + BitVec.ofNat 32 (8 + ilen) := rfl
@[simp] theorem State.errored_run (s : State) (unit op : BitVec 4) (ilen : Nat) (code : BitVec 8) :
    (s.errored unit op ilen code).run = s.run := rfl
@[simp] theorem State.errored_fatal (s : State) (unit op : BitVec 4) (ilen : Nat) (code : BitVec 8) :
    (s.errored unit op ilen code).fatal = s.fatal := rfl
@[simp] theorem State.errored_fcode (s : State) (unit op : BitVec 4) (ilen : Nat) (code : BitVec 8) :
    (s.errored unit op ilen code).fcode = s.fcode := rfl
@[simp] theorem State.errored_funit (s : State) (unit op : BitVec 4) (ilen : Nat) (code : BitVec 8) :
    (s.errored unit op ilen code).funit = s.funit := rfl
@[simp] theorem State.errored_fop (s : State) (unit op : BitVec 4) (ilen : Nat) (code : BitVec 8) :
    (s.errored unit op ilen code).fop = s.fop := rfl
@[simp] theorem State.errored_fcp (s : State) (unit op : BitVec 4) (ilen : Nat) (code : BitVec 8) :
    (s.errored unit op ilen code).fcp = s.fcp := rfl
@[simp] theorem State.errored_lasterr (s : State) (unit op : BitVec 4) (ilen : Nat) (code : BitVec 8) :
    (s.errored unit op ilen code).lasterr = code := rfl
@[simp] theorem State.errored_p (s : State) (unit op : BitVec 4) (ilen : Nat) (code : BitVec 8) :
    (s.errored unit op ilen code).p = s.p := rfl
@[simp] theorem State.errored_ecb (s : State) (unit op : BitVec 4) (ilen : Nat) (code : BitVec 8) :
    (s.errored unit op ilen code).ecb = s.ecb := rfl
@[simp] theorem State.errored_cbc (s : State) (unit op : BitVec 4) (ilen : Nat) (code : BitVec 8) :
    (s.errored unit op ilen code).cbc = s.cbc := rfl
@[simp] theorem State.errored_cfb (s : State) (unit op : BitVec 4) (ilen : Nat) (code : BitVec 8) :
    (s.errored unit op ilen code).cfb = s.cfb := rfl
@[simp] theorem State.errored_ofb (s : State) (unit op : BitVec 4) (ilen : Nat) (code : BitVec 8) :
    (s.errored unit op ilen code).ofb = s.ofb := rfl
@[simp] theorem State.errored_ctr (s : State) (unit op : BitVec 4) (ilen : Nat) (code : BitVec 8) :
    (s.errored unit op ilen code).ctr = s.ctr := rfl
@[simp] theorem State.errored_g (s : State) (unit op : BitVec 4) (ilen : Nat) (code : BitVec 8) :
    (s.errored unit op ilen code).g = s.g := rfl
@[simp] theorem State.errored_b (s : State) (unit op : BitVec 4) (ilen : Nat) (code : BitVec 8) :
    (s.errored unit op ilen code).b = s.b := rfl
@[simp] theorem State.errored_hm (s : State) (unit op : BitVec 4) (ilen : Nat) (code : BitVec 8) :
    (s.errored unit op ilen code).hm = s.hm := rfl
@[simp] theorem State.errored_km (s : State) (unit op : BitVec 4) (ilen : Nat) (code : BitVec 8) :
    (s.errored unit op ilen code).km = s.km := rfl
@[simp] theorem State.errored_rs (s : State) (unit op : BitVec 4) (ilen : Nat) (code : BitVec 8) :
    (s.errored unit op ilen code).rs = s.rs ++ wireResponse code unit op [] := rfl

@[simp] theorem State.haltedBy_cs (s : State) (unit op : BitVec 4) (code : BitVec 8) :
    (s.haltedBy unit op code).cs = s.cs := rfl
@[simp] theorem State.haltedBy_params (s : State) (unit op : BitVec 4) (code : BitVec 8) :
    (s.haltedBy unit op code).params = s.params := rfl
@[simp] theorem State.haltedBy_cp (s : State) (unit op : BitVec 4) (code : BitVec 8) :
    (s.haltedBy unit op code).cp = s.cp := rfl
@[simp] theorem State.haltedBy_run (s : State) (unit op : BitVec 4) (code : BitVec 8) :
    (s.haltedBy unit op code).run = .halted := rfl
@[simp] theorem State.haltedBy_fatal (s : State) (unit op : BitVec 4) (code : BitVec 8) :
    (s.haltedBy unit op code).fatal = true := rfl
@[simp] theorem State.haltedBy_fcode (s : State) (unit op : BitVec 4) (code : BitVec 8) :
    (s.haltedBy unit op code).fcode = code := rfl
@[simp] theorem State.haltedBy_funit (s : State) (unit op : BitVec 4) (code : BitVec 8) :
    (s.haltedBy unit op code).funit = unit := rfl
@[simp] theorem State.haltedBy_fop (s : State) (unit op : BitVec 4) (code : BitVec 8) :
    (s.haltedBy unit op code).fop = op := rfl
@[simp] theorem State.haltedBy_fcp (s : State) (unit op : BitVec 4) (code : BitVec 8) :
    (s.haltedBy unit op code).fcp = s.cp := rfl
@[simp] theorem State.haltedBy_lasterr (s : State) (unit op : BitVec 4) (code : BitVec 8) :
    (s.haltedBy unit op code).lasterr = s.lasterr := rfl
@[simp] theorem State.haltedBy_p (s : State) (unit op : BitVec 4) (code : BitVec 8) :
    (s.haltedBy unit op code).p = s.p := rfl
@[simp] theorem State.haltedBy_ecb (s : State) (unit op : BitVec 4) (code : BitVec 8) :
    (s.haltedBy unit op code).ecb = s.ecb := rfl
@[simp] theorem State.haltedBy_cbc (s : State) (unit op : BitVec 4) (code : BitVec 8) :
    (s.haltedBy unit op code).cbc = s.cbc := rfl
@[simp] theorem State.haltedBy_cfb (s : State) (unit op : BitVec 4) (code : BitVec 8) :
    (s.haltedBy unit op code).cfb = s.cfb := rfl
@[simp] theorem State.haltedBy_ofb (s : State) (unit op : BitVec 4) (code : BitVec 8) :
    (s.haltedBy unit op code).ofb = s.ofb := rfl
@[simp] theorem State.haltedBy_ctr (s : State) (unit op : BitVec 4) (code : BitVec 8) :
    (s.haltedBy unit op code).ctr = s.ctr := rfl
@[simp] theorem State.haltedBy_g (s : State) (unit op : BitVec 4) (code : BitVec 8) :
    (s.haltedBy unit op code).g = s.g := rfl
@[simp] theorem State.haltedBy_b (s : State) (unit op : BitVec 4) (code : BitVec 8) :
    (s.haltedBy unit op code).b = s.b := rfl
@[simp] theorem State.haltedBy_hm (s : State) (unit op : BitVec 4) (code : BitVec 8) :
    (s.haltedBy unit op code).hm = s.hm := rfl
@[simp] theorem State.haltedBy_km (s : State) (unit op : BitVec 4) (code : BitVec 8) :
    (s.haltedBy unit op code).km = s.km := rfl
@[simp] theorem State.haltedBy_rs (s : State) (unit op : BitVec 4) (code : BitVec 8) :
    (s.haltedBy unit op code).rs = s.rs ++ wireResponse code unit op [] := rfl

@[simp] theorem endRun_cs (s : State) : (endRun s).cs = s.cs := rfl
@[simp] theorem endRun_params (s : State) : (endRun s).params = s.params := rfl
@[simp] theorem endRun_cp (s : State) : (endRun s).cp = s.cp := rfl
@[simp] theorem endRun_run (s : State) : (endRun s).run = .done := rfl
@[simp] theorem endRun_fatal (s : State) : (endRun s).fatal = s.fatal := rfl
@[simp] theorem endRun_fcode (s : State) : (endRun s).fcode = s.fcode := rfl
@[simp] theorem endRun_funit (s : State) : (endRun s).funit = s.funit := rfl
@[simp] theorem endRun_fop (s : State) : (endRun s).fop = s.fop := rfl
@[simp] theorem endRun_fcp (s : State) : (endRun s).fcp = s.fcp := rfl
@[simp] theorem endRun_lasterr (s : State) : (endRun s).lasterr = s.lasterr := rfl
@[simp] theorem endRun_p (s : State) : (endRun s).p = s.p := rfl
@[simp] theorem endRun_ecb (s : State) : (endRun s).ecb = s.ecb := rfl
@[simp] theorem endRun_cbc (s : State) : (endRun s).cbc = s.cbc := rfl
@[simp] theorem endRun_cfb (s : State) : (endRun s).cfb = s.cfb := rfl
@[simp] theorem endRun_ofb (s : State) : (endRun s).ofb = s.ofb := rfl
@[simp] theorem endRun_ctr (s : State) : (endRun s).ctr = s.ctr := rfl
@[simp] theorem endRun_g (s : State) : (endRun s).g = s.g := rfl
@[simp] theorem endRun_b (s : State) : (endRun s).b = s.b := rfl
@[simp] theorem endRun_hm (s : State) : (endRun s).hm = s.hm := rfl
@[simp] theorem endRun_km (s : State) : (endRun s).km = s.km := rfl
@[simp] theorem endRun_rs (s : State) : (endRun s).rs = s.rs := rfl

end Sys2Proof.Machine
end

