-- ==== Sys2Proof/Laws/Ops.lean ====
section
/-! SUPPORT. The shared operations of Ops.lean: a response packet byte by byte, the three ends of a command as states,
and what a fetch can find. Cite these instead of unfolding `respond`, `returnOk`, `returnErr`, `raiseFatal`, `fetch`. -/

namespace Sys2Proof.Machine

open Sys2Proof.Config

/-- The bytes of a 64-bit word, most significant first. -/
theorem beBytes_eight (w : BitVec 64) :
    beBytes 8 w.toNat = [w.extractLsb' 56 8, w.extractLsb' 48 8, w.extractLsb' 40 8, w.extractLsb' 32 8,
      w.extractLsb' 24 8, w.extractLsb' 16 8, w.extractLsb' 8 8, w.extractLsb' 0 8] := by
  simp [beBytes, BitVec.extractLsb', BitVec.ofNat_toNat]

/-- A response packet is the eight bytes of R96 and the output. -/
theorem responsePacket_eq (status : BitVec 8) (unit op : BitVec 4) (out : Bytes) :
    responsePacket status unit op out = wireResponse status unit op out := by
  have hw : (responseWord status unit op out.length).toNat =
      (((status.toNat * 16 + unit.toNat) * 16 + op.toNat) * 16777216 + out.length % 16777216) * 16777216 := by
    simp only [responseWord, toNat_append_eq, BitVec.toNat_ofNat]
    norm_num
    rfl
  have := status.isLt; have := unit.isLt; have := op.isLt
  rw [responsePacket, beBytes_eight, wireResponse]
  congr 1
  simp only [List.cons.injEq, and_true]
  have h0 : (0 : BitVec 8).toNat = 0 := rfl
  refine ⟨?_, ?_, ?_, ?_, ?_, ?_, ?_, ?_⟩ <;> apply BitVec.eq_of_toNat_eq <;>
    simp only [BitVec.extractLsb'_toNat, hw, Nat.shiftRight_eq_div_pow, BitVec.toNat_ofNat, toNat_append_eq, h0] <;>
    norm_num <;> omega

@[simp] theorem returnOk_eq (unit op : BitVec 4) (ilen : Nat) (out : Bytes) (s : State) :
    returnOk unit op ilen out s = s.completed unit op ilen out := by
  simp [returnOk, State.completed, responsePacket_eq, nextCp]

@[simp] theorem returnErr_eq (unit op : BitVec 4) (ilen : Nat) (e : ErrCode) (s : State) :
    returnErr unit op ilen e s = s.errored unit op ilen e.code := by
  simp [returnErr, State.errored, responsePacket_eq, nextCp]

@[simp] theorem raiseFatal_eq (unit op : BitVec 4) (f : FatalCode) (s : State) :
    raiseFatal unit op f s = s.haltedBy unit op f.code := by
  simp [raiseFatal, State.haltedBy, responsePacket_eq]

@[simp] theorem respond_ok (i : Instr) (s t : State) (out : Bytes) :
    respond i s (.ok t out) = .next (t.completed i.unit i.op i.ilen out) := by
  simp [respond]

@[simp] theorem respond_err (i : Instr) (s : State) (e : ErrCode) :
    respond i s (.err e) = .next (s.errored i.unit i.op i.ilen e.code) := by
  simp [respond]

@[simp] theorem respond_fatal (i : Instr) (s : State) (f : FatalCode) :
    respond i s (.fatal f) = .next (s.haltedBy i.unit i.op f.code) := by
  simp [respond]

end Sys2Proof.Machine
end

