-- ==== Sys2Proof/Laws/Exec.lean ====
section
/-! SUPPORT. Every meaning ends its command with `respond`: `resultOf` names the result, and `exec_eq_respond` says so for
all commands at once, so that a statement about all commands is one about results. -/

namespace Sys2Proof.Machine

open Sys2Proof.Config

/-- How the rule of a command ends in a state. -/
def resultOf (i : Instr) (s : State) : CmdResult :=
  match i with
  | .sysNop => .ok s []
  | .sysLdkey data => stage s data { s.p with key := data, keyv := true }
  | .sysClrkey => .ok (s.withP { s.p with key := [], keyv := false }) []
  | .sysLdiv data => stage s data { s.p with iv := data, ivv := true }
  | .sysClriv => .ok (s.withP { s.p with iv := [], ivv := false }) []
  | .sysLdaad data => stage s data { s.p with aad := data, aadv := true }
  | .sysClraad => .ok (s.withP { s.p with aad := [], aadv := false }) []
  | .sysLdmac imm => .ok (s.withP { s.p with mac := imm, macv := true }) []
  | .sysClrmac => .ok (s.withP { s.p with mac := 0, macv := false }) []
  | .sysStatus ocap => if ocap.toNat < 4 then .fatal .bufLen else .ok s (statusBytes s)
  | .gfXor data ocap =>
    if data.length ≠ 32 ∨ ocap.toNat < 16 then .fatal .bufLen
    else .ok s (bytesOfBlock (gfXor (operandBlock data) (operandBlock2 data)))
  | .gfMul data ocap =>
    if data.length ≠ 32 ∨ ocap.toNat < 16 then .fatal .bufLen
    else .ok s (bytesOfBlock (gfMul (operandBlock data) (operandBlock2 data)))
  | .gfGhash data ocap =>
    if data.length < 32 ∨ ocap.toNat < 16 then .fatal .bufLen
    else .ok s (bytesOfBlock (ghash (operandBlock2 data) (data.drop 32) (operandBlock data)))
  | .ecbCfg => .ok (s.withEcb ModeCtx.reset) []
  | .ecbInit dir ptype => initResult s.withEcb (modeInit .ecb dir ptype s.p s.ecb)
  | .ecbReset => .ok (s.withEcb (modeReset .ecb s.ecb)) []
  | .ecbBlock data ocap => blockFrame .ecb s.params.ctrOrder s.ecb s.withEcb data ocap
  | .cbcCfg => .ok (s.withCbc ModeCtx.reset) []
  | .cbcInit dir ptype => initResult s.withCbc (modeInit .cbc dir ptype s.p s.cbc)
  | .cbcReset => .ok (s.withCbc (modeReset .cbc s.cbc)) []
  | .cbcBlock data ocap => blockFrame .cbc s.params.ctrOrder s.cbc s.withCbc data ocap
  | .cfbCfg imm => fbCfgResult s.withCfb imm
  | .cfbInit dir ptype => initResult s.withCfb (modeInit .cfb dir ptype s.p s.cfb)
  | .cfbReset => .ok (s.withCfb (modeReset .cfb s.cfb)) []
  | .cfbBlock data ocap => blockFrame .cfb s.params.ctrOrder s.cfb s.withCfb data ocap
  | .cfbBytes data ocap => bytesFrame s.cfb s.withCfb (some (fbBytes .cfb s.cfb data)) data ocap
  | .ofbCfg imm => fbCfgResult s.withOfb imm
  | .ofbInit dir ptype => initResult s.withOfb (modeInit .ofb dir ptype s.p s.ofb)
  | .ofbReset => .ok (s.withOfb (modeReset .ofb s.ofb)) []
  | .ofbBlock data ocap => blockFrame .ofb s.params.ctrOrder s.ofb s.withOfb data ocap
  | .ofbBytes data ocap => bytesFrame s.ofb s.withOfb (some (fbBytes .ofb s.ofb data)) data ocap
  | .ctrCfg => .ok (s.withCtr ModeCtx.reset) []
  | .ctrInit dir ptype => initResult s.withCtr (modeInit .ctr dir ptype s.p s.ctr)
  | .ctrReset => .ok (s.withCtr (modeReset .ctr s.ctr)) []
  | .ctrBlock data ocap => blockFrame .ctr s.params.ctrOrder s.ctr s.withCtr data ocap
  | .ctrBytes data ocap => bytesFrame s.ctr s.withCtr (ctrBytes s.params.ctrOrder s.ctr data) data ocap
  | .gcmCfg => .ok (s.withG Gcm.reset) []
  | .gcmInit dir ptype => gcmInitResult dir ptype s
  | .gcmReset => .ok (s.withG Gcm.reset) []
  | .gcmBytes data ocap => gcmBytesResult data ocap s
  | .gcmAad data => gcmAadResult data s
  | .gcmFinal ocap => gcmFinalResult ocap s
  | .gcmOsize len ocap =>
    if ocap.toNat < 8 then .fatal .bufLen
    else if s.g.inited then .ok s (beBytes 8 (gcmOutputSize s.g len.toNat))
    else .err .uninit
  | .bpcCfg kind imm => bpcCfgResult kind imm s
  | .bpcInit dir ptype => bpcInitResult dir ptype s
  | .bpcReset => bpcResetResult s
  | .bpcBytes data ocap => whenReady s fun k => bpcBytesReady k data ocap s
  | .bpcFinal ocap => whenReady s fun k => bpcFinalReady k ocap s
  | .bpcOsize len ocap =>
    if ocap.toNat < 8 then .fatal .bufLen
    else whenReady s fun k => .ok s (beBytes 8 (bpcOutputSize (mbs k s.b.m) s.b len.toNat))
  | .hmacCfg => .ok (s.withHm Hmac.reset) []
  | .hmacInit _ ptype => hmacInitResult ptype s
  | .hmacReset => hmacResetResult s
  | .hmacUpdate data => hmacUpdateResult data s
  | .hmacFinal ocap => hmacFinalResult ocap s
  | .kmacCfg imm => .ok (s.withKm { Kmac.reset with macbits := macSizeOf imm }) []
  | .kmacInit _ ptype => kmacInitResult ptype s
  | .kmacReset => kmacResetResult s
  | .kmacUpdate data => kmacUpdateResult data s
  | .kmacFinal ocap => kmacFinalResult ocap s

theorem exec_eq_respond (i : Instr) (s : State) : exec i s = respond i s (resultOf i s) := by
  cases i <;> rfl

end Sys2Proof.Machine
end

