-- ==== Sys2Proof/Laws/Frame.lean ====
section
/-! SUPPORT. What every command can do, said once: the inversion lemmas of the shared result forms, the frame of a
successful command, the statuses of a failing one, and what a command does not look at. -/

namespace Sys2Proof.Machine

open Sys2Proof.Config

/-! ## Inversion of the shared result forms -/

theorem stage_ok {s t : State} {d out : Bytes} {p : Staged} (h : stage s d p = .ok t out) :
    t = s.withP p ∧ out = [] ∧ fits s.params.capP d.length = true := by
  unfold stage at h; split at h <;> cases h; exact ⟨rfl, rfl, ‹_›⟩

theorem stage_err {s : State} {d : Bytes} {p : Staged} {e} (h : stage s d p = .err e) :
    e = .limit ∧ fits s.params.capP d.length = false := by
  unfold stage at h; split at h <;> cases h; rename_i hf; exact ⟨rfl, by simpa using hf⟩

theorem initResult_ok {put : ModeCtx → State} {r t out} (h : initResult put r = .ok t out) :
    ∃ m, r = .ok m ∧ t = put m ∧ out = [] := by
  cases r <;> cases h; exact ⟨_, rfl, rfl, rfl⟩

theorem fbCfgResult_ok {put : ModeCtx → State} {imm t out} (h : fbCfgResult put imm = .ok t out) :
    t = put (modeFresh (imm.toNat / 8)) ∧ out = [] ∧ fbSizeLegal imm = true := by
  unfold fbCfgResult at h; split at h <;> cases h; exact ⟨rfl, rfl, ‹_›⟩

theorem dataResult_ok {put : ModeCtx → State} {r t out} (h : dataResult put r = .ok t out) :
    ∃ m, r = some (m, out) ∧ t = put m := by
  unfold dataResult at h; split at h <;> cases h; exact ⟨_, rfl, rfl⟩

theorem blockFrame_ok {k order m} {put : ModeCtx → State} {d o t out} (h : blockFrame k order m put d o = .ok t out) :
    mbs k m ≤ d.length ∧ mbs k m ≤ o.toNat ∧ m.inited = true ∧
      ∃ m', blockStep k order m (d.take (mbs k m)) = some (m', out) ∧ t = put m' := by
  unfold blockFrame at h
  split at h
  · cases h
  · split at h
    · exact ⟨by omega, by omega, ‹_›, dataResult_ok h⟩
    · cases h

theorem bytesFrame_ok {m} {put : ModeCtx → State} {r d o t out} (h : bytesFrame m put r d o = .ok t out) :
    d.length ≤ o.toNat ∧ m.inited = true ∧ ∃ m', r = some (m', out) ∧ t = put m' := by
  unfold bytesFrame at h
  split at h
  · cases h
  · split at h
    · exact ⟨by omega, ‹_›, dataResult_ok h⟩
    · cases h

theorem whenReady_ok {s f t out} (h : whenReady s f = .ok t out) :
    ∃ k, s.b.mode = some k ∧ s.b.inited = true ∧ s.b.finished = false ∧ f k = .ok t out := by
  unfold whenReady at h
  split at h
  · cases h
  · split at h
    · rename_i hk hr
      simp [bpcReady, hk] at hr
      exact ⟨_, hk, hr.1, hr.2, h⟩
    · cases h

/-- A successful command leaves the engine registers, the response stream and every other unit alone. -/
theorem resultOf_ok_frame {i : Instr} {s t : State} {out : Bytes} (h : resultOf i s = .ok t out) :
    OnlyUnitChanged i.unit s t ∧ SameEngine s t := by
  cases i <;> simp only [resultOf] at h
  all_goals first
    | (obtain ⟨rfl, -⟩ := stage_ok h)
    | (obtain ⟨m, -, rfl, -⟩ := initResult_ok h)
    | (obtain ⟨rfl, -⟩ := fbCfgResult_ok h)
    | (obtain ⟨-, -, -, m, -, rfl⟩ := blockFrame_ok h)
    | (obtain ⟨-, -, m, -, rfl⟩ := bytesFrame_ok h)
    | skip
  all_goals try simp only [gcmInitResult, gcmAadResult, gcmBytesResult,
    gcmFinalResult, gcmFinalEnc, gcmFinalDec, bpcCfgResult, bpcInitResult, bpcResetResult, whenReady,
    bpcBytesReady, bpcFinalReady, bpcFinalEnc, bpcFinalDec, dataResult, hmacInitResult,
    hmacResetResult, hmacUpdateResult, hmacFinalResult, kmacInitResult, kmacResetResult,
    kmacUpdateResult, kmacFinalResult] at h
  all_goals try (repeat' split at h)
  all_goals try cases h
  all_goals simp [OnlyUnitChanged, SameEngine, Instr.unit, Instr.packet]

/-! ## The statuses of a failing command -/

/-- The statuses of an `INIT` of a mode context (R322). -/
theorem modeInit_error {k dir t p m f} (h : modeInit k dir t p m = .error f) : f.code ∈ initStatuses k := by
  simp only [modeInit] at h
  split at h
  · rename_i hs
    simp only [modeShape] at hs
    cases h
    repeat' split at hs
    all_goals try cases hs
    all_goals cases k <;> simp_all [initStatuses, FatalCode.code]
  · split at h
    · split at h
      · rename_i hk
        cases h
        simp only [modeKeyError] at hk
        repeat' split at hk
        all_goals try cases hk
        all_goals cases k <;> simp_all [initStatuses, FatalCode.code]
      · cases h
    · rename_i hs _
      cases h
      simp only [modeShape, ivLengthOk] at *
      repeat' split at hs
      all_goals try cases hs
      all_goals cases k <;> simp_all [initStatuses, FatalCode.code]

/-- Only the byte step of CTR can drift (R203, R204). -/
theorem blockStep_none {k order m x} (h : blockStep k order m x = none) : k = .ctr := by
  cases k <;> simp [blockStep] at h ⊢

theorem blockSteps_none {k order m xs} (h : blockSteps k order m xs = none) : k = .ctr := by
  induction xs generalizing m with
  | nil => cases h
  | cons x xs ih =>
    simp only [blockSteps] at h
    split at h
    · exact blockStep_none ‹_›
    · split at h
      · exact ih ‹_›
      · cases h

/-- The class of a result and its code are those listed. -/
def CmdResult.Listed (l : List (BitVec 8)) : CmdResult → Prop
  | .ok _ _ => True
  | .err e => e.code ∈ l
  | .fatal f => f.code ∈ l

theorem limitStatus_of_not_fits {cap n} (h : ¬ fits cap n = true) : (0x17 : BitVec 8) ∈ limitStatus cap := by
  cases cap <;> simp_all [fits, limitStatus]

/-- A command ends in success or in a status listed for it (R322, D43). -/
theorem resultOf_listed (i : Instr) (s : State) : (resultOf i s).Listed (listedStatuses s i) := by
  have hl := fun n => @limitStatus_of_not_fits s.params.capP n
  have hl2 := fun n => @limitStatus_of_not_fits s.params.capMsg n
  cases i <;> simp only [resultOf]
  all_goals try simp only [stage, fbCfgResult, blockFrame, bytesFrame, dataResult, initResult,
    gcmInitResult, gcmAadResult, gcmBytesResult,
    gcmFinalResult, gcmFinalEnc, gcmFinalDec, bpcCfgResult, bpcInitResult, bpcResetResult, whenReady,
    bpcBytesReady, bpcFinalReady, bpcFinalEnc, bpcFinalDec, dataResult, hmacInitResult,
    hmacResetResult, hmacUpdateResult, hmacFinalResult, kmacInitResult, kmacResetResult,
    kmacUpdateResult, kmacFinalResult]
  all_goals (repeat' split)
  all_goals simp_all [CmdResult.Listed, listedStatuses, ErrCode.code, FatalCode.code]
  all_goals first
   | exact modeInit_error ‹_›
   | (cases blockStep_none ‹_›; done)
   | simp_all [blockStep_none ‹_›, driftStatus]
   | simp_all [blockSteps_none ‹_›, driftStatus]
   | exact hl _ ‹_›
   | exact hl2 _ ‹_›
   | (left; split <;> simp)
   | (split <;> simp)

/-! ## A command sees only its view -/

/-- Two results end the same way: same output and states that agree on the view of unit `u`, or the same error. -/
def CmdResult.SameEnd (u : BitVec 4) (r r' : CmdResult) : Prop :=
  match r with
  | .ok s out => ∃ s', r' = .ok s' out ∧ SameView u s s'
  | .err e => r' = .err e
  | .fatal f => r' = .fatal f

theorem sameEnd_data {u} {put put' : ModeCtx → State} (h : ∀ m, SameView u (put m) (put' m)) (r) :
    (dataResult put r).SameEnd u (dataResult put' r) := by
  rcases r with _ | ⟨m, out⟩
  · rfl
  · exact ⟨_, rfl, h m⟩

theorem sameEnd_init {u} {put put' : ModeCtx → State} (h : ∀ m, SameView u (put m) (put' m)) (r) :
    (initResult put r).SameEnd u (initResult put' r) := by
  rcases r with _ | m
  · rfl
  · exact ⟨_, rfl, h m⟩

theorem sameEnd_ite {u} {c : Prop} [Decidable c] {a b a' b' : CmdResult} (ha : c → a.SameEnd u a')
    (hb : ¬ c → b.SameEnd u b') :
    (if c then a else b).SameEnd u (if c then a' else b') := by
  split
  · exact ha ‹_›
  · exact hb ‹_›

/-- What a command but SYS.STATUS does depends on its view alone (R5). -/
theorem resultOf_sameView {i : Instr} {s t : State} (hi : ∀ o, i ≠ .sysStatus o) (h : SameView i.unit s t) :
    (resultOf i s).SameEnd i.unit (resultOf i t) := by
  obtain ⟨hparams, hp, h2, h3, h4, h5, h6, h7, h8, h9, h10⟩ := h
  cases i <;> first | (exact absurd rfl (hi _)) | skip
  all_goals simp only [Instr.unit, Instr.packet, BitVec.reduceEq, forall_const,
    IsEmpty.forall_iff] at h2 h3 h4 h5 h6 h7 h8 h9 h10
  all_goals try simp only [resultOf, hparams, hp, h2, h3, h4, h5, h6, h7, h8, h9, h10, stage,
    fbCfgResult, blockFrame, bytesFrame, gcmInitResult, gcmAadResult,
    gcmBytesResult, gcmFinalResult, gcmFinalEnc, gcmFinalDec, bpcCfgResult, bpcInitResult, bpcResetResult, whenReady,
    bpcBytesReady, bpcFinalReady, bpcFinalEnc, bpcFinalDec, hmacInitResult, hmacResetResult,
    hmacUpdateResult, hmacFinalResult, kmacInitResult, kmacResetResult,
    kmacUpdateResult, kmacFinalResult]
  all_goals repeat'
    (first | refine sameEnd_ite (fun _ => ?_) (fun _ => ?_) | apply sameEnd_data | apply sameEnd_init | split)
  all_goals first
    | rfl
    | (refine ⟨_, rfl, ?_⟩; simp [SameView, Instr.unit, Instr.packet, *])
    | (intro m; simp [SameView, Instr.unit, Instr.packet, *])

/-! ## A command looks at neither stream -/

/-- Exchange the two streams of a state. -/
def State.withStreams (s : State) (cs rs : Bytes) : State := { s with cs := cs, rs := rs }

/-- Apply a function to the state of a successful result. -/
def CmdResult.mapState (f : State → State) : CmdResult → CmdResult
  | .ok s out => .ok (f s) out
  | .err e => .err e
  | .fatal c => .fatal c

theorem mapState_ite (f : State → State) (c : Prop) [Decidable c] (a b : CmdResult) :
    (if c then a else b).mapState f = if c then a.mapState f else b.mapState f := by split <;> rfl

theorem mapState_data (f : State → State) (put) (r) :
    (dataResult put r).mapState f = dataResult (fun m => f (put m)) r := by
  rcases r with _ | ⟨_, _⟩ <;> rfl

theorem mapState_init (f : State → State) (put) (r) :
    (initResult put r).mapState f = initResult (fun m => f (put m)) r := by
  rcases r with _ | _ <;> rfl

/-- What a command does depends on neither stream (R71, R72). -/
theorem resultOf_withStreams (i : Instr) (s : State) (cs rs : Bytes) :
    resultOf i (s.withStreams cs rs) = (resultOf i s).mapState (fun t => t.withStreams cs rs) := by
  cases i
  all_goals try simp only [resultOf, stage, fbCfgResult, blockFrame, bytesFrame, gcmInitResult, gcmAadResult,
    gcmBytesResult, gcmFinalResult, gcmFinalEnc, gcmFinalDec, bpcCfgResult, bpcInitResult, bpcResetResult, whenReady,
    bpcBytesReady, bpcFinalReady, bpcFinalEnc, bpcFinalDec, hmacInitResult, hmacResetResult,
    hmacUpdateResult, hmacFinalResult, kmacInitResult, kmacResetResult, kmacUpdateResult, kmacFinalResult,
    mapState_ite, mapState_data, mapState_init]
  all_goals try rfl
  all_goals simp only [State.withStreams]
  all_goals repeat' split
  all_goals first
   | rfl
   | (simp_all [mapState_ite, mapState_data]; rfl)
   | (simp_all [CmdResult.mapState]; done)
   | skip
  rename_i hr
  refine (if_pos hr).trans (Eq.trans ?_ (mapState_ite _ _ _ _).symm)
  refine if_congr Iff.rfl ?_ ?_
  · rw [mapState_ite, mapState_data]; rfl
  · rw [mapState_ite]
    refine if_congr Iff.rfl rfl ?_
    show (match blockStep _ s.params.ctrOrder s.b.m s.b.buf with | none => _ | some (m, d) => _) = _
    rcases blockStep _ s.params.ctrOrder s.b.m s.b.buf with _ | ⟨m, d⟩
    · rfl
    · rcases h : padCount d with _ | c <;> simp only [h, mapState_ite] <;> rfl

end Sys2Proof.Machine
end

