-- ==== Sys2Proof/Laws/Modes.lean ====
section
/-! SUPPORT. The shared operations of Modes.lean: legal lengths and feedback sizes, what INIT and RESET can leave, the
byte steps of CFB, OFB and CTR over whole sequences, the block step. -/

namespace Sys2Proof.Machine

open Sys2Proof.Config

/-! ## Operands -/

theorem fbSizeLegal_iff (imm : BitVec 24) :
    fbSizeLegal imm = true ↔ imm.toNat ≠ 0 ∧ imm.toNat % 8 = 0 ∧ imm.toNat ≤ 128 := by
  have h : (decide (8 * bs < imm.toNat)) = decide (128 < imm.toNat) := rfl
  rw [fbSizeLegal, h]
  simp only [Bool.not_eq_true', Bool.or_eq_false_iff, beq_eq_false_iff_ne, bne_eq_false_iff_eq,
    decide_eq_false_iff_not, not_lt, and_assoc]

theorem ivLengthOk_ctr_iff (iv : Bytes) : ivLengthOk .ctr (some iv) = true ↔ 8 ≤ iv.length ∧ iv.length ≤ 16 := by
  have h : ivLengthOk .ctr (some iv) = !(decide (16 < iv.length) || decide (8 < 16 - iv.length)) := rfl
  rw [h]
  simp only [Bool.not_eq_true', Bool.or_eq_false_iff, decide_eq_false_iff_not, not_lt]
  omega

/-- Zero bytes at the end of a short sequence do not change its block. -/
theorem blockOfBytes_append_zeros (a : Bytes) (n : Nat) : blockOfBytes (a ++ zeros n) = blockOfBytes a := by
  apply blockByte_ext
  intro i hi
  rw [blockByte_blockOfBytes _ hi, blockByte_blockOfBytes _ hi, List.getD_eq_getElem?_getD,
    List.getD_eq_getElem?_getD, List.getElem?_append]
  split
  · rfl
  · rw [List.getElem?_eq_none (by omega : a.length ≤ i), zeros, List.getElem?_replicate]
    split <;> rfl

theorem take_bytesOfBlock_blockOfBytes (a : Bytes) (h : a.length ≤ 16) :
    (bytesOfBlock (blockOfBytes a)).take a.length = a := by
  rw [bytesOfBlock_blockOfBytes_of_le h, List.take_left]

/-! ## Initialisation and reset (R160, R161) -/

/-- Everything a successful `ModeInit` says: its four checks passed, and the context is the committed one, reset. -/
theorem modeInit_ok {k : Kind} {dir : Bool} {t : PType} {p : Staged} {m m' : ModeCtx}
    (h : modeInit k dir t p m = .ok m') :
    ∃ haskey iv, modeShape k t p = .ok (haskey, iv) ∧ ivLengthOk k iv = true ∧ modeKeyError k dir haskey p m = none ∧
      m' = modeReset k (modeCommit k dir haskey iv p m) := by
  unfold modeInit at h
  split at h
  · cases h
  · split at h
    · split at h
      · cases h
      · cases h; exact ⟨_, _, ‹_›, ‹_›, ‹_›, rfl⟩
    · cases h

/-- A context that is not initialised is left alone by a reset. -/
theorem modeReset_of_not_inited {k : Kind} {m : ModeCtx} (h : m.inited = false) : modeReset k m = m := by
  simp [modeReset, h]

/-- The fields a reset never writes. -/
theorem modeReset_frame (k : Kind) (m : ModeCtx) :
    modeReset k m =
      { m with r := (modeReset k m).r, cur := (modeReset k m).cur, ks := (modeReset k m).ks, fb := (modeReset k m).fb } := by
  unfold modeReset; split <;> rfl

/-! ## The byte step of CFB and OFB over a sequence (R180, R185) -/

@[simp] theorem fbBytes_nil (k : Kind) (m : ModeCtx) : fbBytes k m [] = (m, []) := rfl

theorem fbBytes_cons (k : Kind) (m : ModeCtx) (b : Byte) (d : Bytes) :
    fbBytes k m (b :: d) =
      ((fbBytes k (fbByteStep k m b).1 d).1, (fbByteStep k m b).2 :: (fbBytes k (fbByteStep k m b).1 d).2) := rfl

@[simp] theorem fbBytes_length (k : Kind) (m : ModeCtx) (d : Bytes) : (fbBytes k m d).2.length = d.length := by
  induction d generalizing m with
  | nil => rfl
  | cons b d ih => simp [fbBytes_cons, ih]

theorem fbBytes_append (k : Kind) (m : ModeCtx) (a b : Bytes) :
    fbBytes k m (a ++ b) =
      ((fbBytes k (fbBytes k m a).1 b).1, (fbBytes k m a).2 ++ (fbBytes k (fbBytes k m a).1 b).2) := by
  induction a generalizing m with
  | nil => rfl
  | cons x a ih => simp [fbBytes_cons, ih]

/-- The fields that a byte step of CFB and OFB never writes. -/
theorem fbByteStep_frame (k : Kind) (m : ModeCtx) (b : Byte) :
    (fbByteStep k m b).1 =
      { m with ks := (fbByteStep k m b).1.ks, fb := (fbByteStep k m b).1.fb, r := (fbByteStep k m b).1.r,
               cur := (fbByteStep k m b).1.cur } := by
  unfold fbByteStep; simp only; split <;> rfl

theorem fbBytes_frame (k : Kind) (m : ModeCtx) (d : Bytes) :
    (fbBytes k m d).1 =
      { m with ks := (fbBytes k m d).1.ks, fb := (fbBytes k m d).1.fb, r := (fbBytes k m d).1.r,
               cur := (fbBytes k m d).1.cur } := by
  induction d generalizing m with
  | nil => rfl
  | cons b d ih =>
    rw [fbBytes_cons, ih]
    simp only
    rw [fbByteStep_frame]

theorem fbByteStep_cur (k : Kind) (m : ModeCtx) (b : Byte) :
    (fbByteStep k m b).1.cur = if m.cur + 1 = m.fbb then 0 else m.cur + 1 := by
  unfold fbByteStep; simp only; split <;> rfl

theorem fbBytes_cur {k : Kind} {m : ModeCtx} (d : Bytes) (h : m.cur < m.fbb) :
    (fbBytes k m d).1.cur = (m.cur + d.length) % m.fbb := by
  induction d generalizing m with
  | nil => simp [Nat.mod_eq_of_lt h]
  | cons b d ih =>
    have hf : (fbByteStep k m b).1.fbb = m.fbb := by rw [fbByteStep_frame]
    have hc := fbByteStep_cur k m b
    rw [fbBytes_cons, ih (by rw [hc, hf]; split <;> omega), hc, hf]
    split
    · rename_i he
      rw [List.length_cons, ← Nat.add_assoc, Nat.add_right_comm, he, Nat.add_mod_left, Nat.zero_add]
    · rw [List.length_cons]; congr 1; omega

/-! ## The byte step of CTR over a sequence (R204, R209) -/

@[simp] theorem ctrBytes_nil (order : CtrOrder) (m : ModeCtx) : ctrBytes order m [] = some (m, []) := rfl

theorem ctrBytes_cons (order : CtrOrder) (m : ModeCtx) (b : Byte) (d : Bytes) :
    ctrBytes order m (b :: d) =
      (ctrByteStep order m b).bind fun x => (ctrBytes order x.1 d).map fun y => (y.1, x.2 :: y.2) := by
  simp only [ctrBytes]
  rcases ctrByteStep order m b with _ | ⟨m1, o⟩
  · rfl
  · simp only [Option.bind_some]
    rcases ctrBytes order m1 d with _ | ⟨m2, os⟩ <;> rfl

theorem ctrBytes_append (order : CtrOrder) (m : ModeCtx) (a b : Bytes) :
    ctrBytes order m (a ++ b) =
      (ctrBytes order m a).bind fun x => (ctrBytes order x.1 b).map fun y => (y.1, x.2 ++ y.2) := by
  induction a generalizing m with
  | nil => simp
  | cons x a ih =>
    simp only [List.cons_append, ctrBytes_cons, ih]
    rcases ctrByteStep order m x with _ | ⟨m1, o⟩
    · rfl
    · simp only [Option.bind_some]
      rcases ctrBytes order m1 a with _ | ⟨m2, os⟩
      · rfl
      · simp only [Option.map_some, Option.bind_some, Option.map_map]; rfl

theorem ctrBytes_length {order : CtrOrder} {m m' : ModeCtx} {d out : Bytes} (h : ctrBytes order m d = some (m', out)) :
    out.length = d.length := by
  induction d generalizing m m' out with
  | nil => cases h; rfl
  | cons b d ih =>
    rw [ctrBytes_cons] at h
    rcases h1 : ctrByteStep order m b with _ | ⟨m1, o⟩ <;> rw [h1] at h
    · cases h
    · simp only [Option.bind_some] at h
      rcases h2 : ctrBytes order m1 d with _ | ⟨m2, os⟩ <;> rw [h2] at h
      · cases h
      · cases h; simp [ih h2]

/-- The fields that a byte step of CTR never writes, and the cursor's range. -/
theorem ctrByteStep_frame {order : CtrOrder} {m m' : ModeCtx} {b o : Byte} (h : ctrByteStep order m b = some (m', o)) :
    m' = { m with ks := m'.ks, r := m'.r, cur := if m.cur + 1 = 16 then 0 else m.cur + 1 } := by
  unfold ctrByteStep at h
  split at h
  · cases h
  · rename_i m1 hm
    have h1 : m1 = { m with ks := m1.ks, r := m1.r } := by
      split at hm
      · unfold ctrOpenBlock at hm; simp only at hm; generalize hc : ctrDrifted _ = c at hm
        cases c
        · simp only [Bool.false_eq_true, if_false, Option.some.injEq] at hm; rw [← hm]
        · simp at hm
      · simp only [Option.some.injEq] at hm; rw [hm]
    rw [Option.some.injEq, ctrEmit, Prod.mk.injEq] at h
    rw [← h.1, h1]; simp only [bs]; split <;> simp

theorem ctrBytes_frame {order : CtrOrder} {m m' : ModeCtx} {d out : Bytes} (h : ctrBytes order m d = some (m', out)) :
    m' = { m with ks := m'.ks, r := m'.r, cur := m'.cur } := by
  induction d generalizing m m' out with
  | nil => cases h; rfl
  | cons b d ih =>
    rw [ctrBytes_cons] at h
    rcases h1 : ctrByteStep order m b with _ | ⟨m1, o⟩ <;> rw [h1] at h
    · cases h
    · simp only [Option.bind_some] at h
      rcases h2 : ctrBytes order m1 d with _ | ⟨m2, os⟩ <;> rw [h2] at h
      · cases h
      · cases h; rw [ih h2, ctrByteStep_frame h1]

theorem ctrBytes_cur {order : CtrOrder} {m m' : ModeCtx} {d out : Bytes} (h : ctrBytes order m d = some (m', out))
    (hc : m.cur < 16) : m'.cur = (m.cur + d.length) % 16 := by
  induction d generalizing m m' out with
  | nil => cases h; simp [Nat.mod_eq_of_lt hc]
  | cons b d ih =>
    rw [ctrBytes_cons] at h
    rcases h1 : ctrByteStep order m b with _ | ⟨m1, o⟩ <;> rw [h1] at h
    · cases h
    · simp only [Option.bind_some] at h
      rcases h2 : ctrBytes order m1 d with _ | ⟨m2, os⟩ <;> rw [h2] at h
      · cases h
      · cases h
        have hm : m1.cur = if m.cur + 1 = 16 then 0 else m.cur + 1 := by rw [ctrByteStep_frame h1]
        rw [ih h2 (by rw [hm]; split <;> omega), hm, List.length_cons]
        split <;> omega

/-! ## The block step (R162, R264) -/

/-- A block step answers as many bytes as it is given, when it is given a whole block. -/
theorem blockStep_length {k : Kind} {order : CtrOrder} {m m' : ModeCtx} {x out : Bytes}
    (h : blockStep k order m x = some (m', out)) (hx : x.length = mbs k m) : out.length = mbs k m := by
  cases k <;> simp only [blockStep, Option.some.injEq] at h
  · cases h; simp [ecbBlockStep, mbs, bs]
  · unfold cbcBlockStep at h; split at h <;> cases h <;> simp [mbs, bs]
  · rw [show out = _ from congrArg Prod.snd h.symm, fbBytes_length, hx]
  · rw [show out = _ from congrArg Prod.snd h.symm, fbBytes_length, hx]
  · rw [ctrBytes_length h, hx]

theorem blockStep_mbs {k : Kind} {order : CtrOrder} {m m' : ModeCtx} {x out : Bytes}
    (h : blockStep k order m x = some (m', out)) : mbs k m' = mbs k m := by
  cases k <;> simp only [blockStep, Option.some.injEq] at h <;> simp only [mbs]
  · rw [show m' = _ from congrArg Prod.fst h.symm, fbBytes_frame]
  · rw [show m' = _ from congrArg Prod.fst h.symm, fbBytes_frame]

theorem blockSteps_length {k : Kind} {order : CtrOrder} {m m' : ModeCtx} {xs : List Bytes} {out : Bytes}
    (h : blockSteps k order m xs = some (m', out)) (hx : ∀ x ∈ xs, x.length = mbs k m) :
    out.length = xs.length * mbs k m ∧ mbs k m' = mbs k m := by
  induction xs generalizing m m' out with
  | nil => cases h; simp
  | cons x xs ih =>
    simp only [blockSteps] at h
    split at h
    · cases h
    · rename_i m1 o h1
      split at h
      · cases h
      · rename_i m2 os h2
        cases h
        have hm := blockStep_mbs h1
        obtain ⟨h3, h4⟩ := ih h2 (fun y hy => by rw [hm]; exact hx y (by simp [hy]))
        rw [List.length_append, h3, blockStep_length h1 (hx x (by simp)), h4, hm, List.length_cons]
        exact ⟨by ring, rfl⟩

theorem blockSteps_isSome {k : Kind} (hk : k ≠ .ctr) (order : CtrOrder) (m : ModeCtx) (xs : List Bytes) :
    ∃ m' out, blockSteps k order m xs = some (m', out) := by
  rcases h : blockSteps k order m xs with _ | ⟨m', out⟩
  · exact absurd (blockSteps_none h) hk
  · exact ⟨_, _, rfl⟩

theorem blockSteps_append {k : Kind} {order : CtrOrder} (m : ModeCtx) (xs ys : List Bytes) :
    blockSteps k order m (xs ++ ys) =
      (blockSteps k order m xs).bind fun x => (blockSteps k order x.1 ys).map fun y => (y.1, x.2 ++ y.2) := by
  induction xs generalizing m with
  | nil => simp [blockSteps]
  | cons x xs ih =>
    simp only [List.cons_append, blockSteps, ih]
    rcases blockStep k order m x with _ | ⟨m1, o⟩
    · rfl
    · simp only
      rcases blockSteps k order m1 xs with _ | ⟨m2, os⟩
      · rfl
      · simp only [Option.bind_some]
        rcases blockSteps k order m2 ys with _ | ⟨m3, os2⟩ <;> simp

end Sys2Proof.Machine
end

