-- ==== Sys2Proof/Laws/Decode.lean ====
section
/-! SUPPORT. The command word and its fields: the fields of an encoded packet, the bytes of a word, and decoding as a
look-up of the opcode map. -/

namespace Sys2Proof

theorem Packet.word_toNat (p : Packet) :
    p.word.toNat = (((p.unit.toNat * 16 + p.op.toNat) * 256 + p.arg.toNat) * 16777216 +
      p.data.length % 16777216) * 16777216 + p.low.toNat := by
  simp only [Packet.word, toNat_append_eq, BitVec.toNat_ofNat]
  norm_num

@[simp] theorem wordUnit_word (p : Packet) : wordUnit p.word = p.unit := by
  apply BitVec.eq_of_toNat_eq
  have := p.unit.isLt; have := p.op.isLt; have := p.arg.isLt; have := p.low.isLt
  rw [wordUnit, BitVec.extractLsb'_toNat, p.word_toNat, Nat.shiftRight_eq_div_pow]
  norm_num
  omega

@[simp] theorem wordOp_word (p : Packet) : wordOp p.word = p.op := by
  apply BitVec.eq_of_toNat_eq
  have := p.unit.isLt; have := p.op.isLt; have := p.arg.isLt; have := p.low.isLt
  rw [wordOp, BitVec.extractLsb'_toNat, p.word_toNat, Nat.shiftRight_eq_div_pow]
  norm_num
  omega

@[simp] theorem wordArg_word (p : Packet) : wordArg p.word = p.arg := by
  apply BitVec.eq_of_toNat_eq
  have := p.unit.isLt; have := p.op.isLt; have := p.arg.isLt; have := p.low.isLt
  rw [wordArg, BitVec.extractLsb'_toNat, p.word_toNat, Nat.shiftRight_eq_div_pow]
  norm_num
  omega

theorem wordIlen_word (p : Packet) (h : p.data.length < 2 ^ 24) : (wordIlen p.word).toNat = p.data.length := by
  have := p.unit.isLt; have := p.op.isLt; have := p.arg.isLt; have := p.low.isLt
  rw [wordIlen, BitVec.extractLsb'_toNat, p.word_toNat, Nat.shiftRight_eq_div_pow]
  norm_num
  omega

@[simp] theorem wordLow_word (p : Packet) : wordLow p.word = p.low := by
  apply BitVec.eq_of_toNat_eq
  have := p.low.isLt
  rw [wordLow, BitVec.extractLsb'_toNat, p.word_toNat, Nat.shiftRight_eq_div_pow]
  norm_num
  omega

@[simp] theorem Packet.bytes_length (p : Packet) : p.bytes.length = 8 + p.data.length := by
  simp [Packet.bytes]

@[simp] theorem encode_length (i : Instr) : (encode i).length = 8 + i.ilen := by
  simp [encode, Instr.ilen]

/-- Decoding the bytes of a packet followed by others is decoding its word. -/
theorem decode_packet (p : Packet) (rest : Bytes) :
    decode (p.bytes ++ rest) = decodeWord p.word (p.data ++ rest) := by
  have h8 : (beBytes 8 p.word.toNat).length = 8 := beBytes_length 8 _
  have hl : ¬ (p.bytes ++ rest).length < 8 := by rw [List.length_append, Packet.bytes_length]; omega
  rw [decode, if_neg hl, Packet.bytes, List.append_assoc, List.take_left' h8, List.drop_left' h8, beNat_beBytes]
  congr 1
  apply BitVec.eq_of_toNat_eq
  have := p.word.isLt
  rw [BitVec.toNat_ofNat]
  norm_num
  omega

/-- What a legal word decodes to: the row it selects, on the operands it carries. -/
theorem decodeWord_eq_ok {w : BitVec 64} {tail : Bytes} {i : Instr} {rest : Bytes} (h : decodeWord w tail = .ok i rest) :
    ∃ r a, row (wordUnit w) (wordOp w) = some r ∧ argOperands r.arg (wordArg w) = some a ∧
      ilenLegal r.len (wordIlen w).toNat = true ∧ (wordIlen w).toNat ≤ tail.length ∧
      i = r.build ⟨a.1, a.2.1, a.2.2, tail.take (wordIlen w).toNat, wordLow w⟩ ∧
      rest = tail.drop (wordIlen w).toNat := by
  simp only [decodeWord] at h
  split at h
  · cases h
  · rename_i r hr
    split at h
    · cases h
    · rename_i dir ptype kind ha
      split at h
      · rename_i hl
        split at h
        · cases h
        · rename_i ht
          cases h
          exact ⟨r, (dir, ptype, kind), hr, ha, hl, by omega, rfl, rfl⟩
      · cases h

/-- A word that selects a row with legal operands, and whose payload is there, decodes to that row's command. -/
theorem decodeWord_ok {w : BitVec 64} {tail : Bytes} {r : Row} {a : Bool × PType × Kind}
    (hr : row (wordUnit w) (wordOp w) = some r) (ha : argOperands r.arg (wordArg w) = some a)
    (hl : ilenLegal r.len (wordIlen w).toNat = true) (ht : (wordIlen w).toNat ≤ tail.length) :
    decodeWord w tail =
      .ok (r.build ⟨a.1, a.2.1, a.2.2, tail.take (wordIlen w).toNat, wordLow w⟩) (tail.drop (wordIlen w).toNat) := by
  simp only [decodeWord, hr, ha, hl, if_true]
  rw [if_neg (by omega)]

/-! ## From a word back to the command's packet -/

theorem argOperands_none {arg : BitVec 8} {a} (h : argOperands .none arg = some a) : arg = 0 := by
  simp only [argOperands] at h
  split at h
  · assumption
  · cases h

theorem argOperands_init {arg : BitVec 8} {a} (h : argOperands .init arg = some a) : initArg a.1 a.2.1 = arg := by
  have key : ∀ n : Fin 256, ∀ a ∈ argOperands .init (BitVec.ofFin n), initArg a.1 a.2.1 = BitVec.ofFin n := by
    decide +kernel
  exact key arg.toFin a h

theorem argOperands_kind {arg : BitVec 8} {a} (h : argOperands .kind arg = some a) : kindArg a.2.2 = arg := by
  have key : ∀ n : Fin 256, ∀ a ∈ argOperands .kind (BitVec.ofFin n), kindArg a.2.2 = BitVec.ofFin n := by
    decide +kernel
  exact key arg.toFin a h

theorem eq_nil_of_ilenLegal_zero {d : Bytes} (h : ilenLegal .zero d.length = true) : d = [] := by
  simpa [ilenLegal] using h

theorem beBytes_of_ilenLegal_eight {d : Bytes} (h : ilenLegal .eight d.length = true) :
    beBytes 8 (BitVec.ofNat 64 (beNat d)).toNat = d := by
  have h8 : d.length = 8 := by simpa [ilenLegal] using h
  have := beNat_lt d
  rw [h8] at this
  rw [BitVec.toNat_ofNat, Nat.mod_eq_of_lt (by simpa using this), ← h8, beBytes_beNat]

/-- The command a row builds from legal operands has the packet those operands came from. -/
theorem packet_of_row {u o : BitVec 4} {arg : BitVec 8} {low : BitVec 24} {d : Bytes} {r : Row}
    {a : Bool × PType × Kind}
    (hr : row u o = some r) (ha : argOperands r.arg arg = some a) (hl : ilenLegal r.len d.length = true) :
    (r.build ⟨a.1, a.2.1, a.2.2, d, low⟩).packet =
      ⟨u, o, arg, if Machine.readsLow (r.build ⟨a.1, a.2.1, a.2.2, d, low⟩) then low else 0, d⟩ := by
  have hd : ∀ n : Nat, ∀ v : BitVec 4, v.toNat = n → v = BitVec.ofNat 4 n := fun n v h => by
    rw [← h, BitVec.ofNat_toNat, BitVec.setWidth_eq]
  simp only [row] at hr
  split at hr
  all_goals rename_i hu
  all_goals try cases hr
  all_goals have hu := hd _ _ hu
  all_goals subst hu
  all_goals simp only [sysRow, gfRow, ecbRow, cbcRow, cfbRow, ofbRow, ctrRow, gcmRow, bpcRow, hmacRow, kmacRow] at hr
  all_goals split at hr
  all_goals rename_i ho
  all_goals first | (cases hr; done) | skip
  all_goals have ho := hd _ _ ho
  all_goals subst ho
  all_goals cases hr
  all_goals simp only at ha hl ⊢
  all_goals first
    | rw [argOperands_none ha, eq_nil_of_ilenLegal_zero hl]; rfl
    | rw [argOperands_none ha]; rfl
    | rw [← argOperands_init ha, eq_nil_of_ilenLegal_zero hl]; rfl
    | rw [← argOperands_kind ha, eq_nil_of_ilenLegal_zero hl]; rfl
    | (rw [argOperands_none ha]; simp only [Instr.packet, beBytes_of_ilenLegal_eight hl]; rfl)
end Sys2Proof
end

