-- ==== Sys2Proof/Laws/Step.lean ====
section
/-! SUPPORT. What one step can do: its inversion (`step_cases`), the packet a fetch takes from the stream, and a command
that answers `OK`. Cite these instead of unfolding `step`, `fetch`, `decode`, `respond`. -/

namespace Sys2Proof.Machine

open Sys2Proof.Config

/-! ## The step -/

theorem step_of_running {s : State} (hr : s.run = .running) : step s = match fetch s with
    | .endOfStream => .next (endRun s)
    | .rejected e => .next (rejectPacket e s)
    | .command i => exec i s := by
  obtain ⟨⟩ := s; cases hr; rfl

/-- Only a running engine takes a step. -/
theorem running_of_step {s t : State} (h : step s = .next t) : s.run = .running := by
  unfold step at h
  split at h <;> first | cases h | assumption

theorem fetch_eq_endOfStream {s : State} : fetch s = .endOfStream ↔ s.cp.toNat = s.cs.length := by
  unfold fetch
  split
  · simp [*]
  · split <;> simp [*]

theorem fetch_eq_command {s : State} {i : Instr} (h : fetch s = .command i) :
    s.cp.toNat ≠ s.cs.length ∧ ∃ rest, decode (s.cs.drop s.cp.toNat) = .ok i rest := by
  unfold fetch at h
  split at h
  · cases h
  · split at h
    · cases h; exact ⟨‹_›, _, ‹_›⟩
    · cases h

/-- Everything a step can do: the run ends, or a packet is rejected, or a command is executed, whose rule ends in one of
three ways. -/
theorem step_cases {s t : State} (h : step s = .next t) :
    s.run = .running ∧
    ((s.cp.toNat = s.cs.length ∧ t = { s with run := .done }) ∨
     (s.cp.toNat ≠ s.cs.length ∧ ∃ e, decode (s.cs.drop s.cp.toNat) = .bad e ∧
       t = s.haltedBy (decodeErrorUnit e) (decodeErrorOp e) (decodeFatal e).code) ∨
     (s.cp.toNat ≠ s.cs.length ∧ ∃ i rest, decode (s.cs.drop s.cp.toNat) = .ok i rest ∧
       ((∃ u out, resultOf i s = .ok u out ∧ t = u.completed i.unit i.op i.ilen out) ∨
        (∃ e, resultOf i s = .err e ∧ t = s.errored i.unit i.op i.ilen e.code) ∨
        (∃ f, resultOf i s = .fatal f ∧ t = s.haltedBy i.unit i.op f.code)))) := by
  have hr := running_of_step h
  rw [step_of_running hr] at h
  refine ⟨hr, ?_⟩
  cases hf : fetch s with
  | endOfStream => rw [hf] at h; cases h; exact .inl ⟨fetch_eq_endOfStream.mp hf, rfl⟩
  | rejected e =>
    have he : s.cp.toNat ≠ s.cs.length := fun hc => by rw [fetch_eq_endOfStream.mpr hc] at hf; cases hf
    refine .inr (.inl ⟨he, e, ?_, by rw [hf] at h; cases h; simp [rejectPacket]⟩)
    simp only [fetch, if_neg he] at hf
    split at hf
    · cases hf
    · cases hf; assumption
  | command i =>
    obtain ⟨he, rest, hd⟩ := fetch_eq_command hf
    rw [hf] at h
    simp only [exec_eq_respond] at h
    refine .inr (.inr ⟨he, i, rest, hd, ?_⟩)
    cases hres : resultOf i s with
    | ok u out => rw [hres, respond_ok] at h; cases h; exact .inl ⟨u, out, rfl, rfl⟩
    | err e => rw [hres, respond_err] at h; cases h; exact .inr (.inl ⟨e, rfl, rfl⟩)
    | fatal f => rw [hres, respond_fatal] at h; cases h; exact .inr (.inr ⟨f, rfl, rfl⟩)

/-- To show that every step keeps a property of the units and of `P`, it is enough that every successful command does:
errors, the end of the run and the engine registers leave them alone. -/
theorem step_keeps {s t : State} (h : step s = .next t) (inv : State → Prop)
    (hengine : ∀ u v : State, OnlyUnitChanged 1 u v → inv u → inv v)
    (hok : ∀ i u out, resultOf i s = .ok u out → inv s → inv u) (hs : inv s) : inv t := by
  rcases (step_cases h).2 with ⟨-, rfl⟩ | ⟨-, e, -, rfl⟩ | ⟨-, i, rest, -, ⟨u, out, hr, rfl⟩ | ⟨e, -, rfl⟩ | ⟨f, -, rfl⟩⟩
  · exact hengine s _ (by simp [OnlyUnitChanged]) hs
  · exact hengine s _ (by simp [OnlyUnitChanged, State.haltedBy]) hs
  · exact hengine u _ (by simp [OnlyUnitChanged, State.completed]) (hok i u out hr hs)
  · exact hengine s _ (by simp [OnlyUnitChanged, State.errored]) hs
  · exact hengine s _ (by simp [OnlyUnitChanged, State.haltedBy]) hs

/-! ## The packet a fetch takes -/

/-- A command that decodes takes `8 + ILEN` bytes, and leaves the rest (R90, R98). -/
theorem decode_ok {b : Bytes} {i : Instr} {rest : Bytes} (h : decode b = .ok i rest) :
    8 + i.ilen ≤ b.length ∧ rest = b.drop (8 + i.ilen) := by
  unfold decode at h
  split at h
  · cases h
  obtain ⟨r, a, hr, ha, hl, hlt, hi, hrest⟩ := decodeWord_eq_ok h
  have hil : i.ilen = (wordIlen (BitVec.ofNat 64 (beNat (b.take 8)))).toNat := by
    rw [hi, Instr.ilen, packet_of_row hr ha (by rw [List.length_take]; rwa [min_eq_left hlt]), List.length_take,
      min_eq_left hlt]
  rw [List.length_drop] at hlt
  rw [hil]
  exact ⟨by omega, by rw [hrest, List.drop_drop]⟩

/-- Decoding looks at no byte after the packet. -/
theorem decode_take {b : Bytes} {i : Instr} {rest : Bytes} (h : decode b = .ok i rest) (x : Bytes) :
    decode (b.take (8 + i.ilen) ++ x) = .ok i x := by
  obtain ⟨hlen, -⟩ := decode_ok h
  unfold decode at h
  split at h
  · cases h
  set w := BitVec.ofNat 64 (beNat (b.take 8)) with hw
  obtain ⟨r, a, hr, ha, hl, hlt, hi, hrest⟩ := decodeWord_eq_ok h
  have hil : i.ilen = (wordIlen w).toNat := by
    rw [hi, Instr.ilen, packet_of_row hr ha (by rw [List.length_take]; rwa [min_eq_left hlt]), List.length_take,
      min_eq_left hlt]
  have h8 : (b.take (8 + i.ilen) ++ x).take 8 = b.take 8 := by
    rw [List.take_append_of_le_length (by rw [List.length_take]; omega), List.take_take, min_eq_left (by omega)]
  have hd : (b.take (8 + i.ilen) ++ x).drop 8 = (b.drop 8).take i.ilen ++ x := by
    rw [List.drop_append_of_le_length (by rw [List.length_take]; omega), List.drop_take]; simp
  have hld : ((b.drop 8).take i.ilen).length = i.ilen := by rw [List.length_take, List.length_drop]; omega
  unfold decode
  rw [if_neg (by rw [List.length_append, List.length_take]; omega), h8, ← hw, hd,
    decodeWord_ok hr ha hl (by rw [List.length_append, hld]; omega)]
  have e1 : ((b.drop 8).take i.ilen ++ x).take (wordIlen w).toNat = (b.drop 8).take (wordIlen w).toNat := by
    rw [← hil, List.take_append_of_le_length (by omega), List.take_take, min_self]
  have e2 : ((b.drop 8).take i.ilen ++ x).drop (wordIlen w).toNat = x := by
    rw [← hil]; exact List.drop_left' hld
  rw [e1, e2, ← hi]

/-! ## Commands that answer `OK`, and runs of commands -/

theorem wireResponse_inj {st st' : BitVec 8} {u u' o o' : BitVec 4} {a b : Bytes}
    (h : wireResponse st u o a = wireResponse st' u' o' b) : st = st' ∧ a = b := by
  simp [wireResponse] at h; exact ⟨h.1, h.2.2.2.2.2⟩

/-- A command answers `OK` exactly when its rule ends in `return OK`. -/
theorem answersOk_iff {i : Instr} {s t : State} {out : Bytes} :
    AnswersOk i s t out ↔ ∃ u, resultOf i s = .ok u out ∧ t = u.completed i.unit i.op i.ilen out := by
  constructor
  · rintro ⟨h1, h2⟩
    rw [exec_eq_respond] at h1
    cases hr : resultOf i s with
    | ok u o =>
      rw [hr, respond_ok] at h1; cases h1
      simp only [State.completed, (resultOf_ok_frame hr).2.2.2.2.2.2.2.2.2] at h2
      rw [← (wireResponse_inj (List.append_cancel_left h2)).2]
      exact ⟨u, rfl, rfl⟩
    | err e =>
      rw [hr, respond_err] at h1; cases h1
      simp only [State.errored] at h2
      have := (wireResponse_inj (List.append_cancel_left h2)).1
      cases e <;> simp [ErrCode.code] at this
    | fatal e =>
      rw [hr, respond_fatal] at h1; cases h1
      simp only [State.haltedBy] at h2
      have := (wireResponse_inj (List.append_cancel_left h2)).1
      cases e <;> simp [FatalCode.code] at this
  · rintro ⟨u, h, rfl⟩
    refine ⟨by rw [exec_eq_respond, h, respond_ok], ?_⟩
    simp [State.completed, (resultOf_ok_frame h).2.2.2.2.2.2.2.2.2]

theorem execAll_append (a b : List Instr) (u : State) : execAll (a ++ b) u = (execAll a u).bind (execAll b) := by
  induction a generalizing u with
  | nil => rfl
  | cons i a ih =>
    simp only [List.cons_append, execAll]
    cases exec i u <;> simp [ih]

theorem execAll_cons_of_ok {i : Instr} {s t : State} {out : Bytes} (h : resultOf i s = .ok t out) (l : List Instr) :
    execAll (i :: l) s = execAll l (t.completed i.unit i.op i.ilen out) := by
  simp only [execAll, exec_eq_respond, h, respond_ok]

end Sys2Proof.Machine
end

