-- ==== Sys2Proof/Laws/Buffers.lean ====
section
/-! SUPPORT. The buffering operations of units BPC, HMAC and KMAC (Bpc.lean, Hmac.lean, Kmac.lean) and the capacities. -/

namespace Sys2Proof.Machine

open Sys2Proof.Config

/-! ## Capacities (D43) -/

theorem fits_of_le {cap : Option Nat} {m n : Nat} (h : fits cap n = true) (hmn : m ≤ n) : fits cap m = true := by
  cases cap with
  | none => rfl
  | some c => simp only [fits, decide_eq_true_eq] at h ⊢; omega

/-! ## BPC (R260, R264, R266) -/

/-- The bytes kept back: at most a block, and what is not kept back is a whole number of blocks (R264). -/
theorem bpcKeep_spec {size total : Nat} (hs : 0 < size) :
    bpcKeep size total ≤ total ∧ bpcKeep size total ≤ size ∧ (total - bpcKeep size total) % size = 0 ∧
      total - bpcKeep size total = size * ((total - 1) / size) := by
  have heq : total - bpcKeep size total = size * ((total - 1) / size) := by
    unfold bpcKeep
    split
    · subst total; simp
    · have h2 := Nat.mod_le (total - 1) size
      have h3 := Nat.mod_add_div (total - 1) size
      omega
  refine ⟨?_, ?_, by rw [heq]; exact Nat.mul_mod_right _ _, heq⟩ <;> unfold bpcKeep <;> split
  · omega
  · have := Nat.mod_le (total - 1) size; omega
  · omega
  · have := Nat.mod_lt (total - 1) hs; omega

/-- Padding from an offset inside a sequence keeps its length and the bytes before the offset (00_scope.md R17). -/
theorem padAdd_length {b : Bytes} {off : Nat} (h : off ≤ b.length) : (padAdd b off).length = b.length := by
  simp [padAdd]; omega

theorem padAdd_take {b : Bytes} {off : Nat} (h : off ≤ b.length) : (padAdd b off).take off = b.take off := by
  rw [padAdd]; exact List.take_left' (by rw [List.length_take]; omega)

/-- The pad count never exceeds the length (00_scope.md R17). -/
theorem padCount_le {b : Bytes} {n : Nat} (h : padCount b = some n) : n ≤ b.length := by
  unfold padCount at h
  cases hc : padCountFin b with
  | none => rw [hc] at h; cases h
  | some c =>
    simp only [hc, Option.map_some, Option.some.injEq] at h
    have := c.isLt; omega

theorem whenReady_of_ready {s : State} {k : Kind} (hk : s.b.mode = some k) (hr : bpcReady s.b = true)
    (f : Kind → CmdResult) : whenReady s f = f k := by
  simp only [whenReady, hk, hr, if_true]

/-! ## HMAC and KMAC (R282, R306) -/

/-- Both pads have `BL` bytes, whatever the key (R282). -/
theorem hmacPad_length (c : Byte) (key : Bytes) : (hmacPad c key).length = hmacBl := by
  simp only [hmacPad, List.length_map, hmacKey, List.length_append, zeros_length]
  split
  · rw [digestOf, Vector.length_toList]
    have := digestSizePred.isLt
    simp only [digestSize, hmacBl]; omega
  · omega

/-- `DeriveKs` gives the generator's bytes in order from its position, four for each word (R306). -/
theorem deriveWords_eq (key : Bytes) (iv : Option Bytes) (nw pos : Nat) :
    deriveWords key iv nw pos = ((List.range (4 * nw)).map fun i => sgKs key iv (pos + i), pos + 4 * nw) := by
  induction nw generalizing pos with
  | zero => rfl
  | succ n ih =>
    simp only [deriveWords, ih]
    refine Prod.ext ?_ (by simp; omega)
    simp only [keystreamWord, show 4 * (n + 1) = 4 + 4 * n by omega, List.range_add, List.map_append, List.map_map]
    congr 1
    · simp
    · apply List.map_congr_left; intro i _; simp [Nat.add_assoc]

end Sys2Proof.Machine
end

