-- ==== Sys2Proof/Laws/Field.lean ====
section
/-! SUPPORT. The polynomial of 41_gf128.md R141 is irreducible over GF(2), so that the field has no zero divisors. Elements
are numbers, bit `i` the coefficient of `x^i`; three computations on them say that `x^(2^128) = x`, and that
`x^(2^64) - x` has an inverse. -/

namespace Sys2Proof.GcmField

open Polynomial

/-- The polynomial of R141, as a number. -/
def modulus : Nat := 0x100000000000000000000000000000087

/-- The product of an element by `x`. -/
def timesX (n : Nat) : Nat :=
  if n.testBit 127 then (n <<< 1) ^^^ modulus else n <<< 1

/-- After `k` turns: the product of `b` by the low `k` coefficients of `a`, and the product of `b` by `x^k`. -/
def mulSteps (a b : Nat) : Nat → Nat × Nat
  | 0 => (0, b)
  | k + 1 => (if a.testBit k then (mulSteps a b k).1 ^^^ (mulSteps a b k).2 else (mulSteps a b k).1,
              timesX (mulSteps a b k).2)

/-- The product of two elements. -/
def mul (a b : Nat) : Nat := (mulSteps a b 128).1

/-- `a` squared `k` times. -/
def squares : Nat → Nat → Nat
  | 0, a => a
  | k + 1, a => squares k (mul a a)

/-- `x^(2^64)`. -/
def half : Nat := 0x61651fea6b5832b944e598a795a299f6

set_option maxRecDepth 100000 in
theorem squares_x : squares 64 2 = half := by decide +kernel

set_option maxRecDepth 100000 in
theorem squares_half : squares 64 half = 2 := by decide +kernel

theorem mul_half_inverse : mul (half ^^^ 2) 0x9e4af928ddbc838a41a8cafd2c95b018 = 1 := by decide +kernel

/-! ## The numbers as elements of a ring with a root of the polynomial -/

variable {R : Type*} [CommRing R]

/-- The value at `α` of the polynomial with the coefficients `n`. -/
def ev (α : R) (n : Nat) : R := ∑ i ∈ Finset.range 128, if n.testBit i then α ^ i else 0

theorem ev_xor [CharP R 2] (α : R) (m n : Nat) : ev α (m ^^^ n) = ev α m + ev α n := by
  simp only [ev, ← Finset.sum_add_distrib]
  refine Finset.sum_congr rfl fun i _ => ?_
  rw [Nat.testBit_xor]
  cases m.testBit i <;> cases n.testBit i <;> simp [CharTwo.add_self_eq_zero]

theorem ev_two_pow (α : R) (k : Nat) : ev α (2 ^ k) = if k < 128 then α ^ k else 0 := by
  simp only [ev, Nat.testBit_two_pow, decide_eq_true_eq, Finset.sum_ite_eq, Finset.mem_range]

theorem ev_modulus [CharP R 2] (α : R) : ev α modulus = α ^ 7 + α ^ 2 + α + 1 := by
  have h : modulus = 2 ^ 128 ^^^ (2 ^ 7 ^^^ (2 ^ 2 ^^^ (2 ^ 1 ^^^ 2 ^ 0))) := by decide
  rw [h]
  simp only [ev_xor, ev_two_pow]
  norm_num
  ring

theorem timesX_lt {n : Nat} (h : n < 2 ^ 128) : timesX n < 2 ^ 128 := by
  refine Nat.lt_pow_two_of_testBit _ fun i hi => ?_
  have hn : ∀ j, 128 ≤ j → n.testBit j = false := fun j hj =>
    Nat.testBit_lt_two_pow (h.trans_le (Nat.pow_le_pow_right (by decide) hj))
  have hm : ∀ j, 129 ≤ j → modulus.testBit j = false := fun j hj =>
    Nat.testBit_lt_two_pow (lt_of_lt_of_le (by decide : modulus < 2 ^ 129) (Nat.pow_le_pow_right (by decide) hj))
  unfold timesX
  rcases Nat.eq_or_lt_of_le hi with rfl | hi
  · have hm : modulus.testBit 128 = true := by decide
    split <;> simp_all
  · split
    · rw [Nat.testBit_xor, hm i hi, Nat.testBit_shiftLeft, hn (i - 1) (by omega)]; simp
    · rw [Nat.testBit_shiftLeft, hn (i - 1) (by omega)]; simp

theorem ev_timesX [CharP R 2] {α : R} (hα : α ^ 128 = α ^ 7 + α ^ 2 + α + 1) (n : Nat) : ev α (timesX n) = α * ev α n := by
  have hs : ev α (n <<< 1) + (if n.testBit 127 then α ^ 128 else 0) = α * ev α n := by
    have h1 : α * ev α n = ∑ i ∈ Finset.range 128, if n.testBit i then α ^ (i + 1) else 0 := by
      rw [ev, Finset.mul_sum]
      refine Finset.sum_congr rfl fun i _ => ?_
      split <;> simp [pow_succ, mul_comm]
    rw [h1, Finset.sum_range_succ, ev, Finset.sum_range_succ']
    simp [Nat.testBit_shiftLeft]
  rw [← hs, timesX]
  split
  · rw [ev_xor, ev_modulus, hα]
  · rw [add_zero]

theorem ev_mulSteps [CharP R 2] {α : R} (hα : α ^ 128 = α ^ 7 + α ^ 2 + α + 1) (a b k : Nat) :
    ev α (mulSteps a b k).2 = α ^ k * ev α b ∧
    ev α (mulSteps a b k).1 = (∑ i ∈ Finset.range k, if a.testBit i then α ^ i else 0) * ev α b := by
  induction k with
  | zero => exact ⟨by simp [mulSteps], by simp [mulSteps, ev]⟩
  | succ k ih =>
    obtain ⟨h2, h1⟩ := ih
    refine ⟨by rw [mulSteps, ev_timesX hα, h2, pow_succ]; ring, ?_⟩
    rw [mulSteps, Finset.sum_range_succ, add_mul, ← h1]
    dsimp only
    split
    · rw [ev_xor, h2]
    · simp

theorem ev_mul [CharP R 2] {α : R} (hα : α ^ 128 = α ^ 7 + α ^ 2 + α + 1) (a b : Nat) : ev α (mul a b) = ev α a * ev α b :=
  (ev_mulSteps hα a b 128).2

theorem ev_squares [CharP R 2] {α : R} (hα : α ^ 128 = α ^ 7 + α ^ 2 + α + 1) (k a : Nat) :
    ev α (squares k a) = ev α a ^ 2 ^ k := by
  induction k generalizing a with
  | zero => simp [squares]
  | succ k ih => rw [squares, ih, ev_mul hα, ← pow_two, ← pow_mul, pow_succ']

/-- In a ring of characteristic 2 a root of the polynomial is not fixed by 64 squarings, and is fixed by 128. -/
theorem root_squares [CharP R 2] [Nontrivial R] {α : R} (hα : α ^ 128 = α ^ 7 + α ^ 2 + α + 1) :
    α ^ 2 ^ 64 ≠ α ∧ α ^ 2 ^ 128 = α := by
  have hx : ev α 2 = α := by simpa using ev_two_pow α 1
  have hh : ev α half = α ^ 2 ^ 64 := by rw [← squares_x, ev_squares hα, hx]
  refine ⟨fun hc => ?_, ?_⟩
  · have h := ev_mul hα (half ^^^ 2) 0x9e4af928ddbc838a41a8cafd2c95b018
    rw [mul_half_inverse, ev_xor, hh, hc, hx, CharTwo.add_self_eq_zero, zero_mul] at h
    have h1 : ev α 1 = 1 := by simpa using ev_two_pow α 0
    exact one_ne_zero (h1.symm.trans h)
  · have h : ev α (squares 64 half) = α := by rw [squares_half, hx]
    rw [ev_squares hα, hh, ← pow_mul, ← pow_add] at h
    exact h

theorem eq_of_sum_eq_zero [CharP R 2] (α : R) (h : α ^ 128 + α ^ 7 + α ^ 2 + α + 1 = 0) :
    α ^ 128 = α ^ 7 + α ^ 2 + α + 1 :=
  CharTwo.add_eq_zero.mp (by rwa [← add_assoc, ← add_assoc, ← add_assoc])

/-! ## Irreducibility -/

/-- The polynomial of R141. -/
@[irreducible] noncomputable def gcmPoly : (ZMod 2)[X] := X ^ 128 + X ^ 7 + X ^ 2 + X + 1

theorem gcmPoly_natDegree : gcmPoly.natDegree = 128 := by unfold gcmPoly; compute_degree!

theorem gcmPoly_monic : gcmPoly.Monic := by unfold gcmPoly; monicity!

theorem sq_iterate {M : Type*} [Monoid M] (n : Nat) (y : M) : (fun z : M => z ^ 2)^[n] y = y ^ 2 ^ n := by
  induction n generalizing y with
  | zero => simp
  | succ n ih => rw [Function.iterate_succ_apply, ih, ← pow_mul, pow_succ']

/-- Adjoining a root of a factor of the polynomial gives a root of the polynomial. -/
theorem exists_root {q : (ZMod 2)[X]} [CharP (AdjoinRoot q) 2] (hd : q ∣ X ^ 128 + X ^ 7 + X ^ 2 + X + 1) :
    ∃ α : AdjoinRoot q, α ^ 128 = α ^ 7 + α ^ 2 + α + 1 := by
  have h := AdjoinRoot.mk_eq_zero.mpr hd
  rw [map_add, map_add, map_add, map_add, map_pow, map_pow, map_pow, map_one] at h
  exact ⟨_, eq_of_sum_eq_zero _ h⟩

/-- An irreducible factor of the polynomial has more than half its degree. -/
theorem factor_natDegree {q : (ZMod 2)[X]} (hq : Irreducible q) (hd : q ∣ gcmPoly) : 64 < q.natDegree := by
  by_contra hle
  have : Fact (Irreducible q) := ⟨hq⟩
  have : CharP (AdjoinRoot q) 2 := charP_of_injective_algebraMap (algebraMap (ZMod 2) (AdjoinRoot q)).injective 2
  obtain ⟨α, hα⟩ := exists_root (by unfold gcmPoly at hd; exact hd)
  obtain ⟨h64, h128⟩ := root_squares hα
  have hcard : α ^ 2 ^ q.natDegree = α := by
    let B := AdjoinRoot.powerBasis hq.ne_zero
    have : Module.Finite (ZMod 2) (AdjoinRoot q) := B.finite
    have : Finite (AdjoinRoot q) := Module.finite_of_finite (ZMod 2)
    have := Fintype.ofFinite (AdjoinRoot q)
    have hf : Fintype.card (AdjoinRoot q) = 2 ^ q.natDegree := by
      rw [Module.card_eq_pow_finrank (K := ZMod 2), ZMod.card, B.finrank, AdjoinRoot.powerBasis_dim]
    rw [← hf, FiniteField.pow_card]
  have hp : Function.IsPeriodicPt (fun z : AdjoinRoot q => z ^ 2) (Nat.gcd q.natDegree 128) α :=
    Function.IsPeriodicPt.gcd ((sq_iterate _ _).trans hcard) ((sq_iterate _ _).trans h128)
  have hg : Nat.gcd q.natDegree 128 ∣ 64 := by
    have hpos : 0 < q.natDegree := hq.natDegree_pos
    obtain ⟨k, hk, he⟩ := (Nat.dvd_prime_pow Nat.prime_two).mp
      (show Nat.gcd q.natDegree 128 ∣ 2 ^ 7 from Nat.gcd_dvd_right _ _)
    have hl : Nat.gcd q.natDegree 128 ≤ 64 := (Nat.gcd_le_left _ hpos).trans (by omega)
    rw [he] at hl ⊢
    have : k ≤ 6 := by
      by_contra hc
      have : k = 7 := by omega
      subst this; omega
    exact pow_dvd_pow 2 this
  exact h64 ((sq_iterate 64 α).symm.trans (hp.trans_dvd hg))

theorem gcmPoly_irreducible : Irreducible gcmPoly := by
  refine (gcmPoly_monic.irreducible_iff_lt_natDegree_lt fun h => ?_).mpr fun q hq hr hd => ?_
  · have := gcmPoly_natDegree; rw [h, natDegree_one] at this; omega
  · rw [gcmPoly_natDegree, Finset.mem_Ioc] at hr
    obtain ⟨p, hp, hpq⟩ := exists_irreducible_of_natDegree_pos hr.1
    have h1 := factor_natDegree hp (hpq.trans hd)
    have h2 := natDegree_le_of_dvd hpq hq.ne_zero
    omega

/-- The polynomial of R141 is irreducible over GF(2). -/
theorem irreducible_of_R141 : Irreducible (X ^ 128 + X ^ 7 + X ^ 2 + X + 1 : (ZMod 2)[X]) := by
  have h := gcmPoly_irreducible
  unfold gcmPoly at h
  exact h

end Sys2Proof.GcmField
end

