-- ==== Sys2Proof/Laws/Gcm.lean ====
section
/-! SUPPORT. The shared operations of unit GCM and of the field (Gf.lean, Gcm.lean): what each one leaves alone, and how
they run over split data. -/

namespace Sys2Proof.Machine

open Sys2Proof.Config

/-! ## Associated data (R223) and the start of the cipher (R224) -/

theorem aadAbsorb_append (g : Gcm) (a b : Bytes) : aadAbsorb g (a ++ b) = aadAbsorb (aadAbsorb g a) b := by
  simp [aadAbsorb, List.foldl_append]

/-- Absorbing associated data writes `SAT`, `ATBUF` and `ATLEN` only. -/
theorem aadAbsorb_frame (g : Gcm) (d : Bytes) :
    aadAbsorb g d =
      { g with sat := (aadAbsorb g d).sat, atbuf := (aadAbsorb g d).atbuf, atlen := (aadAbsorb g d).atlen } := by
  induction d generalizing g with
  | nil => rfl
  | cons b d ih =>
    have hs : aadAbsorb g (b :: d) = aadAbsorb (aadByte g b) d := rfl
    rw [hs, ih]
    unfold aadByte; split <;> rfl

/-- Starting the cipher writes `SAT`, `S`, `ATBUF` and `STARTED` only, and `STARTED` is then 1. -/
theorem startCipher_frame (g : Gcm) :
    startCipher g =
      { g with sat := (startCipher g).sat, s := (startCipher g).s, atbuf := (startCipher g).atbuf, started := true } := by
  unfold startCipher; split
  · cases g; simp_all
  · rfl

theorem startCipher_of_started {g : Gcm} (h : g.started = true) : startCipher g = g := by rw [startCipher, if_pos h]

@[simp] theorem startCipher_inited (g : Gcm) : (startCipher g).inited = g.inited := by rw [startCipher_frame]
@[simp] theorem startCipher_dir (g : Gcm) : (startCipher g).dir = g.dir := by rw [startCipher_frame]
@[simp] theorem startCipher_key (g : Gcm) : (startCipher g).key = g.key := by rw [startCipher_frame]
@[simp] theorem startCipher_macb (g : Gcm) : (startCipher g).macb = g.macb := by rw [startCipher_frame]
@[simp] theorem startCipher_h (g : Gcm) : (startCipher g).h = g.h := by rw [startCipher_frame]
@[simp] theorem startCipher_j0 (g : Gcm) : (startCipher g).j0 = g.j0 := by rw [startCipher_frame]
@[simp] theorem startCipher_ctrb (g : Gcm) : (startCipher g).ctrb = g.ctrb := by rw [startCipher_frame]
@[simp] theorem startCipher_atlen (g : Gcm) : (startCipher g).atlen = g.atlen := by rw [startCipher_frame]
@[simp] theorem startCipher_pbuf (g : Gcm) : (startCipher g).pbuf = g.pbuf := by rw [startCipher_frame]
@[simp] theorem startCipher_totlen (g : Gcm) : (startCipher g).totlen = g.totlen := by rw [startCipher_frame]
@[simp] theorem startCipher_dbuf (g : Gcm) : (startCipher g).dbuf = g.dbuf := by rw [startCipher_frame]
@[simp] theorem startCipher_started (g : Gcm) : (startCipher g).started = true := by rw [startCipher_frame]

/-! ## The data path (R225, R233, R234) -/

/-- A byte of plaintext writes `S`, `CTRB`, `TOTLEN` and `PBUF` only. -/
theorem encByte_frame (g : Gcm) (b : Byte) :
    (encByte g b).1 =
      { g with s := (encByte g b).1.s, ctrb := (encByte g b).1.ctrb, totlen := (encByte g b).1.totlen,
               pbuf := (encByte g b).1.pbuf } := by
  unfold encByte encBlock; split <;> rfl

theorem bytesEnc_frame (g : Gcm) (d : Bytes) :
    (bytesEnc g d).1 =
      { g with s := (bytesEnc g d).1.s, ctrb := (bytesEnc g d).1.ctrb, totlen := (bytesEnc g d).1.totlen,
               pbuf := (bytesEnc g d).1.pbuf } := by
  induction d generalizing g with
  | nil => rfl
  | cons b d ih =>
    simp only [bytesEnc]
    rw [ih, encByte_frame]

theorem bytesEnc_append (g : Gcm) (a b : Bytes) :
    bytesEnc g (a ++ b) =
      ((bytesEnc (bytesEnc g a).1 b).1, (bytesEnc g a).2 ++ (bytesEnc (bytesEnc g a).1 b).2) := by
  induction a generalizing g with
  | nil => simp [bytesEnc]
  | cons x a ih => simp [bytesEnc, ih]

/-- Everything a successful `GCM.BYTES` says (R232, R240). -/
theorem gcmBytesResult_ok {s u : State} {d out : Bytes} {o : BitVec 24} (h : gcmBytesResult d o s = .ok u out) :
    s.g.inited = true ∧ (s.g.dir = true → 16 * ((s.g.pbuf.length + d.length) / 16) ≤ o.toNat) ∧
    (d = [] → u = s ∧ out = []) ∧
    (d ≠ [] → blocksAfter s.g d.length ≤ gcmBlkMax ∧
      (s.g.dir = true → u = s.withG (bytesEnc (startCipher s.g) d).1 ∧ out = (bytesEnc (startCipher s.g) d).2) ∧
      (s.g.dir = false → fits s.params.capDbuf (s.g.dbuf.length + d.length) = true ∧
        u = s.withG (bytesDec (startCipher s.g) d) ∧ out = [])) := by
  unfold gcmBytesResult at h
  split at h
  · cases h
  rename_i hi
  have hi : s.g.inited = true := by simpa using hi
  split at h
  · cases h
  rename_i ho
  have ho : s.g.dir = true → 16 * ((s.g.pbuf.length + d.length) / 16) ≤ o.toNat := fun hd => by
    by_contra hc; exact ho ⟨hd, by omega⟩
  refine ⟨hi, ho, ?_⟩
  split at h
  · rename_i hd
    cases h
    exact ⟨fun _ => ⟨rfl, rfl⟩, fun hn => absurd (List.length_eq_zero_iff.mp hd) hn⟩
  rename_i hd
  refine ⟨fun he => absurd (List.length_eq_zero_iff.mpr he) hd, fun _ => ?_⟩
  split at h
  · cases h
  rename_i hl
  refine ⟨by omega, ?_⟩
  split at h
  · rename_i hdir
    cases h
    exact ⟨fun _ => ⟨rfl, rfl⟩, fun hf => by rw [hdir] at hf; cases hf⟩
  · rename_i hdir
    split at h
    · cases h
      exact ⟨fun ht => absurd ht hdir, fun _ => ⟨‹_›, rfl, rfl⟩⟩
    · cases h

end Sys2Proof.Machine
end

