-- ==== Sys2Proof/Laws/Memory.lean ====
section
/-! SUPPORT. The command stream as memory (20_memory.md R70, R71): its (address, byte) pairs in their one order, what a
read gives, that no step writes it, and that placing a packet keeps the launch premise and is read back by the fetch. -/

namespace Sys2Proof.Machine

/-! ## The form of the stream -/

/-- The addresses of the stream are `0 .. len(CS)`, strictly rising, each once. -/
theorem Memory.cells_addresses (cs : Bytes) : (Memory.cells cs).map Prod.fst = List.range cs.length := by
  rw [Memory.cells, List.map_fst_zip (by simp)]

theorem Memory.cells_rising (cs : Bytes) : ((Memory.cells cs).map Prod.fst).Pairwise (· < ·) := by
  rw [Memory.cells_addresses]; exact List.pairwise_lt_range

/-- Streams with the same pairs are the same stream. -/
theorem Memory.cells_inj {a b : Bytes} (h : Memory.cells a = Memory.cells b) : a = b := by
  have hs : ∀ c : Bytes, (Memory.cells c).map Prod.snd = c := fun c => by
    rw [Memory.cells, List.map_snd_zip (by simp)]
  rw [← hs a, h, hs b]

/-! ## Reading -/

/-- `MemRead` gives bytes exactly within the stream, and byte `j` of them is byte `addr + j` (R71). -/
theorem memRead_eq_some {cs b : Bytes} {addr n : Nat} :
    memRead cs addr n = some b ↔ addr + n ≤ cs.length ∧ b.length = n ∧ ∀ j, j < n → b[j]? = cs[addr + j]? := by
  unfold memRead
  split
  · rename_i h
    simp only [Option.some.injEq, h, true_and]
    constructor
    · rintro rfl
      refine ⟨by simp; omega, fun j hj => ?_⟩
      rw [List.getElem?_take_of_lt hj, List.getElem?_drop]
    · rintro ⟨hl, hb⟩
      apply List.ext_getElem?
      intro j
      by_cases hj : j < n
      · rw [List.getElem?_take_of_lt hj, List.getElem?_drop, hb j hj]
      · rw [List.getElem?_take_eq_none (by omega), List.getElem?_eq_none (by omega)]
  · simp [*]

/-! ## No step writes the stream -/

theorem step_cs {s t : State} (h : step s = .next t) : t.cs = s.cs := by
  rcases (step_cases h).2 with ⟨-, rfl⟩ | ⟨-, e, -, rfl⟩ | ⟨-, i, rest, -, ⟨u, out, hr, rfl⟩ | ⟨e, -, rfl⟩ | ⟨f, -, rfl⟩⟩ <;>
    try rfl
  exact (resultOf_ok_frame hr).1.1

theorem step_wf {s t : State} (h : step s = .next t) (hw : Memory.wf s.cs) : Memory.wf t.cs := by
  rw [step_cs h]; exact hw

theorem reset_wf : Memory.wf State.reset.cs := by decide

theorem hardwareReset_wf {s : State} (h : Memory.wf s.cs) : Memory.wf (hardwareReset s).cs := h

/-! ## Placing a packet -/

/-- A packet placed where the next fetch reads it keeps the launch premise when it ends below `2^32`. -/
theorem placePacket_wf {s : State} {b : Bytes} (hw : Memory.wf s.cs) (hb : s.cp.toNat + b.length < 2 ^ 32) :
    Memory.wf (placePacket s b).cs := by
  simp only [Memory.wf, placePacket, List.length_append, List.length_take, List.length_drop, zeros_length] at *
  omega

/-- The next fetch reads the placed bytes first. -/
theorem fetchBytes_placePacket (s : State) (b : Bytes) :
    fetchBytes (placePacket s b) = b ++ s.cs.drop (s.cp.toNat + b.length) := by
  have hl : ((s.cs ++ zeros (s.cp.toNat - s.cs.length)).take s.cp.toNat).length = s.cp.toNat := by
    rw [List.length_take, List.length_append, zeros_length]; omega
  rw [fetchBytes, placePacket, List.append_assoc]
  exact List.drop_left' hl

end Sys2Proof.Machine
end

