-- ==== Sys2Proof/Laws/PerInstr.lean ====
section
/-! SUPPORT. One fact per command about its packet, for statements over all commands: the row of the opcode map that its
`UNIT` and `OP` select takes its `ARG` and its `ILEN`, and rebuilds the command from them. -/

namespace Sys2Proof.Laws.PacketShape

/-- The packet of a command selects a row of the opcode map with legal `ARG` and `ILEN` (30_encoding.md R93, R94, R101),
the row rebuilds the command, and the payload of a well-formed command fits `ILEN` (R90). -/
def Statement (i : Instr) : Prop :=
  ∃ r a, row i.unit i.op = some r ∧ argOperands r.arg i.packet.arg = some a ∧ ilenLegal r.len i.ilen = true ∧
    r.build ⟨a.1, a.2.1, a.2.2, i.packet.data, i.packet.low⟩ = i ∧ (i.WellFormed → i.ilen < 2 ^ 24)

theorem initArg_operands (dir : Bool) (t : PType) : argOperands .init (initArg dir t) = some (dir, t, .ecb) := by
  cases dir <;> cases t <;> rfl

theorem kindArg_operands (k : Kind) : argOperands .kind (kindArg k) = some (false, .key, k) := by
  cases k <;> rfl

theorem osize_operand (n : BitVec 64) : BitVec.ofNat 64 (beNat (beBytes 8 n.toNat)) = n := by
  rw [beNat_beBytes]
  apply BitVec.eq_of_toNat_eq
  have := n.isLt
  rw [BitVec.toNat_ofNat]
  norm_num
  omega

theorem sysNop : Statement (.sysNop) :=
  ⟨_, (false, .key, .ecb), rfl, rfl, rfl, rfl, fun _ => (by decide : 0 < 2 ^ 24)⟩

theorem sysLdkey (data : Bytes) : Statement (.sysLdkey data) :=
  ⟨_, (false, .key, .ecb), rfl, rfl, rfl, rfl, id⟩

theorem sysClrkey : Statement (.sysClrkey) :=
  ⟨_, (false, .key, .ecb), rfl, rfl, rfl, rfl, fun _ => (by decide : 0 < 2 ^ 24)⟩

theorem sysLdiv (data : Bytes) : Statement (.sysLdiv data) :=
  ⟨_, (false, .key, .ecb), rfl, rfl, rfl, rfl, id⟩

theorem sysClriv : Statement (.sysClriv) :=
  ⟨_, (false, .key, .ecb), rfl, rfl, rfl, rfl, fun _ => (by decide : 0 < 2 ^ 24)⟩

theorem sysLdaad (data : Bytes) : Statement (.sysLdaad data) :=
  ⟨_, (false, .key, .ecb), rfl, rfl, rfl, rfl, id⟩

theorem sysClraad : Statement (.sysClraad) :=
  ⟨_, (false, .key, .ecb), rfl, rfl, rfl, rfl, fun _ => (by decide : 0 < 2 ^ 24)⟩

theorem sysLdmac (imm : BitVec 24) : Statement (.sysLdmac imm) :=
  ⟨_, (false, .key, .ecb), rfl, rfl, rfl, rfl, fun _ => (by decide : 0 < 2 ^ 24)⟩

theorem sysClrmac : Statement (.sysClrmac) :=
  ⟨_, (false, .key, .ecb), rfl, rfl, rfl, rfl, fun _ => (by decide : 0 < 2 ^ 24)⟩

theorem sysStatus (ocap : BitVec 24) : Statement (.sysStatus ocap) :=
  ⟨_, (false, .key, .ecb), rfl, rfl, rfl, rfl, fun _ => (by decide : 0 < 2 ^ 24)⟩

theorem gfXor (data : Bytes) (ocap : BitVec 24) : Statement (.gfXor data ocap) :=
  ⟨_, (false, .key, .ecb), rfl, rfl, rfl, rfl, id⟩

theorem gfMul (data : Bytes) (ocap : BitVec 24) : Statement (.gfMul data ocap) :=
  ⟨_, (false, .key, .ecb), rfl, rfl, rfl, rfl, id⟩

theorem gfGhash (data : Bytes) (ocap : BitVec 24) : Statement (.gfGhash data ocap) :=
  ⟨_, (false, .key, .ecb), rfl, rfl, rfl, rfl, id⟩

theorem ecbCfg : Statement (.ecbCfg) :=
  ⟨_, (false, .key, .ecb), rfl, rfl, rfl, rfl, fun _ => (by decide : 0 < 2 ^ 24)⟩

theorem ecbInit (dir : Bool) (ptype : PType) : Statement (.ecbInit dir ptype) :=
  ⟨_, (dir, ptype, .ecb), rfl, initArg_operands dir ptype, rfl, rfl, fun _ => (by decide : 0 < 2 ^ 24)⟩

theorem ecbReset : Statement (.ecbReset) :=
  ⟨_, (false, .key, .ecb), rfl, rfl, rfl, rfl, fun _ => (by decide : 0 < 2 ^ 24)⟩

theorem ecbBlock (data : Bytes) (ocap : BitVec 24) : Statement (.ecbBlock data ocap) :=
  ⟨_, (false, .key, .ecb), rfl, rfl, rfl, rfl, id⟩

theorem cbcCfg : Statement (.cbcCfg) :=
  ⟨_, (false, .key, .ecb), rfl, rfl, rfl, rfl, fun _ => (by decide : 0 < 2 ^ 24)⟩

theorem cbcInit (dir : Bool) (ptype : PType) : Statement (.cbcInit dir ptype) :=
  ⟨_, (dir, ptype, .ecb), rfl, initArg_operands dir ptype, rfl, rfl, fun _ => (by decide : 0 < 2 ^ 24)⟩

theorem cbcReset : Statement (.cbcReset) :=
  ⟨_, (false, .key, .ecb), rfl, rfl, rfl, rfl, fun _ => (by decide : 0 < 2 ^ 24)⟩

theorem cbcBlock (data : Bytes) (ocap : BitVec 24) : Statement (.cbcBlock data ocap) :=
  ⟨_, (false, .key, .ecb), rfl, rfl, rfl, rfl, id⟩

theorem cfbCfg (imm : BitVec 24) : Statement (.cfbCfg imm) :=
  ⟨_, (false, .key, .ecb), rfl, rfl, rfl, rfl, fun _ => (by decide : 0 < 2 ^ 24)⟩

theorem cfbInit (dir : Bool) (ptype : PType) : Statement (.cfbInit dir ptype) :=
  ⟨_, (dir, ptype, .ecb), rfl, initArg_operands dir ptype, rfl, rfl, fun _ => (by decide : 0 < 2 ^ 24)⟩

theorem cfbReset : Statement (.cfbReset) :=
  ⟨_, (false, .key, .ecb), rfl, rfl, rfl, rfl, fun _ => (by decide : 0 < 2 ^ 24)⟩

theorem cfbBlock (data : Bytes) (ocap : BitVec 24) : Statement (.cfbBlock data ocap) :=
  ⟨_, (false, .key, .ecb), rfl, rfl, rfl, rfl, id⟩

theorem cfbBytes (data : Bytes) (ocap : BitVec 24) : Statement (.cfbBytes data ocap) :=
  ⟨_, (false, .key, .ecb), rfl, rfl, rfl, rfl, id⟩

theorem ofbCfg (imm : BitVec 24) : Statement (.ofbCfg imm) :=
  ⟨_, (false, .key, .ecb), rfl, rfl, rfl, rfl, fun _ => (by decide : 0 < 2 ^ 24)⟩

theorem ofbInit (dir : Bool) (ptype : PType) : Statement (.ofbInit dir ptype) :=
  ⟨_, (dir, ptype, .ecb), rfl, initArg_operands dir ptype, rfl, rfl, fun _ => (by decide : 0 < 2 ^ 24)⟩

theorem ofbReset : Statement (.ofbReset) :=
  ⟨_, (false, .key, .ecb), rfl, rfl, rfl, rfl, fun _ => (by decide : 0 < 2 ^ 24)⟩

theorem ofbBlock (data : Bytes) (ocap : BitVec 24) : Statement (.ofbBlock data ocap) :=
  ⟨_, (false, .key, .ecb), rfl, rfl, rfl, rfl, id⟩

theorem ofbBytes (data : Bytes) (ocap : BitVec 24) : Statement (.ofbBytes data ocap) :=
  ⟨_, (false, .key, .ecb), rfl, rfl, rfl, rfl, id⟩

theorem ctrCfg : Statement (.ctrCfg) :=
  ⟨_, (false, .key, .ecb), rfl, rfl, rfl, rfl, fun _ => (by decide : 0 < 2 ^ 24)⟩

theorem ctrInit (dir : Bool) (ptype : PType) : Statement (.ctrInit dir ptype) :=
  ⟨_, (dir, ptype, .ecb), rfl, initArg_operands dir ptype, rfl, rfl, fun _ => (by decide : 0 < 2 ^ 24)⟩

theorem ctrReset : Statement (.ctrReset) :=
  ⟨_, (false, .key, .ecb), rfl, rfl, rfl, rfl, fun _ => (by decide : 0 < 2 ^ 24)⟩

theorem ctrBlock (data : Bytes) (ocap : BitVec 24) : Statement (.ctrBlock data ocap) :=
  ⟨_, (false, .key, .ecb), rfl, rfl, rfl, rfl, id⟩

theorem ctrBytes (data : Bytes) (ocap : BitVec 24) : Statement (.ctrBytes data ocap) :=
  ⟨_, (false, .key, .ecb), rfl, rfl, rfl, rfl, id⟩

theorem gcmCfg : Statement (.gcmCfg) :=
  ⟨_, (false, .key, .ecb), rfl, rfl, rfl, rfl, fun _ => (by decide : 0 < 2 ^ 24)⟩

theorem gcmInit (dir : Bool) (ptype : PType) : Statement (.gcmInit dir ptype) :=
  ⟨_, (dir, ptype, .ecb), rfl, initArg_operands dir ptype, rfl, rfl, fun _ => (by decide : 0 < 2 ^ 24)⟩

theorem gcmReset : Statement (.gcmReset) :=
  ⟨_, (false, .key, .ecb), rfl, rfl, rfl, rfl, fun _ => (by decide : 0 < 2 ^ 24)⟩

theorem gcmBytes (data : Bytes) (ocap : BitVec 24) : Statement (.gcmBytes data ocap) :=
  ⟨_, (false, .key, .ecb), rfl, rfl, rfl, rfl, id⟩

theorem gcmAad (data : Bytes) : Statement (.gcmAad data) :=
  ⟨_, (false, .key, .ecb), rfl, rfl, rfl, rfl, id⟩

theorem gcmFinal (ocap : BitVec 24) : Statement (.gcmFinal ocap) :=
  ⟨_, (false, .key, .ecb), rfl, rfl, rfl, rfl, fun _ => (by decide : 0 < 2 ^ 24)⟩

theorem gcmOsize (len : BitVec 64) (ocap : BitVec 24) : Statement (.gcmOsize len ocap) :=
  ⟨_, (false, .key, .ecb), rfl, rfl, by simp [ilenLegal, Instr.ilen, Instr.packet], congrArg (fun n => Instr.gcmOsize n ocap) (osize_operand len), fun _ => by simp [Instr.ilen, Instr.packet]⟩

theorem bpcCfg (kind : Kind) (imm : BitVec 24) : Statement (.bpcCfg kind imm) :=
  ⟨_, (false, .key, kind), rfl, kindArg_operands kind, rfl, rfl, fun _ => (by decide : 0 < 2 ^ 24)⟩

theorem bpcInit (dir : Bool) (ptype : PType) : Statement (.bpcInit dir ptype) :=
  ⟨_, (dir, ptype, .ecb), rfl, initArg_operands dir ptype, rfl, rfl, fun _ => (by decide : 0 < 2 ^ 24)⟩

theorem bpcReset : Statement (.bpcReset) :=
  ⟨_, (false, .key, .ecb), rfl, rfl, rfl, rfl, fun _ => (by decide : 0 < 2 ^ 24)⟩

theorem bpcBytes (data : Bytes) (ocap : BitVec 24) : Statement (.bpcBytes data ocap) :=
  ⟨_, (false, .key, .ecb), rfl, rfl, rfl, rfl, id⟩

theorem bpcFinal (ocap : BitVec 24) : Statement (.bpcFinal ocap) :=
  ⟨_, (false, .key, .ecb), rfl, rfl, rfl, rfl, fun _ => (by decide : 0 < 2 ^ 24)⟩

theorem bpcOsize (len : BitVec 64) (ocap : BitVec 24) : Statement (.bpcOsize len ocap) :=
  ⟨_, (false, .key, .ecb), rfl, rfl, by simp [ilenLegal, Instr.ilen, Instr.packet], congrArg (fun n => Instr.bpcOsize n ocap) (osize_operand len), fun _ => by simp [Instr.ilen, Instr.packet]⟩

theorem hmacCfg : Statement (.hmacCfg) :=
  ⟨_, (false, .key, .ecb), rfl, rfl, rfl, rfl, fun _ => (by decide : 0 < 2 ^ 24)⟩

theorem hmacInit (dir : Bool) (ptype : PType) : Statement (.hmacInit dir ptype) :=
  ⟨_, (dir, ptype, .ecb), rfl, initArg_operands dir ptype, rfl, rfl, fun _ => (by decide : 0 < 2 ^ 24)⟩

theorem hmacReset : Statement (.hmacReset) :=
  ⟨_, (false, .key, .ecb), rfl, rfl, rfl, rfl, fun _ => (by decide : 0 < 2 ^ 24)⟩

theorem hmacUpdate (data : Bytes) : Statement (.hmacUpdate data) :=
  ⟨_, (false, .key, .ecb), rfl, rfl, rfl, rfl, id⟩

theorem hmacFinal (ocap : BitVec 24) : Statement (.hmacFinal ocap) :=
  ⟨_, (false, .key, .ecb), rfl, rfl, rfl, rfl, fun _ => (by decide : 0 < 2 ^ 24)⟩

theorem kmacCfg (imm : BitVec 24) : Statement (.kmacCfg imm) :=
  ⟨_, (false, .key, .ecb), rfl, rfl, rfl, rfl, fun _ => (by decide : 0 < 2 ^ 24)⟩

theorem kmacInit (dir : Bool) (ptype : PType) : Statement (.kmacInit dir ptype) :=
  ⟨_, (dir, ptype, .ecb), rfl, initArg_operands dir ptype, rfl, rfl, fun _ => (by decide : 0 < 2 ^ 24)⟩

theorem kmacReset : Statement (.kmacReset) :=
  ⟨_, (false, .key, .ecb), rfl, rfl, rfl, rfl, fun _ => (by decide : 0 < 2 ^ 24)⟩

theorem kmacUpdate (data : Bytes) : Statement (.kmacUpdate data) :=
  ⟨_, (false, .key, .ecb), rfl, rfl, rfl, rfl, id⟩

theorem kmacFinal (ocap : BitVec 24) : Statement (.kmacFinal ocap) :=
  ⟨_, (false, .key, .ecb), rfl, rfl, rfl, rfl, fun _ => (by decide : 0 < 2 ^ 24)⟩

end Sys2Proof.Laws.PacketShape
end

