-- ==== Sys2Proof/Tests/Slice0.lean ====
section
/-! SUPPORT. The model's own tests: one ill-formed command for the well-formedness check, a word written out from
30_encoding.md for every command, a few single steps with results from the spec, and a witness for the hypotheses of
every statement that has some. -/

namespace Sys2Proof.Machine

open Sys2Proof Sys2Proof.Config

/-! ## Well-formedness (R9, R90) -/

theorem sysLdkey_wellFormed_iff (d : Bytes) : (Instr.sysLdkey d).WellFormed ↔ d.length < 16777216 := Iff.rfl

theorem test_payload_one_too_long_refused : ¬ (Instr.sysLdkey (List.replicate 16777216 0)).WellFormed := by
  rw [sysLdkey_wellFormed_iff, List.length_replicate]; exact Nat.lt_irrefl _

theorem test_payload_longest_accepted : (Instr.sysLdkey (List.replicate 16777215 0)).WellFormed := by
  rw [sysLdkey_wellFormed_iff, List.length_replicate]; exact Nat.lt_succ_self _

/-! ## Decoding: words written out from the fields of R90 and the rows of R101 -/

theorem test_decode_sys :
    decode [0x00, 0x00, 0x00, 0x00, 0x00, 0x00, 0x00, 0x00] = .ok (.sysNop) [] ∧
    decode [0x01, 0x00, 0x00, 0x00, 0x03, 0x00, 0x00, 0x00, 0xaa, 0xbb, 0xcc] = .ok (.sysLdkey [0xaa, 0xbb, 0xcc]) [] ∧
    decode [0x02, 0x00, 0x00, 0x00, 0x00, 0x00, 0x00, 0x00] = .ok (.sysClrkey) [] ∧
    decode [0x03, 0x00, 0x00, 0x00, 0x03, 0x00, 0x00, 0x00, 0xaa, 0xbb, 0xcc] = .ok (.sysLdiv [0xaa, 0xbb, 0xcc]) [] ∧
    decode [0x04, 0x00, 0x00, 0x00, 0x00, 0x00, 0x00, 0x00] = .ok (.sysClriv) [] ∧
    decode [0x05, 0x00, 0x00, 0x00, 0x03, 0x00, 0x00, 0x00, 0xaa, 0xbb, 0xcc] = .ok (.sysLdaad [0xaa, 0xbb, 0xcc]) [] ∧
    decode [0x06, 0x00, 0x00, 0x00, 0x00, 0x00, 0x00, 0x00] = .ok (.sysClraad) [] ∧
    decode [0x07, 0x00, 0x00, 0x00, 0x00, 0x00, 0x00, 0x60] = .ok (.sysLdmac 96) [] ∧
    decode [0x08, 0x00, 0x00, 0x00, 0x00, 0x00, 0x00, 0x00] = .ok (.sysClrmac) [] ∧
    decode [0x09, 0x00, 0x00, 0x00, 0x00, 0x00, 0x00, 0x04] = .ok (.sysStatus 4) [] := by decide

theorem test_decode_gf :
    decode [0x10, 0x00, 0x00, 0x00, 0x03, 0x00, 0x00, 0x10, 0xaa, 0xbb, 0xcc] = .ok (.gfXor [0xaa, 0xbb, 0xcc] 16) [] ∧
    decode [0x11, 0x00, 0x00, 0x00, 0x03, 0x00, 0x00, 0x10, 0xaa, 0xbb, 0xcc] = .ok (.gfMul [0xaa, 0xbb, 0xcc] 16) [] ∧
    decode [0x12, 0x00, 0x00, 0x00, 0x03, 0x00, 0x00, 0x10, 0xaa, 0xbb, 0xcc] = .ok (.gfGhash [0xaa, 0xbb, 0xcc] 16) [] := by decide

theorem test_decode_ecb :
    decode [0x20, 0x00, 0x00, 0x00, 0x00, 0x00, 0x00, 0x00] = .ok (.ecbCfg) [] ∧
    decode [0x21, 0x01, 0x00, 0x00, 0x00, 0x00, 0x00, 0x00] = .ok (.ecbInit true .key) [] ∧
    decode [0x22, 0x00, 0x00, 0x00, 0x00, 0x00, 0x00, 0x00] = .ok (.ecbReset) [] ∧
    decode [0x23, 0x00, 0x00, 0x00, 0x03, 0x00, 0x00, 0x10, 0xaa, 0xbb, 0xcc] = .ok (.ecbBlock [0xaa, 0xbb, 0xcc] 16) [] := by decide

theorem test_decode_cbc :
    decode [0x30, 0x00, 0x00, 0x00, 0x00, 0x00, 0x00, 0x00] = .ok (.cbcCfg) [] ∧
    decode [0x31, 0x02, 0x00, 0x00, 0x00, 0x00, 0x00, 0x00] = .ok (.cbcInit false .keyIv) [] ∧
    decode [0x32, 0x00, 0x00, 0x00, 0x00, 0x00, 0x00, 0x00] = .ok (.cbcReset) [] ∧
    decode [0x33, 0x00, 0x00, 0x00, 0x03, 0x00, 0x00, 0x10, 0xaa, 0xbb, 0xcc] = .ok (.cbcBlock [0xaa, 0xbb, 0xcc] 16) [] := by decide

theorem test_decode_cfb :
    decode [0x40, 0x00, 0x00, 0x00, 0x00, 0x00, 0x00, 0x40] = .ok (.cfbCfg 64) [] ∧
    decode [0x41, 0x03, 0x00, 0x00, 0x00, 0x00, 0x00, 0x00] = .ok (.cfbInit true .keyIv) [] ∧
    decode [0x42, 0x00, 0x00, 0x00, 0x00, 0x00, 0x00, 0x00] = .ok (.cfbReset) [] ∧
    decode [0x43, 0x00, 0x00, 0x00, 0x03, 0x00, 0x00, 0x10, 0xaa, 0xbb, 0xcc] = .ok (.cfbBlock [0xaa, 0xbb, 0xcc] 16) [] ∧
    decode [0x44, 0x00, 0x00, 0x00, 0x03, 0x01, 0x02, 0x03, 0xaa, 0xbb, 0xcc] = .ok (.cfbBytes [0xaa, 0xbb, 0xcc] 0x010203) [] := by decide

theorem test_decode_ofb :
    decode [0x50, 0x00, 0x00, 0x00, 0x00, 0x00, 0x00, 0x40] = .ok (.ofbCfg 64) [] ∧
    decode [0x51, 0x04, 0x00, 0x00, 0x00, 0x00, 0x00, 0x00] = .ok (.ofbInit false .aead) [] ∧
    decode [0x52, 0x00, 0x00, 0x00, 0x00, 0x00, 0x00, 0x00] = .ok (.ofbReset) [] ∧
    decode [0x53, 0x00, 0x00, 0x00, 0x03, 0x00, 0x00, 0x10, 0xaa, 0xbb, 0xcc] = .ok (.ofbBlock [0xaa, 0xbb, 0xcc] 16) [] ∧
    decode [0x54, 0x00, 0x00, 0x00, 0x03, 0x01, 0x02, 0x03, 0xaa, 0xbb, 0xcc] = .ok (.ofbBytes [0xaa, 0xbb, 0xcc] 0x010203) [] := by decide

theorem test_decode_ctr :
    decode [0x60, 0x00, 0x00, 0x00, 0x00, 0x00, 0x00, 0x00] = .ok (.ctrCfg) [] ∧
    decode [0x61, 0x07, 0x00, 0x00, 0x00, 0x00, 0x00, 0x00] = .ok (.ctrInit true .keyRandom) [] ∧
    decode [0x62, 0x00, 0x00, 0x00, 0x00, 0x00, 0x00, 0x00] = .ok (.ctrReset) [] ∧
    decode [0x63, 0x00, 0x00, 0x00, 0x03, 0x00, 0x00, 0x10, 0xaa, 0xbb, 0xcc] = .ok (.ctrBlock [0xaa, 0xbb, 0xcc] 16) [] ∧
    decode [0x64, 0x00, 0x00, 0x00, 0x03, 0x01, 0x02, 0x03, 0xaa, 0xbb, 0xcc] = .ok (.ctrBytes [0xaa, 0xbb, 0xcc] 0x010203) [] := by decide

theorem test_decode_gcm :
    decode [0x70, 0x00, 0x00, 0x00, 0x00, 0x00, 0x00, 0x00] = .ok (.gcmCfg) [] ∧
    decode [0x71, 0x05, 0x00, 0x00, 0x00, 0x00, 0x00, 0x00] = .ok (.gcmInit true .aead) [] ∧
    decode [0x72, 0x00, 0x00, 0x00, 0x00, 0x00, 0x00, 0x00] = .ok (.gcmReset) [] ∧
    decode [0x74, 0x00, 0x00, 0x00, 0x03, 0x00, 0x00, 0x20, 0xaa, 0xbb, 0xcc] = .ok (.gcmBytes [0xaa, 0xbb, 0xcc] 32) [] ∧
    decode [0x75, 0x00, 0x00, 0x00, 0x03, 0x00, 0x00, 0x00, 0xaa, 0xbb, 0xcc] = .ok (.gcmAad [0xaa, 0xbb, 0xcc]) [] ∧
    decode [0x76, 0x00, 0x00, 0x00, 0x00, 0x00, 0x00, 0x20] = .ok (.gcmFinal 32) [] ∧
    decode [0x77, 0x00, 0x00, 0x00, 0x08, 0x00, 0x00, 0x08, 0x01, 0x02, 0x03, 0x04, 0x05, 0x06, 0x07, 0x08] = .ok (.gcmOsize 0x0102030405060708 8) [] := by decide

theorem test_decode_bpc :
    decode [0x80, 0x04, 0x00, 0x00, 0x00, 0x00, 0x00, 0x08] = .ok (.bpcCfg .ofb 8) [] ∧
    decode [0x81, 0x03, 0x00, 0x00, 0x00, 0x00, 0x00, 0x00] = .ok (.bpcInit true .keyIv) [] ∧
    decode [0x82, 0x00, 0x00, 0x00, 0x00, 0x00, 0x00, 0x00] = .ok (.bpcReset) [] ∧
    decode [0x84, 0x00, 0x00, 0x00, 0x03, 0x00, 0x00, 0x20, 0xaa, 0xbb, 0xcc] = .ok (.bpcBytes [0xaa, 0xbb, 0xcc] 32) [] ∧
    decode [0x86, 0x00, 0x00, 0x00, 0x00, 0x00, 0x00, 0x20] = .ok (.bpcFinal 32) [] ∧
    decode [0x87, 0x00, 0x00, 0x00, 0x08, 0x00, 0x00, 0x08, 0x00, 0x00, 0x00, 0x00, 0x00, 0x00, 0x00, 0x05] = .ok (.bpcOsize 5 8) [] := by decide

theorem test_decode_hmac :
    decode [0x90, 0x00, 0x00, 0x00, 0x00, 0x00, 0x00, 0x00] = .ok (.hmacCfg) [] ∧
    decode [0x91, 0x00, 0x00, 0x00, 0x00, 0x00, 0x00, 0x00] = .ok (.hmacInit false .key) [] ∧
    decode [0x92, 0x00, 0x00, 0x00, 0x00, 0x00, 0x00, 0x00] = .ok (.hmacReset) [] ∧
    decode [0x94, 0x00, 0x00, 0x00, 0x03, 0x00, 0x00, 0x00, 0xaa, 0xbb, 0xcc] = .ok (.hmacUpdate [0xaa, 0xbb, 0xcc]) [] ∧
    decode [0x96, 0x00, 0x00, 0x00, 0x00, 0x00, 0x00, 0x20] = .ok (.hmacFinal 32) [] := by decide

theorem test_decode_kmac :
    decode [0xa0, 0x00, 0x00, 0x00, 0x00, 0x00, 0x00, 0x80] = .ok (.kmacCfg 128) [] ∧
    decode [0xa1, 0x03, 0x00, 0x00, 0x00, 0x00, 0x00, 0x00] = .ok (.kmacInit true .keyIv) [] ∧
    decode [0xa2, 0x00, 0x00, 0x00, 0x00, 0x00, 0x00, 0x00] = .ok (.kmacReset) [] ∧
    decode [0xa4, 0x00, 0x00, 0x00, 0x03, 0x00, 0x00, 0x00, 0xaa, 0xbb, 0xcc] = .ok (.kmacUpdate [0xaa, 0xbb, 0xcc]) [] ∧
    decode [0xa6, 0x00, 0x00, 0x00, 0x00, 0x00, 0x00, 0x10] = .ok (.kmacFinal 16) [] := by decide

/-- R93, R94, R97: a reserved unit, a missing operation, a non-zero `ARG`, a reserved `PTYPE`, a reserved `KIND`, a
payload where none is allowed, an `OSIZE` payload that is not eight bytes, a short word and a short payload. -/
theorem test_decode_rejects :
    decode [0xb0, 0, 0, 0, 0, 0, 0, 0] = .bad (.illegalOp 11 0) ∧
    decode [0x73, 0, 0, 0, 0, 0, 0, 0] = .bad (.illegalOp 7 3) ∧
    decode [0x00, 0x01, 0, 0, 0, 0, 0, 0] = .bad (.illegalArg 0 0) ∧
    decode [0x21, 0x08, 0, 0, 0, 0, 0, 0] = .bad (.illegalArg 2 1) ∧
    decode [0x80, 0x06, 0, 0, 0, 0, 0, 0] = .bad (.illegalArg 8 0) ∧
    decode [0x20, 0, 0, 0, 1, 0, 0, 0, 0xff] = .bad (.illegalLen 2 0) ∧
    decode [0x77, 0, 0, 0, 7, 0, 0, 8] = .bad (.illegalLen 7 7) ∧
    decode [0x20, 0, 0, 0, 0, 0, 0] = .bad .truncWord ∧
    decode [0x01, 0, 0, 0, 2, 0, 0, 0, 0xff] = .bad (.truncPayload 0 1) := by decide

/-! ## Single steps, with results from the spec's examples -/

/-- What one step answers from `s` when the packet `b` stands at `cp`: `RUN`, `cp` and the response bytes. -/
def stepOn (s : State) (b : Bytes) : Option (RunState × BitVec 32 × Bytes) :=
  match step (placePacket s b) with
  | .next t => some (t.run, t.cp, t.rs)
  | .fault _ => none
  | .refused _ => none

/-- A field of the state after one step with the packet `b` at `cp`. -/
def afterStep {α : Type} (f : State → α) (s : State) (b : Bytes) : Option α :=
  match step (placePacket s b) with
  | .next t => some (f t)
  | .fault _ => none
  | .refused _ => none

/-- 95_test_vectors.md X1, X3, X4, X5. -/
theorem test_step_sys :
    stepOn State.reset [] = some (.done, 0, []) ∧
    stepOn State.reset [0, 0, 0, 0, 0, 0xab, 0xcd, 0xef] = some (.running, 8, [0, 0, 0, 0, 0, 0, 0, 0]) ∧
    stepOn State.reset [9, 0, 0, 0, 0, 0, 0, 4] = some (.running, 8, [0, 9, 0, 0, 4, 0, 0, 0, 0, 0, 0, 1]) ∧
    stepOn State.reset [9, 0, 0, 0, 0, 0, 0, 3] = some (.halted, 0, [0x82, 9, 0, 0, 0, 0, 0, 0]) := by decide

/-- 95_test_vectors.md X6, X18, X19. -/
theorem test_step_rejects :
    stepOn State.reset [0xb0, 0, 0, 0, 0, 0, 0, 0] = some (.halted, 0, [0x80, 0xb0, 0, 0, 0, 0, 0, 0]) ∧
    stepOn State.reset (zeros 7) = some (.halted, 0, [0x81, 0, 0, 0, 0, 0, 0, 0]) ∧
    stepOn State.reset ([1, 0, 0, 0, 0x10, 0, 0, 0] ++ zeros 10) =
      some (.halted, 0, [0x81, 1, 0, 0, 0, 0, 0, 0]) := by decide

/-- 40_sys.md R122, R128: a key of three bytes and a MAC size of 96 bits are staged. -/
theorem test_step_staging :
    afterStep State.p State.reset [1, 0, 0, 0, 3, 0, 0, 0, 0xaa, 0xbb, 0xcc] =
      some { Staged.reset with keyv := true, key := [0xaa, 0xbb, 0xcc] } ∧
    afterStep State.p State.reset [7, 0, 0, 0, 0, 0, 0, 0x60] =
      some { Staged.reset with macv := true, mac := 96 } := by decide

/-- 41_gf128.md R147, R148: the example of each rule. -/
theorem test_step_gf :
    stepOn State.reset ([0x10, 0, 0, 0, 0x20, 0, 0, 0x10] ++
        beBytes 32 0x0123456789abcdeffedcba9876543210ffffffffffffffffffffffffffffffff) =
      some (.running, 40, [0, 0x10, 0, 0, 0x10, 0, 0, 0] ++ beBytes 16 0xfedcba98765432100123456789abcdef) ∧
    stepOn State.reset ([0x11, 0, 0, 0, 0x20, 0, 0, 0x10] ++
        beBytes 32 0x0388dace60b6a392f328c2b971b2fe7866e94bd4ef8a2c3b884cfa59ca342b2e) =
      some (.running, 40, [0, 0x11, 0, 0, 0x10, 0, 0, 0] ++ beBytes 16 0x5e2ec746917062882c85b0685353deb7) := by
  decide +kernel

/-- 95_test_vectors.md M11, M12, M13. -/
theorem test_ghash :
    ghash 0 (beBytes 32 0x0388dace60b6a392f328c2b971b2fe7800000000000000000000000000000080)
      0x66e94bd4ef8a2c3b884cfa59ca342b2e = 0xf38cbb1ad69223dcc3457ae5b6b0f885 ∧
    ghash 0 [1, 2] 0x66e94bd4ef8a2c3b884cfa59ca342b2e = 0xb5e73932868caa70c7feb8c75af34086 ∧
    ghash 0x00112233445566778899aabbccddeeff [] 0x66e94bd4ef8a2c3b884cfa59ca342b2e =
      0x00112233445566778899aabbccddeeff := by decide +kernel

/-- 60_exceptions.md R322, R327: a data command of every unit before its INIT answers `E_UNINIT` and goes on. -/
theorem test_step_uninit :
    stepOn State.reset ([0x33, 0, 0, 0, 0x10, 0, 0, 0x10] ++ zeros 16) =
      some (.running, 24, [0x10, 0x33, 0, 0, 0, 0, 0, 0]) ∧
    stepOn State.reset [0x75, 0, 0, 0, 1, 0, 0, 0, 7] = some (.running, 9, [0x10, 0x75, 0, 0, 0, 0, 0, 0]) ∧
    stepOn State.reset [0x86, 0, 0, 0, 0, 0, 0, 0xff] = some (.running, 8, [0x10, 0x86, 0, 0, 0, 0, 0, 0]) ∧
    stepOn State.reset [0x96, 0, 0, 0, 0, 0, 0, 0xff] = some (.running, 8, [0x10, 0x96, 0, 0, 0, 0, 0, 0]) ∧
    stepOn State.reset [0xa4, 0, 0, 0, 1, 0, 0, 0, 7] = some (.running, 9, [0x10, 0xa4, 0, 0, 0, 0, 0, 0]) ∧
    afterStep State.lasterr State.reset [0xa4, 0, 0, 0, 1, 0, 0, 0, 7] = some 0x10 := by decide

/-- 43_cfb_ofb.md R181: the least and the greatest feedback size, and a size that is no number of bytes. -/
theorem test_step_feedback_size :
    afterStep (fun t => t.cfb.fbb) State.reset [0x40, 0, 0, 0, 0, 0, 0, 8] = some 1 ∧
    afterStep (fun t => t.ofb.fbb) State.reset [0x50, 0, 0, 0, 0, 0, 0, 128] = some 16 ∧
    stepOn State.reset [0x40, 0, 0, 0, 0, 0, 0, 12] = some (.halted, 0, [0x84, 0x40, 0, 0, 0, 0, 0, 0]) := by decide

/-- 46_bpc.md R261, 48_kmac.md R301: construction with a kind and with a MAC size. -/
theorem test_step_construction :
    afterStep (fun t => (t.b.mode, t.b.m.fbb)) State.reset [0x80, 4, 0, 0, 0, 0, 0, 64] = some (some .ofb, 8) ∧
    afterStep (fun t => t.km.macbits) State.reset [0xa0, 0, 0, 0, 0, 0, 0, 128] = some .m128 ∧
    afterStep (fun t => t.km.macbits) State.reset [0xa0, 0, 0, 0, 0, 0, 0, 33] = some .m64 := by decide

/-- 45_gcm.md R238, R231: the size of five bytes in an open encrypt session with three bytes buffered and a 12-byte tag,
and two bytes of associated data. -/
theorem test_step_gcm :
    stepOn { State.reset with g := { Gcm.reset with inited := true, dir := true, macb := 12, pbuf := [1, 2, 3] } }
        [0x77, 0, 0, 0, 8, 0, 0, 8, 0, 0, 0, 0, 0, 0, 0, 5] =
      some (.running, 16, [0, 0x77, 0, 0, 8, 0, 0, 0, 0, 0, 0, 0, 0, 0, 0, 20]) ∧
    afterStep (fun t => (t.g.atbuf, t.g.atlen)) { State.reset with g := { Gcm.reset with inited := true } }
        [0x75, 0, 0, 0, 2, 0, 0, 0, 8, 9] = some ([8, 9], 2) := by decide

/-- 46_bpc.md R268: six bytes buffered in blocks of 16, and eleven more, when encrypting and when decrypting. -/
theorem test_step_bpc_osize :
    stepOn { State.reset with b := { Bpc.reset with mode := some .cbc, dir := true, inited := true, buf := zeros 6 } }
        [0x87, 0, 0, 0, 8, 0, 0, 8, 0, 0, 0, 0, 0, 0, 0, 11] =
      some (.running, 16, [0, 0x87, 0, 0, 8, 0, 0, 0, 0, 0, 0, 0, 0, 0, 0, 32]) ∧
    stepOn { State.reset with b := { Bpc.reset with mode := some .cbc, inited := true, buf := zeros 6 } }
        [0x87, 0, 0, 0, 8, 0, 0, 8, 0, 0, 0, 0, 0, 0, 0, 10] =
      some (.running, 16, [0, 0x87, 0, 0, 8, 0, 0, 0, 0, 0, 0, 0, 0, 0, 0, 16]) := by decide

/-- 47_hmac.md R284, 48_kmac.md R304: the message buffers grow by the payload. -/
theorem test_step_update :
    afterStep (fun t => t.hm.dg) { State.reset with hm := { Hmac.reset with inited := true, dg := [1] } }
        [0x94, 0, 0, 0, 2, 0, 0, 0, 2, 3] = some [1, 2, 3] ∧
    afterStep (fun t => t.km.msg) { State.reset with km := { Kmac.reset with inited := true, msg := [1] } }
        [0xa4, 0, 0, 0, 2, 0, 0, 0, 2, 3] = some [1, 2, 3] := by decide

/-- 42_ecb_cbc.md R161, 44_ctr.md R202: RESET restores the IV; in counter mode only the nonce bytes. -/
theorem test_step_reset :
    afterStep (fun t => t.cbc.r)
        { State.reset with cbc := { ModeCtx.reset with inited := true, keyed := true, iv := 5, r := 9 } }
        [0x32, 0, 0, 0, 0, 0, 0, 0] = some 5 ∧
    afterStep (fun t => t.ctr.r)
        { State.reset with ctr := { ModeCtx.reset with inited := true, keyed := true, n := 15, iv := 0x0500, r := 9 } }
        [0x62, 0, 0, 0, 0, 0, 0, 0] = some 0x0509 := by decide

/-- The engine that has ended or halted makes no step (30_encoding.md R97, 60_exceptions.md R326). -/
theorem test_step_stopped :
    step { State.reset with run := .done } = .fault .done ∧
    step { State.reset with run := .halted } = .fault .halted := ⟨rfl, rfl⟩

/-- The instruction placed by `withFetchWord` is the one the next step runs. -/
theorem test_withFetchWord :
    fetch (State.reset.withFetchWord 64 0x3300000010000010) = .command (.cbcBlock (zeros 16) 16) ∧
    decodeTableWord 64 0x3300000010000010 = some (.cbcBlock (zeros 16) 16) := by decide

/-! ## Witnesses: for every statement with hypotheses, concrete values that meet them -/

/-- An engine in reset state that runs the bytes `cs`. -/
def running (cs : Bytes) : State := { State.reset with cs := cs }

/-- A mode context after an INIT, with register 9 and IV 5. -/
def keyedCtx : ModeCtx := { ModeCtx.reset with keyed := true, inited := true, iv := 5, r := 9 }

/-- An open GCM session just after its INIT. -/
def openGcm (dir : Bool) : Gcm := { Gcm.reset with inited := true, dir := dir, macb := 16, h := bcEnc [] 0 }

/-- The private context of an initialised buffered cipher; counter mode with a 16-byte nonce. -/
def readyCtx (k : Kind) (dir : Bool) : ModeCtx :=
  { ModeCtx.reset with keyed := true, inited := true, dir := dir, n := if k = .ctr then 16 else 0 }

theorem readyCtx_inv (k : Kind) (dir : Bool) : (readyCtx k dir).Inv k := by
  cases k <;> cases dir <;> decide

/-- An initialised buffered cipher with the buffer `buf`. -/
def readyBpc (k : Kind) (dir : Bool) (buf : Bytes) : Bpc :=
  { mode := some k, m := readyCtx k dir, buf := buf, dir := dir, inited := true, finished := false }

theorem readyBpc_inv (k : Kind) (dir : Bool) (buf : Bytes) (h : buf.length ≤ mbs k (readyCtx k dir)) :
    (readyBpc k dir buf).Inv := by
  refine ⟨fun h => (by cases h), fun k' e => ?_⟩
  cases e
  exact ⟨readyCtx_inv k dir, rfl, h, rfl, fun h => (by cases h), fun _ => rfl, fun h => (by cases h)⟩

theorem openGcm_inv (dir : Bool) : (openGcm dir).Inv := by
  cases dir <;>
  exact ⟨fun h => (by cases h), fun _ => ⟨by decide, by decide, rfl⟩, by decide, by decide, fun _ => rfl,
    fun _ => ⟨rfl, rfl, rfl, rfl⟩, fun _ => rfl, fun _ => ⟨rfl, rfl⟩, by decide, by decide, by decide, by decide⟩

theorem openGcm_fresh (dir : Bool) : (openGcm dir).Fresh :=
  ⟨rfl, rfl, rfl, rfl, rfl, rfl, rfl, rfl, rfl, rfl, Nat.le_refl 16⟩

theorem reset_bpc_inv : State.reset.b.Inv := ⟨fun _ => rfl, fun _ h => by cases h⟩

theorem test_hyp_DecodeInvertsEncode : (Instr.gcmOsize 5 8).WellFormed := by decide

theorem test_hyp_DecodedBytesAreThePacket :
    decode [0x75, 0, 0, 0, 1, 0xab, 0xcd, 0xef, 7, 8] = .ok (.gcmAad [7]) [8] := by decide

theorem test_hyp_OpcodeMapDecidesWhichWordsAreLegal :
    (∃ r ∈ opcodeMap, SelectsRow 0x8005000000000040 r) ∧
    (NamesCommand 0x3300000001000010 ∧ ((0x3300000001000010 : BitVec 64).extractLsb' 24 24).toNat ≤ [7].length) ∧
    ¬ NamesCommand 0x8006000000000000 := by decide

theorem test_hyp_StepRunsTheDecodedCommand :
    (running [0x20, 0, 0, 0, 0, 0, 0, 0, 1]).run = .running ∧
    decode ((running [0x20, 0, 0, 0, 0, 0, 0, 0, 1]).cs.drop (running [0x20, 0, 0, 0, 0, 0, 0, 0, 1]).cp.toNat) =
      .ok .ecbCfg [1] := by decide

/-- One state for each of the five cases: the end, seven bytes, an unknown unit, a payload one byte short, a command. -/
theorem test_hyp_FetchRule :
    ((running []).run = .running ∧ (running []).cp.toNat = (running []).cs.length) ∧
    (zeros 7).length < 8 ∧
    ¬ NamesCommand (BitVec.ofNat 64 (beNat ([0xb0, 0, 0, 0, 0, 0, 0, 0] : Bytes))) ∧
    NamesCommand (BitVec.ofNat 64 (beNat ([0x01, 0, 0, 0, 2, 0, 0, 0] : Bytes))) ∧
    ([0x01, 0, 0, 0, 2, 0, 0, 0, 7] : Bytes).length - 8 <
      ((BitVec.ofNat 64 (beNat ([0x01, 0, 0, 0, 2, 0, 0, 0] : Bytes))).extractLsb' 24 24).toNat ∧
    ((BitVec.ofNat 64 (beNat ([0x01, 0, 0, 0, 2, 0, 0, 0] : Bytes))).extractLsb' 24 24).toNat ≤
      ([0x01, 0, 0, 0, 2, 0, 0, 0, 7, 8] : Bytes).length - 8 := by decide

theorem test_hyp_StoppedEngineMakesNoStep :
    ({ State.reset with run := .done } : State).run = .done ∧
    ({ State.reset with run := .halted } : State).run = .halted := ⟨rfl, rfl⟩

theorem test_hyp_OneResponsePerFetchedCommand :
    ((∃ t, step (running []) = .next t) ∧ (running []).cp.toNat = (running []).cs.length) ∧
    ((∃ t, step (running (zeros 8)) = .next t) ∧ (running (zeros 8)).cp.toNat ≠ (running (zeros 8)).cs.length) :=
  ⟨⟨⟨_, rfl⟩, rfl⟩, ⟨⟨_, rfl⟩, by decide⟩⟩

theorem test_hyp_OtherBytesOfTheStreamDoNotMatter :
    decode ((running (zeros 8 ++ [1])).cs.drop (running (zeros 8 ++ [1])).cp.toNat) = .ok .sysNop [1] ∧
    (∀ j, j < 8 + Instr.ilen .sysNop → (zeros 8 ++ [2, 3])[0 + j]? = (running (zeros 8 ++ [1])).cs[0 + j]?) ∧
    ∃ t, step (running (zeros 8 ++ [1])) = .next t :=
  ⟨by decide, by decide, ⟨_, rfl⟩⟩

theorem test_hyp_OutputFitsTheCallersBuffer :
    State.reset.b.Inv ∧ ocapOf (.sysStatus 4) = some 4 ∧ ∃ t, AnswersOk (.sysStatus 4) State.reset t [0, 0, 0, 1] :=
  ⟨reset_bpc_inv, rfl, _, rfl, by decide⟩

theorem test_hyp_CommandSeesOnlyItsUnit :
    (∀ o, Instr.cbcReset ≠ .sysStatus o) ∧
    SameView (Instr.unit .cbcReset) State.reset { State.reset with ecb := keyedCtx, lasterr := 0x10 } ∧
    (∃ t, exec .cbcReset State.reset = .next t) ∧
    ∃ t, exec .cbcReset { State.reset with ecb := keyedCtx, lasterr := 0x10 } = .next t :=
  ⟨by simp, ⟨rfl, rfl, fun h => absurd h (by decide), fun _ => rfl, fun _ => rfl, fun _ => rfl, fun _ => rfl, fun _ => rfl,
    fun _ => rfl, fun _ => rfl, fun _ => rfl⟩, ⟨_, rfl⟩, ⟨_, rfl⟩⟩

theorem test_hyp_StatusReadsTheFlags : (3 : BitVec 24).toNat < 4 ∧ 4 ≤ (4 : BitVec 24).toNat := by decide

theorem test_hyp_GhashFoldsOneBlockAtATime :
    (1 ≤ ([7] : Bytes).length ∧ (zeros 16).length ≤ 16) ∧ (zeros 16).length % 16 = 0 := by decide

theorem test_hyp_FeedbackSizeIsOneToSixteenBytes :
    (8 : BitVec 24).toNat = 8 * 1 ∧ (128 : BitVec 24).toNat = 8 * 16 ∧
    (∀ k, 1 ≤ k → k ≤ 16 → (0 : BitVec 24).toNat ≠ 8 * k) ∧
    (∀ k, 1 ≤ k → k ≤ 16 → (12 : BitVec 24).toNat ≠ 8 * k) ∧
    (∀ k, 1 ≤ k → k ≤ 16 → (136 : BitVec 24).toNat ≠ 8 * k) ∧ (Kind.ctr = .ecb ∨ Kind.ctr = .cbc ∨ Kind.ctr = .ctr) := by
  refine ⟨by decide, by decide, ?_, ?_, ?_, by decide⟩ <;> intro k h1 h2 <;> simp <;> omega

/-- A state with a 16-byte IV staged, no key staged, and every unit keyed before. -/
def ivOnly : State :=
  { State.reset with p := { Staged.reset with ivv := true, iv := zeros 16 },
                     cbc := keyedCtx, cfb := keyedCtx, ofb := keyedCtx, ctr := keyedCtx }

theorem test_hyp_IvOnlyReinitKeepsTheKey :
    ivOnly.p.keyv = false ∧ ivOnly.p.ivv = true ∧ ivOnly.p.iv.length = 16 ∧ ivOnly.cbc.keyed = true ∧
    ivOnly.cbc.dir = false ∧ ivOnly.cfb.keyed = true ∧ ivOnly.ofb.keyed = true ∧ ivOnly.ctr.keyed = true := by decide

/-- With a block after the corrupted one, and with none. -/
theorem test_hyp_CbcErrorPropagationIsBounded :
    ivOnly.cbc.inited = true ∧ ivOnly.cbc.dir = false ∧ (∀ x ∈ [zeros 16], x.length = 16) ∧
    (∀ x ∈ ([] : List Bytes), x.length = 16) ∧
    (List.replicate 16 7 : Bytes).length = 16 ∧ (List.replicate 16 8 : Bytes).length = 16 := by decide

/-- The least and the greatest feedback size, at the last byte of a segment. -/
theorem test_hyp_FeedbackByteStep :
    (({ keyedCtx with fbb := 1 } : ModeCtx).fbb ≤ 16 ∧ ({ keyedCtx with fbb := 1 } : ModeCtx).cur < 1) ∧
    (({ keyedCtx with cur := 15 } : ModeCtx).fbb ≤ 16 ∧ ({ keyedCtx with cur := 15 } : ModeCtx).cur < keyedCtx.fbb) := by
  decide

theorem test_hyp_CfbDecryptsWhatItEncrypts :
    ({ State.reset with cfb := { keyedCtx with dir := true } } : State).cfb.inited = true ∧
    ({ State.reset with cfb := { keyedCtx with dir := true } } : State).cfb.dir = true ∧
    ivOnly.cfb = { ({ State.reset with cfb := { keyedCtx with dir := true } } : State).cfb with dir := false } ∧
    ([7] : Bytes).length ≤ (1 : BitVec 24).toNat := by decide

/-- A counter-mode unit with a nonce of `n` bytes and the counter block `r`. -/
def counting (order : CtrOrder) (n : Nat) (r : Block) : State :=
  { State.reset with params := { Params.reset with ctrOrder := order },
                     ctr := { ModeCtx.reset with keyed := true, inited := true, n := n, r := r,
                                                 iv := if n = 16 then r else 0 } }

theorem counting_answers : ∃ t out, AnswersOk (.ctrBytes ([7] ++ [8]) 2) (counting .incFirst 16 9) t out :=
  ⟨_, _, answersOk_iff.mpr ⟨_, rfl, rfl⟩⟩

theorem test_hyp_OfbAndCtrAreTheirOwnInverse :
    ivOnly.ofb.inited = true ∧ ([8] : Bytes).length = ([7] : Bytes).length ∧
    ([7] : Bytes).length ≤ (1 : BitVec 24).toNat ∧
    ∃ t out, AnswersOk (.ctrBytes ([7] ++ [8]) 2) (counting .incFirst 16 9) t out :=
  ⟨by decide, by decide, by decide, counting_answers⟩

/-- The cursor inside a block, and at the start of one, in both orders. -/
theorem test_hyp_CounterDataCommands :
    ({ keyedCtx with cur := 15 } : ModeCtx).cur ≠ 0 ∧ keyedCtx.cur = 0 ∧ CtrOrder.encFirst ≠ .incFirst := by decide

/-- A nonce of 15 bytes: the last value of the one free counter byte, without and with drift, in both orders and from a
cursor inside a block; CTR.BLOCK without and with drift; and a nonce of 16 bytes whose counter has moved on. -/
theorem test_hyp_CounterModeKeystream :
    (let s := counting .encFirst 15 0xff
     s.ctr.inited = true ∧ s.ctr.cur < 16 ∧ 8 ≤ s.ctr.n ∧ s.ctr.n < 16 ∧
     s.ctr.r.toNat / 256 ^ (16 - 15) = s.ctr.iv.toNat / 256 ^ (16 - 15) ∧ (zeros 17).length ≤ (17 : BitVec 24).toNat) ∧
    ¬ CtrDrifts .encFirst (counting .encFirst 15 0xff).ctr 16 ∧
    CtrDrifts .encFirst (counting .encFirst 15 0xff).ctr 17 ∧
    CtrDrifts .incFirst (counting .incFirst 15 0xff).ctr 1 ∧
    ¬ CtrDrifts .incFirst (counting .incFirst 15 0xfe).ctr 16 ∧
    ¬ CtrDrifts .incFirst { (counting .incFirst 15 0xff).ctr with cur := 3 } 13 ∧
    CtrDrifts .incFirst { (counting .incFirst 15 0xff).ctr with cur := 3 } 14 ∧
    16 ≤ (zeros 16).length ∧ 16 ≤ (16 : BitVec 24).toNat ∧
    (let m : ModeCtx := { (counting .incFirst 16 9).ctr with r := 0, cur := 5 }
     m.inited = true ∧ m.cur < 16 ∧ m.n = 16 ∧ m.r ≠ m.iv) := by
  refine ⟨by decide, fun ⟨_, j, hj, hd⟩ => hd ?_, ⟨by decide, 1, by decide, by decide⟩, ⟨by decide, 0, by decide, by decide⟩,
    fun ⟨_, j, hj, hd⟩ => hd ?_, fun ⟨_, j, hj, _⟩ => ?_, ⟨by decide, 1, by decide, by decide⟩, by decide, by decide,
    by decide⟩
  · obtain rfl : j = 0 := by have h : 16 * j < 0 + 16 := hj.2; omega
    decide
  · obtain rfl : j = 0 := by have h : 16 * j < 0 + 16 := hj.2; omega
    decide
  · have h : 16 * j < 3 + 13 := hj.2
    have := hj.1 (by decide)
    omega

theorem test_hyp_SplittingAModeStreamChangesNothing :
    (∃ t out, AnswersOk (.cfbBytes ([7] ++ [8]) 2) ivOnly t out) ∧
    (∃ t out, AnswersOk (.ofbBytes ([7] ++ [8]) 2) ivOnly t out) ∧
    (∃ t out, AnswersOk (.ctrBytes ([7] ++ [8]) 2) (counting .incFirst 16 9) t out) :=
  ⟨⟨_, _, answersOk_iff.mpr ⟨_, rfl, rfl⟩⟩, ⟨_, _, answersOk_iff.mpr ⟨_, rfl, rfl⟩⟩, counting_answers⟩

theorem test_hyp_AssociatedDataIsHashedInBlocks :
    ({ openGcm true with atbuf := zeros 15 } : Gcm).atbuf.length ≤ 15 := by decide

theorem test_hyp_GcmEncryptsCompletedBlocks :
    ({ openGcm true with pbuf := zeros 15 } : Gcm).pbuf.length ≤ 15 := by decide

/-- A state with an open GCM session. -/
def inSession (dir : Bool) : State := { State.reset with g := openGcm dir }

theorem test_hyp_GcmEncryptSessionSealsTheMessage :
    (inSession true).g.Fresh ∧ (inSession true).g.dir = true ∧
    (([([1], 16)] : List (Bytes × BitVec 24)).map Prod.fst).flatten.length ≤ 16 * (2 ^ 32 - 2) ∧
    (∀ x ∈ ([([1], 16)] : List (Bytes × BitVec 24)), x.1.length + 15 ≤ x.2.toNat) ∧ 31 ≤ (31 : BitVec 24).toNat :=
  ⟨openGcm_fresh true, rfl, by decide, by decide, by decide⟩

theorem test_hyp_GcmDecryptSessionOpensTheSealedMessage :
    let s := inSession false
    let sealed := gcmSeal s.g.key s.g.h s.g.j0 s.g.macb [[2]].flatten [1]
    s.g.Fresh ∧ s.g.dir = false ∧ ([1] : Bytes).length + 16 ≤ 16 * (2 ^ 32 - 2) ∧
    ([1] : Bytes).length ≤ (1 : BitVec 24).toNat ∧ fits s.params.capDbuf (([1] : Bytes).length + s.g.macb) = true ∧
    (([(sealed, 0)] : List (Bytes × BitVec 24)).map Prod.fst).flatten = sealed :=
  ⟨openGcm_fresh false, rfl, by decide, by decide, rfl, by simp⟩

/-- A decrypt session with hash subkey 1. -/
def unitSession : Gcm := { openGcm false with h := 0x80000000000000000000000000000000 }

/-- The tag the engine computes for a block of zeros. -/
def sealedTag : Bytes := gcmTag unitSession (ghash 0 (zeros 16) unitSession.h) 0 16

/-- That session holding the block and its tag. -/
def sealedSession : State := { State.reset with g := { unitSession with dbuf := zeros 16 ++ sealedTag } }

theorem sealedTag_length : sealedTag.length = 16 := by simp [sealedTag, gcmTag, unitSession, openGcm]

theorem sealedSession_started : startCipher sealedSession.g = { sealedSession.g with started := true } := by
  simp [startCipher, sealedSession, unitSession, openGcm, Gcm.reset]

theorem sealedSession_accepted : ∃ t out, AnswersOk (.gcmFinal 16) sealedSession t out := by
  refine ⟨_, decBlocks [] 0 (blocksOf bs (zeros 16)), answersOk_iff.mpr ⟨sealedSession.withG Gcm.reset, ?_, rfl⟩⟩
  have hd : sealedSession.g.dbuf = zeros 16 ++ sealedTag := rfl
  have hlen : (zeros 16 ++ sealedTag).length = 32 := by rw [List.length_append, sealedTag_length]; rfl
  have hct : (zeros 16 ++ sealedTag).take 16 = zeros 16 := List.take_left' rfl
  have htag : (zeros 16 ++ sealedTag).drop 16 = sealedTag := List.drop_left' rfl
  have hm : sealedSession.g.macb = 16 := rfl
  simp only [resultOf, gcmFinalResult, show sealedSession.g.inited = true from rfl,
    show sealedSession.g.dir = false from rfl, Bool.not_true, Bool.false_eq_true, if_false]
  simp only [gcmFinalDec, sealedSession_started, expectedTag, hd, hlen, hm, Nat.reduceSub, hct, htag]
  rw [if_neg (by decide), if_neg (by decide), if_neg (by rw [not_not]; rfl)]
  rfl

theorem test_hyp_TamperedMessagesAreRejected :
    sealedSession.g.inited = true ∧ sealedSession.g.dir = false ∧
    (∃ tag, sealedSession.g.dbuf = zeros 16 ++ tag ∧ tag.length = sealedSession.g.macb) ∧
    (∃ t out, AnswersOk (.gcmFinal 16) sealedSession t out) ∧ sealedSession.g.macb = 16 ∧ sealedSession.g.h ≠ 0 ∧
    ((zeros 15 ++ [1]).length = (zeros 16).length ∧ zeros 15 ++ [1] ≠ zeros 16 ∧
      ∀ j, j / 16 ≠ 0 → (zeros 15 ++ [1])[j]? = (zeros 16)[j]?) ∧
    gfMul (ghash (startCipher sealedSession.g).s (zeros 15 ++ [1]) sealedSession.g.h ^^^
      ghash (startCipher sealedSession.g).s (zeros 16) sealedSession.g.h) sealedSession.g.h ≠ 0 :=
  ⟨rfl, rfl, ⟨_, rfl, sealedTag_length⟩, sealedSession_accepted, rfl, by decide,
    ⟨by decide, by decide, fun j hj => by
      rw [List.getElem?_eq_none (by simp; omega), List.getElem?_eq_none (by simp; omega)]⟩, by decide +kernel⟩

theorem test_hyp_GcmSessionConstantsStay :
    (∀ dir p, Instr.gcmAad [7] ≠ .gcmInit dir p) ∧ (inSession true).g.inited = true ∧
    ∃ t, exec (.gcmAad [7]) (inSession true) = .next t ∧ t.g.inited = true :=
  ⟨by simp, rfl, _, rfl, rfl⟩

/-- A state whose buffered cipher holds `n` bytes. -/
def buffering (k : Kind) (dir : Bool) (n : Nat) : State := { State.reset with b := readyBpc k dir (zeros n) }

/-- Not initialised; finished; one output byte too few; just enough; nothing at all; counter mode. -/
theorem test_hyp_BpcBytesKeepsTheLastBlockBack :
    (buffering .cbc true 16).b.Inv ∧ (buffering .ctr true 0).b.Inv ∧ (buffering .cbc true 16).b.mode = some .cbc ∧
    (buffering .cbc true 16).b.inited = true ∧ (buffering .cbc true 16).b.finished = false ∧
    (15 : BitVec 24).toNat < 16 + 1 - ((16 + 1 - 1) % 16 + 1) ∧ 16 + 1 - ((16 + 1 - 1) % 16 + 1) ≤ (16 : BitVec 24).toNat ∧
    ((∀ k, ({ Bpc.reset with mode := some .cbc } : Bpc).mode = some k → k = .cbc) ∧
      ({ Bpc.reset with mode := some .cbc } : Bpc).Inv) ∧
    ({ readyBpc .cbc true [] with finished := true } : Bpc).Inv := by
  refine ⟨readyBpc_inv _ _ _ (by decide), readyBpc_inv _ _ _ (by decide), rfl, rfl, rfl, by decide,
    by decide, ⟨fun k e => (by cases e; rfl), ⟨fun h => (by cases h), fun k e => ?_⟩⟩, ⟨fun h => (by cases h), fun k e => ?_⟩⟩
  · cases e
    exact ⟨by decide, rfl, by decide, rfl, fun _ => ⟨rfl, rfl, rfl⟩, fun h => (by cases h), fun _ => rfl⟩
  · cases e
    exact ⟨readyCtx_inv .cbc true, rfl, by decide, rfl, fun h => (by cases h), fun _ => rfl, fun _ => rfl⟩

/-- A counter-mode context with a 15-byte nonce, one block before its free counter byte overflows. -/
def lastCtx : ModeCtx := { readyCtx .ctr true with n := 15, r := 0xff }

theorem lastCtx_inv : lastCtx.Inv .ctr := by decide

/-- A buffered cipher with that context and `n` buffered bytes. -/
def lastCounter (n : Nat) : State :=
  { State.reset with params := { Params.reset with ctrOrder := .encFirst },
                     b := { readyBpc .ctr true (zeros n) with m := lastCtx } }

theorem lastCounter_inv (n : Nat) (h : n ≤ 16) : (lastCounter n).b.Inv := by
  refine ⟨fun h => (by cases h), fun k e => ?_⟩
  cases e
  exact ⟨lastCtx_inv, rfl, by rw [show (lastCounter n).b.buf = zeros n from rfl, zeros_length]; exact h, rfl,
    fun h => (by cases h), fun _ => rfl, fun h => (by cases h)⟩

/-- Its last block does not drift, the one after does: for 16 buffered bytes BPC.BYTES opens one or two blocks, by the
length of its payload, and BPC.FINAL opens two; for 15 buffered bytes it opens one. -/
theorem test_hyp_BpcCounterModeDrift :
    (lastCounter 15).b.Inv ∧ (lastCounter 16).b.Inv ∧ (lastCounter 16).b.mode = some .ctr ∧
    (lastCounter 16).b.inited = true ∧ (lastCounter 16).b.finished = false ∧ (lastCounter 16).b.dir = true ∧
    ¬ CtrDrifts .encFirst (lastCounter 16).b.m 16 ∧ CtrDrifts .encFirst (lastCounter 16).b.m 32 := by
  refine ⟨lastCounter_inv _ (by decide), lastCounter_inv _ (by decide), rfl, rfl, rfl, rfl, fun ⟨_, j, hj, hd⟩ => hd ?_,
    ⟨by decide, 1, by decide, by decide⟩⟩
  obtain rfl : j = 0 := by have h : 16 * j < 0 + 16 := hj.2; omega
  decide

/-- A partial and a full buffer, each with one output byte too few and with just enough. -/
theorem test_hyp_BpcFinalEncryptPadsOneBlock :
    (∀ n, n ≤ 16 → (buffering .cbc true n).b.Inv ∧ (buffering .ctr true n).b.Inv ∧
      (buffering .cbc true n).b.mode = some .cbc ∧ (buffering .cbc true n).b.inited = true ∧
      (buffering .cbc true n).b.finished = false ∧ (buffering .cbc true n).b.dir = true) ∧
    (buffering .cbc true 15).b.buf.length ≠ 16 ∧ (15 : BitVec 24).toNat < 16 ∧ 16 ≤ (16 : BitVec 24).toNat ∧
    (buffering .cbc true 16).b.buf.length = 16 ∧ (31 : BitVec 24).toNat < 2 * 16 ∧ 2 * 16 ≤ (32 : BitVec 24).toNat :=
  ⟨fun n hn => ⟨readyBpc_inv _ _ _ (by rw [zeros_length]; exact hn), readyBpc_inv _ _ _ (by rw [zeros_length]; exact hn),
    rfl, rfl, rfl, rfl⟩, by decide, by decide, by decide, by decide, by decide, by decide⟩

theorem test_hyp_BpcFinalDecryptAndNotReady :
    ((buffering .cbc false 16).b.mode = some .cbc ∧ (buffering .cbc false 16).b.inited = true ∧
      (buffering .cbc false 16).b.finished = false ∧ (buffering .cbc false 16).b.dir = false) ∧
    State.reset.b.mode = none ∧ ({ Bpc.reset with mode := some .ecb } : Bpc).inited = false ∧
    ({ readyBpc .cbc true [] with finished := true } : Bpc).finished = true ∧ 8 ≤ (8 : BitVec 24).toNat := by decide

theorem test_hyp_SplittingABufferedStreamChangesNothing :
    (inSession true).g.Inv ∧ (inSession true).b.Inv ∧ (buffering .cbc true 0).g.Inv ∧ (buffering .cbc true 0).b.Inv ∧
    (∃ t out, AnswersOk (.gcmAad ([7] ++ [8])) (inSession true) t out) ∧
    (∃ t out, AnswersOk (.gcmBytes ([7] ++ [8]) 16) (inSession true) t out) ∧
    (∃ t out, AnswersOk (.bpcBytes ([7] ++ [8]) 16) (buffering .cbc true 0) t out) :=
  ⟨openGcm_inv true, reset_bpc_inv, by decide, readyBpc_inv _ _ _ (by decide),
    ⟨_, _, answersOk_iff.mpr ⟨_, rfl, rfl⟩⟩, ⟨_, _, answersOk_iff.mpr ⟨_, rfl, rfl⟩⟩, ⟨_, _, answersOk_iff.mpr ⟨_, rfl, rfl⟩⟩⟩

theorem test_hyp_HmacAnswersTheNestedDigest :
    ({ State.reset with p := { Staged.reset with keyv := true, key := [7] } } : State).p.keyv = true ∧
    fits ({ State.reset with p := { Staged.reset with keyv := true, key := [7] } } : State).params.capMsg
      (hmacBl + [[1], [2]].flatten.length) = true :=
  ⟨rfl, rfl⟩

theorem test_hyp_KmacMixesTheFirstKeystreamBytes :
    let s : State := { State.reset with km := { Kmac.reset with macbits := .m128, inited := true, sgkey := [7] } }
    s.km.inited = true ∧ s.km.pos = 0 ∧ s.km.msg = [] ∧ s.km.macbits.bits / 8 ≤ (16 : BitVec 24).toNat ∧
    fits s.params.capMsg [[1], [2]].flatten.length = true := by decide

theorem test_hyp_StepKeepsTheInvariants :
    (running (zeros 8)).EngineInv ∧ (running (zeros 8)).ModesInv ∧ (running (zeros 8)).g.Inv ∧
    (running (zeros 8)).b.Inv ∧ (running (zeros 8)).hm.Inv ∧ (running (zeros 8)).km.Inv ∧
    (running (zeros 8)).CapacityInv ∧ ∃ t, step (running (zeros 8)) = .next t :=
  ⟨by decide, ⟨by decide, by decide, by decide, by decide, by decide⟩, by decide, reset_bpc_inv, by decide, by decide,
    by decide, ⟨_, rfl⟩⟩

end Sys2Proof.Machine
end

section
/-! The scope of a command (00_scope.md R3, R5, R21): in which three ways it ends, and that nothing outside its own unit
and the staged parameters decides what it answers. Both statements are about results (`exec_eq_respond`). -/

namespace Sys2Proof.Machine

/-! ## The class of a status code (60_exceptions.md R321) -/

theorem ErrCode.code_bounds (e : ErrCode) : 0x10 ≤ e.code.toNat ∧ e.code.toNat ≤ 0x18 := by
  cases e <;> decide

theorem FatalCode.code_bounds (f : FatalCode) : 0x80 ≤ f.code.toNat ∧ f.code.toNat ≤ 0x89 := by
  cases f <;> decide

/-! ## Two runs of one command that end the same way -/

/-- From `s` to `s'` and from `t` to `t'` the command pointer advances alike, `SYS.RUN` stays equal where it was, and the
same bytes are answered. -/
abbrev SameAnswer (s t s' t' : State) : Prop :=
  s'.cp - s.cp = t'.cp - t.cp ∧ (s.run = t.run → s'.run = t'.run) ∧
    ∃ answer, s'.rs = s.rs ++ answer ∧ t'.rs = t.rs ++ answer

/-- `u` and `v` hold the writes of the command, which leave the engine registers of `s` and `t` alone. -/
theorem sameAnswer_completed {s t u v : State} (hu : SameEngine s u) (hv : SameEngine t v) (unit op : BitVec 4)
    (ilen : Nat) (out : Bytes) :
    SameAnswer s t (u.completed unit op ilen out) (v.completed unit op ilen out) := by
  obtain ⟨hucp, hurun, -, -, -, -, -, -, hurs⟩ := hu
  obtain ⟨hvcp, hvrun, -, -, -, -, -, -, hvrs⟩ := hv
  refine ⟨?_, fun hrun => ?_, wireResponse 0x00 unit op out, ?_, ?_⟩
  · simp [hucp, hvcp]
  · simp [hurun, hvrun, hrun]
  · simp [hurs]
  · simp [hvrs]

theorem sameAnswer_errored (s t : State) (unit op : BitVec 4) (ilen : Nat) (code : BitVec 8) :
    SameAnswer s t (s.errored unit op ilen code) (t.errored unit op ilen code) :=
  ⟨by simp, id, wireResponse code unit op [], rfl, rfl⟩

/-- Both runs halt, whatever `SYS.RUN` was. -/
theorem sameAnswer_haltedBy (s t : State) (unit op : BitVec 4) (code : BitVec 8) :
    SameAnswer s t (s.haltedBy unit op code) (t.haltedBy unit op code) :=
  ⟨by simp, fun _ => rfl, wireResponse code unit op [], rfl, rfl⟩

/-- Settles O12: the two results end the same way (`resultOf_sameView`), and each of the three ends of a command answers
alike from both states and writes nothing that the unit sees but what the result holds. -/
theorem commandSeesOnlyItsUnit : Obligations.CommandSeesOnlyItsUnit := by
  intro i s t s' t' hstatus hview hs ht
  have hend := resultOf_sameView hstatus hview
  rw [exec_eq_respond] at hs ht
  cases hr : resultOf i s with
  | ok u out =>
    rw [hr] at hend
    obtain ⟨v, hrt, huv⟩ := hend
    rw [hr, respond_ok] at hs
    rw [hrt, respond_ok] at ht
    cases hs; cases ht
    obtain ⟨-, hu⟩ := resultOf_ok_frame hr
    obtain ⟨-, hv⟩ := resultOf_ok_frame hrt
    exact ⟨huv, sameAnswer_completed hu hv ..⟩
  | err e =>
    rw [hr] at hend
    have hrt : resultOf i t = .err e := hend
    rw [hr, respond_err] at hs
    rw [hrt, respond_err] at ht
    cases hs; cases ht
    exact ⟨hview, sameAnswer_errored ..⟩
  | fatal f =>
    rw [hr] at hend
    have hrt : resultOf i t = .fatal f := hend
    rw [hr, respond_fatal] at hs
    rw [hrt, respond_fatal] at ht
    cases hs; cases ht
    exact ⟨hview, sameAnswer_haltedBy ..⟩

/-- Settles O10: one way for each constructor of the command's result. A success writes its unit alone
(`resultOf_ok_frame`), an error is listed (`resultOf_listed`), and its code tells its class. -/
theorem everyCommandEndsInOneOfThreeWays : Obligations.EveryCommandEndsInOneOfThreeWays := by
  intro i s
  have hlisted := resultOf_listed i s
  rw [exec_eq_respond]
  cases hr : resultOf i s with
  | ok u out =>
    obtain ⟨hunit, hengine⟩ := resultOf_ok_frame hr
    exact .inl ⟨u, out, hunit, hengine, respond_ok ..⟩
  | err e =>
    rw [hr] at hlisted
    obtain ⟨hlow, hhigh⟩ := e.code_bounds
    exact .inr (.inl ⟨e.code, hlisted, hlow, hhigh, respond_err ..⟩)
  | fatal f =>
    rw [hr] at hlisted
    obtain ⟨hlow, hhigh⟩ := f.code_bounds
    exact .inr (.inr ⟨f.code, hlisted, hlow, hhigh, respond_fatal ..⟩)

end Sys2Proof.Machine
end

section
/-! The engine registers (10_state.md R32, R55, R56): what every step keeps of them, and the values that hardware reset
and plain construction give. -/

namespace Sys2Proof.Machine

open Sys2Proof.Config

/-! ## The engine registers after the ends of a step -/

/-- A class-1 error halts an engine that had raised none, with a class-1 code, and its `cp` stays (60_exceptions.md
R326). -/
theorem engineInv_haltedBy {s : State} (hs : s.EngineInv) (unit op : BitVec 4) {code : BitVec 8}
    (hcode : 0x80 ≤ code.toNat ∧ code.toNat ≤ 0x89) : (s.haltedBy unit op code).EngineInv := by
  obtain ⟨hwf, hcp, -, -, -, -, hlast⟩ := hs
  exact ⟨hwf, hcp, by simp [State.haltedBy], by simp [State.haltedBy], fun _ => ⟨rfl, hcode⟩,
    by simp [State.haltedBy], hlast⟩

/-- A running engine moves `cp` past a packet that lies within the stream, records a class-2 code or keeps `LASTERR`,
and appends to the response stream; `u` holds the writes of the command (R98, R327). -/
theorem engineInv_advance {s u : State} {ilen : Nat} (hs : s.EngineInv) (hrun : s.run = .running)
    (hlen : s.cp.toNat + (8 + ilen) ≤ s.cs.length) (hcs : u.cs = s.cs) (hsame : SameEngine s u) {code : BitVec 8}
    (hcode : code = s.lasterr ∨ 0x10 ≤ code.toNat ∧ code.toNat ≤ 0x18) (rs : Bytes) :
    State.EngineInv { u with lasterr := code, cp := u.cp + BitVec.ofNat 32 (8 + ilen), rs := rs } := by
  obtain ⟨hwf, -, hhalt, hzero, -, -, hlast⟩ := hs
  obtain ⟨hcp, hurun, hfatal, hfcode, hfunit, hfop, hfcp, -, -⟩ := hsame
  have hnofatal : s.fatal = false := by simpa [hrun] using hhalt
  have hnext : (s.cp + BitVec.ofNat 32 (8 + ilen)).toNat ≤ s.cs.length := by
    rw [BitVec.toNat_add, BitVec.toNat_ofNat]
    simp only [Memory.wf] at hwf
    omega
  simp only [State.EngineInv, hcs, hcp, hurun, hfatal, hfcode, hfunit, hfop, hfcp]
  refine ⟨hwf, hnext, hhalt, hzero, by simp [hnofatal], by simp [hrun], ?_⟩
  rcases hcode with rfl | hclass2
  · exact hlast
  · exact .inr hclass2

/-- Settles O57, along the ends of a step (`step_cases`): the end of the stream, a rejected packet, and the three ends
of a command, whose packet lies within the stream (`decode_ok`). -/
theorem stepKeepsTheEngineInvariant : Obligations.StepKeepsTheEngineInvariant := by
  intro s t hs hstep
  obtain ⟨hrun, hcases⟩ := step_cases hstep
  rcases hcases with ⟨hend, rfl⟩ | ⟨-, e, -, rfl⟩ | ⟨-, i, rest, hdecode, hresult⟩
  · obtain ⟨hwf, hcp, hhalt, hzero, hfault, -, hlast⟩ := hs
    have hnofatal : s.fatal = false := by simpa [hrun] using hhalt
    exact ⟨hwf, hcp, by simp [hnofatal], hzero, hfault, fun _ => hend, hlast⟩
  · exact engineInv_haltedBy hs _ _ (decodeFatal e).code_bounds
  · have hlen : s.cp.toNat + (8 + i.ilen) ≤ s.cs.length := by
      have hle := (decode_ok hdecode).1
      rw [List.length_drop] at hle
      omega
    rcases hresult with ⟨u, out, hu, rfl⟩ | ⟨e, -, rfl⟩ | ⟨f, -, rfl⟩
    · obtain ⟨⟨hcs, -⟩, hsame⟩ := resultOf_ok_frame hu
      have hlast : u.lasterr = s.lasterr := by simp [hsame]
      exact engineInv_advance hs hrun hlen hcs hsame (.inl hlast) _
    · exact engineInv_advance hs hrun hlen rfl (by simp [SameEngine]) (.inr e.code_bounds) _
    · exact engineInv_haltedBy hs _ _ f.code_bounds

/-! ## Reset values and plain construction -/

/-- Settles O19: the rule of each of these commands is one `return OK` with the reset value of its unit. -/
theorem plainConstructionZeroesTheUnit : Obligations.PlainConstructionZeroesTheUnit := fun s =>
  ⟨respond_ok .ecbCfg s (s.withEcb ModeCtx.reset) [], respond_ok .cbcCfg s (s.withCbc ModeCtx.reset) [],
    respond_ok .ctrCfg s (s.withCtr ModeCtx.reset) [], respond_ok .gcmCfg s (s.withG Gcm.reset) [],
    respond_ok .gcmReset s (s.withG Gcm.reset) [], respond_ok .hmacCfg s (s.withHm Hmac.reset) []⟩

/-- Settles O55: `hardwareReset` and `State.reset` unfolded field by field. -/
theorem hardwareResetValues : Obligations.HardwareResetValues :=
  fun _ => ⟨rfl, rfl, rfl⟩

end Sys2Proof.Machine
end

section
/-! The five mode units and the mode context within BPC (10_state.md R36, R46): all that a command can do to a mode
context (`ModeMove`), and that each of these moves keeps `ModeCtx.Inv`. -/

namespace Sys2Proof.Machine

open Sys2Proof.Config

/-! ## The moves of a mode context keep its invariant -/

/-- A constructed context has a size of 1 to 16 bytes, which is `BS` unless its kind feeds bytes back (R181, R186). -/
theorem inv_modeFresh {k : Kind} {fbb : Nat} (hlo : 1 ≤ fbb) (hhi : fbb ≤ 16)
    (hsize : k = .cfb ∨ k = .ofb ∨ fbb = 16) : (modeFresh fbb).Inv k := by
  refine ⟨hlo, hhi, fun _ => rfl, nofun, ?_, ?_, fun _ => ⟨rfl, hlo⟩, ?_⟩ <;> rintro rfl <;>
    simpa [modeFresh, ModeCtx.reset] using hsize

theorem inv_modeCtx_reset (k : Kind) : ModeCtx.reset.Inv k :=
  inv_modeFresh (fbb := 16) (by decide) le_rfl (.inr (.inr rfl))

/-- A legal feedback size in bits is 1 to 16 whole bytes (R181). -/
theorem fbSizeLegal_bytes {imm : BitVec 24} (h : fbSizeLegal imm = true) :
    1 ≤ imm.toNat / 8 ∧ imm.toNat / 8 ≤ 16 := by
  obtain ⟨hpos, hmul, hle⟩ := (fbSizeLegal_iff imm).mp h
  omega

theorem modeReset_of_inited (k : Kind) {m : ModeCtx} (h : m.inited = true) :
    modeReset k m = { m with r := (modeReset k m).r, cur := 0, ks := 0, fb := 0 } := by
  simp only [modeReset, h, if_true]

theorem modeReset_inited (k : Kind) (m : ModeCtx) : (modeReset k m).inited = m.inited := by rw [modeReset_frame]
theorem modeReset_dir (k : Kind) (m : ModeCtx) : (modeReset k m).dir = m.dir := by rw [modeReset_frame]

/-- ECB has no register to reset (R161). -/
theorem modeReset_ecb_r (m : ModeCtx) : (modeReset .ecb m).r = m.r := by
  unfold modeReset; split <;> rfl

theorem inv_modeReset {k : Kind} {m : ModeCtx} (hm : m.Inv k) : (modeReset k m).Inv k := by
  cases hin : m.inited with
  | false => rw [modeReset_of_not_inited hin]; exact hm
  | true =>
    obtain ⟨hlo, hhi, -, hkeyed, hecb, hcbc, hfb, hctr⟩ := hm
    rw [modeReset_of_inited k hin]
    refine ⟨hlo, hhi, by simp [hin], hkeyed, ?_, ?_, ?_, ?_⟩
    · rintro rfl
      obtain ⟨hiv, hn, hr, -, -, -, hfbb⟩ := hecb rfl
      exact ⟨hiv, hn, (modeReset_ecb_r m).trans hr, rfl, rfl, rfl, hfbb⟩
    · intro hk
      obtain ⟨hn, -, -, -, hfbb⟩ := hcbc hk
      exact ⟨hn, rfl, rfl, rfl, hfbb⟩
    · exact fun hk => ⟨(hfb hk).1, hlo⟩
    · intro hk
      obtain ⟨-, -, hfbb, hn⟩ := hctr hk
      exact ⟨Nat.zero_lt_succ 15, rfl, hfbb, hn⟩

/-- CTR is initialised with a nonce and nothing else, of 8 to 16 bytes (R160, R200). -/
theorem ctr_nonce_length {t : PType} {p : Staged} {haskey : Bool} {iv : Option Bytes}
    (hshape : modeShape .ctr t p = .ok (haskey, iv)) (hlen : ivLengthOk .ctr iv = true) :
    8 ≤ (iv.getD []).length ∧ (iv.getD []).length ≤ 16 := by
  cases iv with
  | some v => exact (ivLengthOk_ctr_iff v).mp hlen
  | none => cases t <;> simp [modeShape] at hshape; split at hshape <;> cases hshape

/-- An IV-only reinit needs a key that is already latched (R160). -/
theorem keyed_of_modeKeyError {k : Kind} {dir haskey : Bool} {p : Staged} {m : ModeCtx}
    (h : modeKeyError k dir haskey p m = none) : (haskey || m.keyed) = true := by
  cases haskey with
  | true => rfl
  | false => simp only [modeKeyError, Bool.false_eq_true, if_false] at h; split at h <;> simp_all

theorem inv_modeInit {k : Kind} {dir : Bool} {t : PType} {p : Staged} {m m' : ModeCtx}
    (h : modeInit k dir t p m = .ok m') (hm : m.Inv k) : m'.Inv k := by
  obtain ⟨haskey, iv, hshape, hlen, hkey, rfl⟩ := modeInit_ok h
  obtain ⟨hlo, hhi, -, -, hecb, hcbc, hfb, hctr⟩ := hm
  refine inv_modeReset ⟨hlo, hhi, nofun, fun _ => keyed_of_modeKeyError hkey, ?_, ?_, ?_, ?_⟩
  · rintro rfl; exact hecb rfl
  · rintro rfl; exact hcbc rfl
  · rintro (rfl | rfl) <;> exact hfb (by simp)
  · rintro rfl
    obtain ⟨hcur, hfb0, hfbb, -⟩ := hctr rfl
    exact ⟨hcur, hfb0, hfbb, fun _ => ctr_nonce_length hshape hlen⟩

/-- A successful `ModeInit` leaves an initialised context of the given direction at a block boundary. -/
theorem modeInit_boundary {k : Kind} {dir : Bool} {t : PType} {p : Staged} {m m' : ModeCtx}
    (h : modeInit k dir t p m = .ok m') : m'.inited = true ∧ m'.dir = dir ∧ m'.cur = 0 := by
  obtain ⟨haskey, iv, -, -, -, rfl⟩ := modeInit_ok h
  rw [modeReset_of_inited k rfl]
  exact ⟨rfl, rfl, rfl⟩

/-! ## The block step -/

/-- A block step writes the data path of a context only. -/
theorem blockStep_frame {k : Kind} {order : CtrOrder} {m m' : ModeCtx} {x out : Bytes}
    (h : blockStep k order m x = some (m', out)) :
    m' = { m with ks := m'.ks, fb := m'.fb, r := m'.r, cur := m'.cur } := by
  cases k <;> simp only [blockStep, Option.some.injEq] at h
  case ecb => cases h; rfl
  case cbc => unfold cbcBlockStep at h; split at h <;> cases h <;> rfl
  case cfb | ofb =>
    obtain rfl : _ = m' := congrArg Prod.fst h
    exact fbBytes_frame _ m x
  case ctr => rw [ctrBytes_frame h]

/-- The block step of CFB and OFB is their byte step over the block (R184, R189). -/
theorem blockStep_feedback {k : Kind} {order : CtrOrder} {m m' : ModeCtx} {x out : Bytes} (hk : k = .cfb ∨ k = .ofb)
    (h : blockStep k order m x = some (m', out)) : m' = (fbBytes k m x).1 := by
  rcases hk with rfl | rfl <;> exact (congrArg Prod.fst (Option.some.inj h)).symm

/-- The data path also keeps what the kind does not use and the range of its cursor (R38). -/
theorem inv_blockStep {k : Kind} {order : CtrOrder} {m m' : ModeCtx} {x out : Bytes}
    (h : blockStep k order m x = some (m', out)) (hin : m.inited = true) (hm : m.Inv k) : m'.Inv k := by
  have hframe := blockStep_frame h
  obtain ⟨hlo, hhi, -, hkeyed, hecb, hcbc, hfb, hctr⟩ := hm
  have hin' : m'.inited = true := by rw [hframe]; exact hin
  have hfbb' : m'.fbb = m.fbb := by rw [hframe]
  have hkeyed' : m'.keyed = m.keyed := by rw [hframe]
  have hn' : m'.n = m.n := by rw [hframe]
  refine ⟨hfbb' ▸ hlo, hfbb' ▸ hhi, by simp [hin'], fun _ => hkeyed' ▸ hkeyed hin, ?_, ?_, ?_, ?_⟩
  · rintro rfl
    cases h
    exact hecb rfl
  · rintro rfl
    simp only [blockStep, Option.some.injEq, cbcBlockStep] at h
    split at h <;> cases h <;> exact hcbc rfl
  · intro hk
    obtain ⟨hn, hcur⟩ := hfb hk
    refine ⟨hn' ▸ hn, ?_⟩
    rw [hfbb', blockStep_feedback hk h, fbBytes_cur x hcur]
    exact Nat.mod_lt _ hlo
  · rintro rfl
    obtain ⟨hcur, hfb0, hfbb, hn⟩ := hctr rfl
    have hstep : ctrBytes order m x = some (m', out) := h
    refine ⟨?_, ?_, hfbb' ▸ hfbb, fun _ => hn' ▸ hn hin⟩
    · rw [ctrBytes_cur hstep hcur]; exact Nat.mod_lt _ (by decide)
    · rw [ctrBytes_frame hstep]; exact hfb0

/-- A whole block takes a context from a block boundary to a block boundary. -/
theorem blockStep_cur_eq_zero {k : Kind} {order : CtrOrder} {m m' : ModeCtx} {x out : Bytes}
    (h : blockStep k order m x = some (m', out)) (hm : m.Inv k) (hx : x.length = mbs k m) (hcur : m.cur = 0) :
    m'.cur = 0 := by
  obtain ⟨hlo, -⟩ := hm
  cases k <;> simp only [blockStep, Option.some.injEq] at h
  case ecb => cases h; exact hcur
  case cbc => unfold cbcBlockStep at h; split at h <;> cases h <;> exact hcur
  case cfb | ofb =>
    obtain rfl : _ = m' := congrArg Prod.fst h
    rw [fbBytes_cur x (by omega), hcur, hx]
    simp [mbs]
  case ctr => rw [ctrBytes_cur h (by omega), hcur, hx]; simp [mbs, bs]

/-- Any number of whole blocks keep the invariant and the block boundary, and with them the direction (R264). -/
theorem blockSteps_keeps {k : Kind} {order : CtrOrder} {m m' : ModeCtx} {xs : List Bytes} {out : Bytes}
    (h : blockSteps k order m xs = some (m', out)) (hx : ∀ x ∈ xs, x.length = mbs k m) (hm : m.Inv k)
    (hin : m.inited = true) (hcur : m.cur = 0) : m'.Inv k ∧ m'.inited = true ∧ m'.dir = m.dir ∧ m'.cur = 0 := by
  induction xs generalizing m m' out with
  | nil => cases h; exact ⟨hm, hin, rfl, hcur⟩
  | cons x xs ih =>
    simp only [blockSteps] at h
    split at h
    · cases h
    · rename_i m1 o h1
      split at h
      · cases h
      · rename_i m2 os h2
        cases h
        have hframe := blockStep_frame h1
        have hin1 : m1.inited = true := by rw [hframe]; exact hin
        have hdir1 : m1.dir = m.dir := by rw [hframe]
        have hx1 : ∀ y ∈ xs, y.length = mbs k m1 := fun y hy => by
          rw [blockStep_mbs h1]; exact hx y (List.mem_cons_of_mem x hy)
        obtain ⟨hinv, hin2, hdir2, hcur2⟩ := ih h2 hx1 (inv_blockStep h1 hin hm) hin1
          (blockStep_cur_eq_zero h1 hm (hx x List.mem_cons_self) hcur)
        exact ⟨hinv, hin2, hdir2.trans hdir1, hcur2⟩

/-! ## The moves of the mode units -/

/-- All that a successful command can do to a mode context of kind `k`, with the parameters `p` staged. `BYTES` runs the
data path of `BLOCK` on any number of bytes (R185, R190, R209). -/
inductive ModeMove (k : Kind) (p : Staged) (m : ModeCtx) : ModeCtx → Prop where
  | stay : ModeMove k p m m
  | construct {fbb : Nat} (hlo : 1 ≤ fbb) (hhi : fbb ≤ 16) (hsize : k = .cfb ∨ k = .ofb ∨ fbb = 16) :
    ModeMove k p m (modeFresh fbb)
  | init {dir : Bool} {t : PType} {m' : ModeCtx} (h : modeInit k dir t p m = .ok m') : ModeMove k p m m'
  | reset : ModeMove k p m (modeReset k m)
  | data {order : CtrOrder} {x out : Bytes} {m' : ModeCtx} (hin : m.inited = true)
    (h : blockStep k order m x = some (m', out)) : ModeMove k p m m'

theorem ModeMove.inv {k : Kind} {p : Staged} {m m' : ModeCtx} (h : ModeMove k p m m') (hm : m.Inv k) : m'.Inv k := by
  cases h with
  | stay => exact hm
  | construct hlo hhi hsize => exact inv_modeFresh hlo hhi hsize
  | init h => exact inv_modeInit h hm
  | reset => exact inv_modeReset hm
  | data hin h => exact inv_blockStep h hin hm

theorem ModeMove.plainConstruct (k : Kind) (p : Staged) (m : ModeCtx) : ModeMove k p m ModeCtx.reset :=
  .construct (fbb := 16) (by decide) le_rfl (.inr (.inr rfl))

section Results

variable {k : Kind} {s u : State} {m : ModeCtx} {put : ModeCtx → State} {out : Bytes}

/-- The move of an `INIT` of units 2 to 6. -/
theorem modeMove_of_initResult {dir : Bool} {t : PType} {p : Staged}
    (h : initResult put (modeInit k dir t p m) = .ok u out) : ∃ m', ModeMove k p m m' ∧ u = put m' := by
  obtain ⟨m', hm, hu, -⟩ := initResult_ok h
  exact ⟨m', .init hm, hu⟩

/-- The move of a `BLOCK` of units 2 to 6. -/
theorem modeMove_of_blockFrame {order : CtrOrder} {d : Bytes} {o : BitVec 24} (p : Staged)
    (h : blockFrame k order m put d o = .ok u out) : ∃ m', ModeMove k p m m' ∧ u = put m' := by
  obtain ⟨-, -, hin, m', hm, hu⟩ := blockFrame_ok h
  exact ⟨m', .data hin hm, hu⟩

/-- The move of a `BYTES` of units 4 to 6. -/
theorem modeMove_of_bytesFrame {order : CtrOrder} {d : Bytes} {o : BitVec 24} (p : Staged)
    (h : bytesFrame m put (blockStep k order m d) d o = .ok u out) : ∃ m', ModeMove k p m m' ∧ u = put m' := by
  obtain ⟨-, hin, m', hm, hu⟩ := bytesFrame_ok h
  exact ⟨m', .data hin hm, hu⟩

/-- The move of a `CFG` of units 4 and 5. -/
theorem modeMove_of_fbCfgResult {imm : BitVec 24} (p : Staged) (m : ModeCtx) (hk : k = .cfb ∨ k = .ofb)
    (h : fbCfgResult put imm = .ok u out) : ∃ m', ModeMove k p m m' ∧ u = put m' := by
  obtain ⟨hu, -, hlegal⟩ := fbCfgResult_ok h
  obtain ⟨hlo, hhi⟩ := fbSizeLegal_bytes hlegal
  exact ⟨_, .construct hlo hhi (hk.imp_right .inl), hu⟩

end Results

/-- A successful command of unit ECB makes a move of `ECB.M`; any other leaves it alone. -/
theorem modeMove_ecb {i : Instr} {s u : State} {out : Bytes} (h : resultOf i s = .ok u out) :
    ModeMove .ecb s.p s.ecb u.ecb := by
  cases i with
  | ecbCfg => cases h; exact .plainConstruct ..
  | ecbInit dir t => obtain ⟨m', hmove, rfl⟩ := modeMove_of_initResult h; exact hmove
  | ecbReset => cases h; exact .reset
  | ecbBlock d o => obtain ⟨m', hmove, rfl⟩ := modeMove_of_blockFrame s.p h; exact hmove
  | _ =>
    obtain ⟨⟨-, -, -, hecb, -⟩, -⟩ := resultOf_ok_frame h
    rw [hecb (by simp [Instr.unit, Instr.packet])]; exact .stay

theorem modeMove_cbc {i : Instr} {s u : State} {out : Bytes} (h : resultOf i s = .ok u out) :
    ModeMove .cbc s.p s.cbc u.cbc := by
  cases i with
  | cbcCfg => cases h; exact .plainConstruct ..
  | cbcInit dir t => obtain ⟨m', hmove, rfl⟩ := modeMove_of_initResult h; exact hmove
  | cbcReset => cases h; exact .reset
  | cbcBlock d o => obtain ⟨m', hmove, rfl⟩ := modeMove_of_blockFrame s.p h; exact hmove
  | _ =>
    obtain ⟨⟨-, -, -, -, hcbc, -⟩, -⟩ := resultOf_ok_frame h
    rw [hcbc (by simp [Instr.unit, Instr.packet])]; exact .stay

theorem modeMove_cfb {i : Instr} {s u : State} {out : Bytes} (h : resultOf i s = .ok u out) :
    ModeMove .cfb s.p s.cfb u.cfb := by
  cases i with
  | cfbCfg imm => obtain ⟨m', hmove, rfl⟩ := modeMove_of_fbCfgResult s.p s.cfb (.inl rfl) h; exact hmove
  | cfbInit dir t => obtain ⟨m', hmove, rfl⟩ := modeMove_of_initResult h; exact hmove
  | cfbReset => cases h; exact .reset
  | cfbBlock d o => obtain ⟨m', hmove, rfl⟩ := modeMove_of_blockFrame s.p h; exact hmove
  | cfbBytes d o =>
    obtain ⟨m', hmove, rfl⟩ := modeMove_of_bytesFrame (k := .cfb) (order := s.params.ctrOrder) s.p h; exact hmove
  | _ =>
    obtain ⟨⟨-, -, -, -, -, hcfb, -⟩, -⟩ := resultOf_ok_frame h
    rw [hcfb (by simp [Instr.unit, Instr.packet])]; exact .stay

theorem modeMove_ofb {i : Instr} {s u : State} {out : Bytes} (h : resultOf i s = .ok u out) :
    ModeMove .ofb s.p s.ofb u.ofb := by
  cases i with
  | ofbCfg imm => obtain ⟨m', hmove, rfl⟩ := modeMove_of_fbCfgResult s.p s.ofb (.inr rfl) h; exact hmove
  | ofbInit dir t => obtain ⟨m', hmove, rfl⟩ := modeMove_of_initResult h; exact hmove
  | ofbReset => cases h; exact .reset
  | ofbBlock d o => obtain ⟨m', hmove, rfl⟩ := modeMove_of_blockFrame s.p h; exact hmove
  | ofbBytes d o =>
    obtain ⟨m', hmove, rfl⟩ := modeMove_of_bytesFrame (k := .ofb) (order := s.params.ctrOrder) s.p h; exact hmove
  | _ =>
    obtain ⟨⟨-, -, -, -, -, -, hofb, -⟩, -⟩ := resultOf_ok_frame h
    rw [hofb (by simp [Instr.unit, Instr.packet])]; exact .stay

theorem modeMove_ctr {i : Instr} {s u : State} {out : Bytes} (h : resultOf i s = .ok u out) :
    ModeMove .ctr s.p s.ctr u.ctr := by
  cases i with
  | ctrCfg => cases h; exact .plainConstruct ..
  | ctrInit dir t => obtain ⟨m', hmove, rfl⟩ := modeMove_of_initResult h; exact hmove
  | ctrReset => cases h; exact .reset
  | ctrBlock d o => obtain ⟨m', hmove, rfl⟩ := modeMove_of_blockFrame s.p h; exact hmove
  | ctrBytes d o => obtain ⟨m', hmove, rfl⟩ := modeMove_of_bytesFrame (k := .ctr) s.p h; exact hmove
  | _ =>
    obtain ⟨⟨-, -, -, -, -, -, -, hctr, -⟩, -⟩ := resultOf_ok_frame h
    rw [hctr (by simp [Instr.unit, Instr.packet])]; exact .stay

/-- Every successful command keeps the invariants of the five mode units. -/
theorem modesInv_of_resultOf_ok {i : Instr} {s u : State} {out : Bytes} (h : resultOf i s = .ok u out)
    (hs : s.ModesInv) : u.ModesInv := by
  obtain ⟨hecb, hcbc, hcfb, hofb, hctr⟩ := hs
  exact ⟨(modeMove_ecb h).inv hecb, (modeMove_cbc h).inv hcbc, (modeMove_cfb h).inv hcfb, (modeMove_ofb h).inv hofb,
    (modeMove_ctr h).inv hctr⟩

end Sys2Proof.Machine
end

section
/-! Unit BPC between commands (10_state.md R46, 46_bpc.md R260 to R269): what holds of an initialised buffered cipher
(`Bpc.Live`), and that every command keeps the unit's invariant. -/

namespace Sys2Proof.Machine

open Sys2Proof.Config

/-! ## An initialised buffered cipher -/

/-- The unit is constructed with kind `k` and initialised: what `Bpc.Inv` says of it then (`Bpc.live_iff`). -/
structure Bpc.Live (k : Kind) (b : Bpc) : Prop where
  mode : b.mode = some k
  ctx : b.m.Inv k
  boundary : b.m.cur = 0
  inited : b.inited = true
  ctxInited : b.m.inited = true
  dir : b.dir = b.m.dir
  buf : b.buf.length ≤ mbs k b.m
  finished : b.finished = true → b.buf = []

theorem Bpc.live_iff {k : Kind} {b : Bpc} : b.Live k ↔ b.Inv ∧ b.mode = some k ∧ b.inited = true := by
  constructor
  · rintro ⟨hmode, hctx, hcur, hin, hmin, hdir, hbuf, hfin⟩
    refine ⟨⟨fun hnone => ?_, fun k' hk' => ?_⟩, hmode, hin⟩
    · rw [hnone] at hmode; cases hmode
    · cases hmode.symm.trans hk'
      exact ⟨hctx, hcur, hbuf, hin.trans hmin.symm, by simp [hin], fun _ => hdir, hfin⟩
  · rintro ⟨⟨-, hinv⟩, hmode, hin⟩
    obtain ⟨hctx, hcur, hbuf, hsame, -, hdir, hfin⟩ := hinv k hmode
    exact ⟨hmode, hctx, hcur, hin, hsame ▸ hin, hdir hin, hbuf, hfin⟩

theorem Bpc.Live.inv {k : Kind} {b : Bpc} (h : b.Live k) : b.Inv :=
  (Bpc.live_iff.mp h).1

theorem Bpc.inv_reset : Bpc.reset.Inv :=
  ⟨fun _ => rfl, nofun⟩

/-- The unit's context has run over whole blocks; its buffer holds at most one block and is empty once finished. -/
theorem Bpc.Live.afterBlocks {k : Kind} {b : Bpc} {order : CtrOrder} {xs : List Bytes} {m : ModeCtx} {out buf : Bytes}
    {finished : Bool} (hb : b.Live k) (hrun : blockSteps k order b.m xs = some (m, out))
    (hxs : ∀ x ∈ xs, x.length = mbs k b.m) (hbuf : buf.length ≤ mbs k b.m) (hfin : finished = true → buf = []) :
    Bpc.Live k { b with m := m, buf := buf, finished := finished } := by
  obtain ⟨hctx, hmin, hdir, hcur⟩ := blockSteps_keeps hrun hxs hb.ctx hb.ctxInited hb.boundary
  have hsize : mbs k m = mbs k b.m := (blockSteps_length hrun hxs).2
  exact ⟨hb.mode, hctx, hcur, hb.inited, hmin, hb.dir.trans hdir.symm, hsize ▸ hbuf, hfin⟩

theorem mbs_pos {k : Kind} {m : ModeCtx} (hm : m.Inv k) : 0 < mbs k m := by
  obtain ⟨hlo, -⟩ := hm
  cases k <;> simp [mbs, bs] <;> omega

/-! ## The commands of the unit -/

/-- Construction stores a context of the kind, with the immediate as its size where the kind feeds bytes back (R261). -/
theorem bpcCfgResult_inv {kind : Kind} {imm : BitVec 24} {s u : State} {out : Bytes}
    (h : bpcCfgResult kind imm s = .ok u out) : u.b.Inv := by
  unfold bpcCfgResult at h
  split at h
  · cases h
  rename_i hlegal
  cases h
  refine ⟨nofun, fun k hk => ?_⟩
  cases hk
  cases hfb : isFeedback kind with
  | false =>
    exact ⟨inv_modeCtx_reset kind, rfl, Nat.zero_le _, rfl, fun _ => ⟨rfl, rfl, rfl⟩, nofun, nofun⟩
  | true =>
    obtain ⟨hlo, hhi⟩ := fbSizeLegal_bytes (imm := imm) (by simpa [hfb] using hlegal)
    have hkind : kind = .cfb ∨ kind = .ofb := by simpa [isFeedback] using hfb
    exact ⟨inv_modeFresh hlo hhi (hkind.imp_right .inl), rfl, Nat.zero_le _, rfl, fun _ => ⟨rfl, rfl, rfl⟩, nofun,
      nofun⟩

theorem bpcInitResult_inv {dir : Bool} {t : PType} {s u : State} {out : Bytes}
    (h : bpcInitResult dir t s = .ok u out) (hs : s.b.Inv) : u.b.Inv := by
  unfold bpcInitResult at h
  split at h
  · cases h
  · rename_i k hmode
    split at h
    · cases h
    · rename_i m hm
      cases h
      obtain ⟨hctx, -⟩ := hs.2 k hmode
      obtain ⟨hmin, hmdir, hcur⟩ := modeInit_boundary hm
      exact Bpc.Live.inv ⟨hmode, inv_modeInit hm hctx, hcur, rfl, hmin, hmdir.symm, Nat.zero_le _, fun _ => rfl⟩

theorem bpcResetResult_inv {s u : State} {out : Bytes} (h : bpcResetResult s = .ok u out) (hs : s.b.Inv) :
    u.b.Inv := by
  unfold bpcResetResult at h
  split at h
  · cases h; exact hs
  · rename_i k hmode
    split at h
    · rename_i hin
      cases h
      have hb := Bpc.live_iff.mpr ⟨hs, hmode, hin⟩
      have hcur : (modeReset k s.b.m).cur = 0 := by rw [modeReset_of_inited k hb.ctxInited]
      exact Bpc.Live.inv ⟨hmode, inv_modeReset hb.ctx, hcur, hin, (modeReset_inited k _).trans hb.ctxInited,
        hb.dir.trans (modeReset_dir k _).symm, Nat.zero_le _, fun _ => rfl⟩
    · cases h; exact hs

/-- The bytes that leave the buffer are whole blocks, and at most one block stays (R264, `bpcKeep_spec`). -/
theorem bpcBytesReady_live {k : Kind} {d : Bytes} {o : BitVec 24} {s u : State} {out : Bytes} (hb : s.b.Live k)
    (hfin : s.b.finished = false) (h : bpcBytesReady k d o s = .ok u out) : u.b.Live k := by
  unfold bpcBytesReady at h
  simp only at h
  split at h
  · cases h
  obtain ⟨m, hrun, rfl⟩ := dataResult_ok h
  have hpos : 0 < mbs k s.b.m := mbs_pos hb.ctx
  obtain ⟨hle, hkeep, hwhole, -⟩ := bpcKeep_spec (total := s.b.buf.length + d.length) hpos
  refine hb.afterBlocks hrun (fun x hx => length_of_mem_blocksOf hpos ?_ hx) ?_ (by simp [hfin])
  · rw [List.length_take, List.length_append, min_eq_left (Nat.sub_le _ _)]; exact hwhole
  · rw [List.length_drop, List.length_append]; omega

/-- A tail of at most one block is padded to one block (00_scope.md R17). -/
theorem padAdd_tail_length {size : Nat} {tail : Bytes} (h : tail.length ≤ size) :
    (padAdd (tail ++ zeros (size - tail.length)) tail.length).length = size := by
  rw [padAdd_length (by simp), List.length_append, zeros_length]
  omega

/-- The padded tail is one block, and a full buffer is another one before it (R266). -/
theorem bpcFinalEnc_live {k : Kind} {o : BitVec 24} {s u : State} {out : Bytes} (hb : s.b.Live k)
    (h : bpcFinalEnc k o s = .ok u out) : u.b.Live k := by
  by_cases hfull : s.b.buf.length = mbs k s.b.m
  · simp only [bpcFinalEnc, hfull, if_true] at h
    split at h
    · cases h
    obtain ⟨m, hrun, rfl⟩ := dataResult_ok h
    refine hb.afterBlocks hrun (fun x hx => ?_) (Nat.zero_le _) (fun _ => rfl)
    rcases List.mem_cons.mp hx with rfl | hpad
    · exact hfull
    · rw [List.mem_singleton.mp hpad]; exact padAdd_tail_length (Nat.zero_le _)
  · simp only [bpcFinalEnc, hfull, if_false] at h
    split at h
    · cases h
    obtain ⟨m, hrun, rfl⟩ := dataResult_ok h
    refine hb.afterBlocks hrun (fun x hx => ?_) (Nat.zero_le _) (fun _ => rfl)
    rw [List.mem_singleton.mp hx]; exact padAdd_tail_length hb.buf

/-- A successful `FinalDec` has run over one block (R267). -/
theorem bpcFinalDec_live {k : Kind} {o : BitVec 24} {s u : State} {out : Bytes} (hb : s.b.Live k)
    (h : bpcFinalDec k o s = .ok u out) : u.b.Live k := by
  unfold bpcFinalDec at h
  simp only at h
  split at h
  · cases h
  rename_i hfull
  split at h
  · cases h
  rename_i m x hstep
  split at h
  · cases h
  split at h
  · cases h
  cases h
  have hrun : blockSteps k s.params.ctrOrder s.b.m [s.b.buf] = some (m, x) := by simp [blockSteps, hstep]
  refine hb.afterBlocks hrun (fun y hy => ?_) (Nat.zero_le _) (fun _ => rfl)
  rw [List.mem_singleton.mp hy]
  exact not_not.mp hfull

theorem bpcFinalReady_live {k : Kind} {o : BitVec 24} {s u : State} {out : Bytes} (hb : s.b.Live k)
    (h : bpcFinalReady k o s = .ok u out) : u.b.Live k := by
  unfold bpcFinalReady at h
  split at h
  · exact bpcFinalEnc_live hb h
  · exact bpcFinalDec_live hb h

/-- Every successful command keeps the invariant of the buffered cipher. -/
theorem bpcInv_of_resultOf_ok {i : Instr} {s u : State} {out : Bytes} (h : resultOf i s = .ok u out) (hs : s.b.Inv) :
    u.b.Inv := by
  cases i with
  | bpcCfg kind imm => exact bpcCfgResult_inv h
  | bpcInit dir t => exact bpcInitResult_inv h hs
  | bpcReset => exact bpcResetResult_inv h hs
  | bpcBytes d o =>
    obtain ⟨k, hmode, hin, hfin, hok⟩ := whenReady_ok h
    exact (bpcBytesReady_live (Bpc.live_iff.mpr ⟨hs, hmode, hin⟩) hfin hok).inv
  | bpcFinal o =>
    obtain ⟨k, hmode, hin, -, hok⟩ := whenReady_ok h
    exact (bpcFinalReady_live (Bpc.live_iff.mpr ⟨hs, hmode, hin⟩) hok).inv
  | bpcOsize len o =>
    simp only [resultOf] at h
    split at h
    · cases h
    · obtain ⟨k, -, -, -, hok⟩ := whenReady_ok h
      cases hok
      exact hs
  | _ =>
    obtain ⟨⟨-, -, -, -, -, -, -, -, -, hb, -⟩, -⟩ := resultOf_ok_frame h
    rw [hb (by simp [Instr.unit, Instr.packet])]; exact hs

/-- Settles O58: a step changes the units only by a successful command (`step_keeps`), and such a command keeps both
invariants. -/
theorem stepKeepsTheModeAndBufferInvariants : Obligations.StepKeepsTheModeAndBufferInvariants := by
  intro s t hstep
  constructor
  · refine step_keeps hstep State.ModesInv (fun u v huv hu => ?_) fun _ _ _ => modesInv_of_resultOf_ok
    obtain ⟨-, -, -, hecb, hcbc, hcfb, hofb, hctr, -⟩ := huv
    rw [State.ModesInv, hecb (by decide), hcbc (by decide), hcfb (by decide), hofb (by decide), hctr (by decide)]
    exact hu
  · refine step_keeps hstep (fun u => u.b.Inv) (fun u v huv hu => ?_) fun _ _ _ => bpcInv_of_resultOf_ok
    obtain ⟨-, -, -, -, -, -, -, -, -, hb, -⟩ := huv
    rw [hb (by decide)]
    exact hu

end Sys2Proof.Machine
end

section
/-! Unit GCM between commands (10_state.md R42, 45_gcm.md R220 to R240): the counter and the block limit over the data
path, and that every command keeps the invariant of the session. -/

namespace Sys2Proof.Machine

open Sys2Proof.Config

theorem Gcm.inv_reset : Gcm.reset.Inv :=
  ⟨fun _ => rfl, nofun, Nat.zero_le _, Nat.zero_le _, nofun, fun _ => ⟨rfl, rfl, rfl, rfl⟩, nofun,
    fun _ => ⟨rfl, rfl⟩, rfl, rfl, by decide, by decide⟩

/-! ## Associated data and the start of the cipher (R223, R224) -/

/-- The partial block of associated data stays shorter than a block. -/
theorem aadAbsorb_atbuf_le {g : Gcm} (d : Bytes) (h : g.atbuf.length ≤ 15) : (aadAbsorb g d).atbuf.length ≤ 15 := by
  induction d generalizing g with
  | nil => exact h
  | cons b d ih =>
    refine ih (g := aadByte g b) ?_
    unfold aadByte
    split
    · exact Nat.zero_le _
    · rename_i hne
      simp only [List.length_append, List.length_singleton, bs] at hne ⊢
      omega

/-- Associated data may be absorbed while the cipher has not started. -/
theorem inv_aadAbsorb {g : Gcm} (d : Bytes) (hg : g.Inv) (hin : g.inited = true) (hst : g.started = false) :
    (aadAbsorb g d).Inv := by
  obtain ⟨-, hopen, hat, hpb, -, hfresh, henc, hdec, hwhole, hctr, hlimit, hdlimit⟩ := hg
  have hatbuf := aadAbsorb_atbuf_le d hat
  rw [aadAbsorb_frame]
  exact ⟨by simp [hin], hopen, hatbuf, hpb, by simp [hst], hfresh, henc, hdec, hwhole, hctr, hlimit, hdlimit⟩

theorem startCipher_atbuf {g : Gcm} (hg : g.Inv) : (startCipher g).atbuf = [] := by
  obtain ⟨-, -, -, -, hclosed, -⟩ := hg
  unfold startCipher
  split
  · exact hclosed ‹_›
  · rfl

/-- Starting the cipher of an open session closes the associated data. -/
theorem inv_startCipher {g : Gcm} (hg : g.Inv) (hin : g.inited = true) : (startCipher g).Inv := by
  have hatbuf := startCipher_atbuf hg
  obtain ⟨-, hopen, -, hpb, -, -, henc, hdec, hwhole, hctr, hlimit, hdlimit⟩ := hg
  rw [startCipher_frame]
  exact ⟨by simp [hin], hopen, by simp [hatbuf], hpb, fun _ => hatbuf, nofun, henc, hdec, hwhole, hctr, hlimit,
    hdlimit⟩

/-! ## The counter over the data path (R221, R225, R233) -/

/-- The running counter is `J0` incremented once per whole block, and the partial block is shorter than a block. -/
def Gcm.CounterInStep (g : Gcm) : Prop :=
  g.pbuf.length ≤ 15 ∧ g.totlen.toNat % 16 = 0 ∧ g.ctrb = inc32^[g.totlen.toNat / 16] g.j0

/-- A byte of plaintext is counted once, in `PBUF` or, with its whole block, in `TOTLEN`. -/
theorem encByte_counterInStep {g : Gcm} (b : Byte) (hg : g.CounterInStep) (hlt : g.totlen.toNat + 16 < 2 ^ 64) :
    (encByte g b).1.CounterInStep ∧
      (encByte g b).1.totlen.toNat + (encByte g b).1.pbuf.length = g.totlen.toNat + g.pbuf.length + 1 := by
  obtain ⟨hpb, hwhole, hctr⟩ := hg
  unfold encByte Gcm.CounterInStep
  split
  · rename_i hfull
    have hct : (ctrXor g.key (inc32 g.ctrb) (g.pbuf ++ [b])).length = 16 := by
      rw [ctrXor, xorBytes_length, bytesOfBlock_length, hfull]; rfl
    have htot : (g.totlen + BitVec.ofNat 64 16).toNat = g.totlen.toNat + 16 := by
      rw [BitVec.toNat_add, BitVec.toNat_ofNat]; omega
    have hblocks : (g.totlen.toNat + 16) / 16 = g.totlen.toNat / 16 + 1 := by omega
    simp only [List.length_append, List.length_singleton, bs] at hfull
    simp only [encBlock, hct, htot, List.length_nil, hblocks, Function.iterate_succ_apply', ← hctr]
    exact ⟨⟨Nat.zero_le _, by omega, trivial⟩, by omega⟩
  · rename_i hpartial
    simp only [List.length_append, List.length_singleton, bs] at hpartial ⊢
    exact ⟨⟨by omega, hwhole, hctr⟩, by omega⟩

theorem bytesEnc_counterInStep {g : Gcm} (d : Bytes) (hg : g.CounterInStep)
    (hlt : g.totlen.toNat + g.pbuf.length + d.length + 16 < 2 ^ 64) :
    (bytesEnc g d).1.CounterInStep ∧
      (bytesEnc g d).1.totlen.toNat + (bytesEnc g d).1.pbuf.length = g.totlen.toNat + g.pbuf.length + d.length := by
  induction d generalizing g with
  | nil => exact ⟨hg, rfl⟩
  | cons b d ih =>
    rw [List.length_cons] at hlt ⊢
    obtain ⟨hstep, hcount⟩ := encByte_counterInStep b hg (by omega)
    obtain ⟨hrest, htotal⟩ := ih hstep (by omega)
    exact ⟨hrest, htotal.trans (by omega)⟩

/-- Encrypting within the block limit, once the cipher has started (R233, R240). -/
theorem inv_bytesEnc {g : Gcm} (d : Bytes) (hg : g.Inv) (hin : g.inited = true) (hst : g.started = true)
    (hdir : g.dir = true) (hmax : (g.totlen.toNat + g.pbuf.length + d.length + 15) / 16 ≤ gcmBlkMax) :
    (bytesEnc g d).1.Inv := by
  obtain ⟨-, hopen, hat, hpb, hclosed, -, henc, -, hwhole, hctr, -, hdlimit⟩ := hg
  have hlt : g.totlen.toNat + g.pbuf.length + d.length + 16 < 2 ^ 64 := by
    rw [gcmBlkMax] at hmax; omega
  obtain ⟨⟨hpb', hwhole', hctr'⟩, htotal⟩ := bytesEnc_counterInStep d ⟨hpb, hwhole, hctr⟩ hlt
  have hmax' := hmax
  rw [← htotal] at hmax'
  rw [bytesEnc_frame] at hctr' ⊢
  exact ⟨by simp [hin], hopen, hat, hpb', hclosed, by simp [hst], henc, by simp [hdir], hwhole', hctr', hmax',
    hdlimit⟩

/-- Buffering ciphertext within the block limit, once the cipher has started (R234, R240). -/
theorem inv_bytesDec {g : Gcm} (d : Bytes) (hg : g.Inv) (hin : g.inited = true) (hst : g.started = true)
    (hdir : g.dir = false) (hmax : (g.dbuf.length + d.length + 15) / 16 ≤ gcmBlkMax) : (bytesDec g d).Inv := by
  obtain ⟨-, hopen, hat, hpb, hclosed, -, -, hdec, hwhole, hctr, hlimit, -⟩ := hg
  have hmax' : ((g.dbuf ++ d).length + 15) / 16 ≤ gcmBlkMax := by rw [List.length_append]; exact hmax
  exact ⟨by simp [bytesDec, hin], hopen, hat, hpb, hclosed, by simp [bytesDec, hst], by simp [bytesDec, hdir], hdec,
    hwhole, hctr, hlimit, hmax'⟩

/-! ## The commands of the unit -/

/-- Everything a successful `GCM.INIT` leaves: an open session that has absorbed some associated data (R229). -/
theorem gcmInitResult_ok {dir : Bool} {t : PType} {s u : State} {out : Bytes}
    (h : gcmInitResult dir t s = .ok u out) :
    gcmMacLegal (gcmMacBits t s.p) = true ∧ ∃ aad, u = s.withG (aadAbsorb (gcmOpen dir t s.p) aad) := by
  unfold gcmInitResult at h
  split at h
  · cases h
  split at h
  · cases h
  split at h
  · cases h
  split at h
  · cases h
  rename_i hlegal
  refine ⟨by simpa using hlegal, ?_⟩
  split at h
  · cases h; exact ⟨s.p.aad, rfl⟩
  · cases h; exact ⟨[], rfl⟩

theorem gcmAadResult_ok {d : Bytes} {s u : State} {out : Bytes} (h : gcmAadResult d s = .ok u out) :
    s.g.inited = true ∧ s.g.started = false ∧ u = s.withG (aadAbsorb s.g d) := by
  unfold gcmAadResult at h
  split at h
  · cases h
  split at h
  · cases h
  rename_i hin hst
  cases h
  exact ⟨by simpa using hin, by simpa using hst, rfl⟩

/-- A successful `GCM.FINAL` ends the session (R239). -/
theorem gcmFinalResult_ok {o : BitVec 24} {s u : State} {out : Bytes} (h : gcmFinalResult o s = .ok u out) :
    u = s.withG Gcm.reset := by
  simp only [gcmFinalResult, gcmFinalEnc, gcmFinalDec] at h
  repeat' split at h
  all_goals cases h
  all_goals rfl

theorem gcmMacLegal_iff (bits : Nat) : gcmMacLegal bits = true ↔ 32 ≤ bits ∧ bits ≤ 128 ∧ bits % 8 = 0 := by
  simp [gcmMacLegal, and_assoc]

theorem inv_gcmOpen {dir : Bool} {t : PType} {p : Staged} (hlegal : gcmMacLegal (gcmMacBits t p) = true) :
    (gcmOpen dir t p).Inv := by
  obtain ⟨hlo, hhi, -⟩ := (gcmMacLegal_iff _).mp hlegal
  have hmacb : 4 ≤ gcmMacBits t p / 8 ∧ gcmMacBits t p / 8 ≤ 16 := by omega
  exact ⟨nofun, fun _ => ⟨hmacb.1, hmacb.2, rfl⟩, Nat.zero_le _, Nat.zero_le _, nofun,
    fun _ => ⟨rfl, rfl, rfl, rfl⟩, fun _ => rfl, fun _ => ⟨rfl, rfl⟩, rfl, by simp [gcmOpen, Gcm.reset],
    (by decide : (0 + 0 + 15) / 16 ≤ gcmBlkMax), (by decide : (0 + 15) / 16 ≤ gcmBlkMax)⟩

theorem gcmBytesResult_inv {d : Bytes} {o : BitVec 24} {s u : State} {out : Bytes}
    (h : gcmBytesResult d o s = .ok u out) (hs : s.g.Inv) : u.g.Inv := by
  obtain ⟨hin, -, hempty, hdata⟩ := gcmBytesResult_ok h
  by_cases hd : d = []
  · rw [(hempty hd).1]; exact hs
  · obtain ⟨hmax, henc, hdec⟩ := hdata hd
    have hstart := inv_startCipher hs hin
    cases hdir : s.g.dir with
    | true =>
      rw [(henc hdir).1]
      exact inv_bytesEnc d hstart (by simpa using hin) (by simp) (by simpa using hdir)
        (by simpa [blocksAfter, hdir] using hmax)
    | false =>
      rw [(hdec hdir).2.1]
      exact inv_bytesDec d hstart (by simpa using hin) (by simp) (by simpa using hdir)
        (by simpa [blocksAfter, hdir] using hmax)

/-- Every successful command keeps the invariant of the GCM session. -/
theorem gcmInv_of_resultOf_ok {i : Instr} {s u : State} {out : Bytes} (h : resultOf i s = .ok u out) (hs : s.g.Inv) :
    u.g.Inv := by
  cases i with
  | gcmCfg => cases h; exact Gcm.inv_reset
  | gcmInit dir t =>
    obtain ⟨hlegal, aad, rfl⟩ := gcmInitResult_ok h
    exact inv_aadAbsorb aad (inv_gcmOpen hlegal) rfl rfl
  | gcmReset => cases h; exact Gcm.inv_reset
  | gcmBytes d o => exact gcmBytesResult_inv h hs
  | gcmAad d =>
    obtain ⟨hin, hst, rfl⟩ := gcmAadResult_ok h
    exact inv_aadAbsorb d hs hin hst
  | gcmFinal o => rw [gcmFinalResult_ok h]; exact Gcm.inv_reset
  | gcmOsize len o =>
    simp only [resultOf] at h
    split at h
    · cases h
    split at h <;> cases h
    exact hs
  | _ =>
    obtain ⟨⟨-, -, -, -, -, -, -, -, hg, -⟩, -⟩ := resultOf_ok_frame h
    rw [hg (by simp [Instr.unit, Instr.packet])]; exact hs

/-- Settles O59: a step changes the session only by a successful command (`step_keeps`, `gcmInv_of_resultOf_ok`). -/
theorem stepKeepsTheGcmInvariant : Obligations.StepKeepsTheGcmInvariant := by
  intro s t hs hstep
  refine step_keeps hstep (fun u => u.g.Inv) (fun u v huv hu => ?_) (fun _ _ _ => gcmInv_of_resultOf_ok) hs
  obtain ⟨-, -, -, -, -, -, -, -, hg, -⟩ := huv
  rw [hg (by decide)]
  exact hu

end Sys2Proof.Machine
end

section
/-! The MAC units, the staged parameters and the capacities (10_state.md R33, R42, R49, R52; 92_eei_decisions.md D43):
each unit's buffer with its invariant, then all of them over a step; and the state after reset. -/

namespace Sys2Proof.Machine

open Sys2Proof.Config

theorem fits_zero (cap : Option Nat) : fits cap 0 = true := by
  cases cap <;> simp [fits]

/-! ## HMAC (R282 to R285) -/

/-- The unit's invariant, and what its digest has absorbed is within `cap`. -/
def Hmac.Within (cap : Option Nat) (hm : Hmac) : Prop :=
  hm.Inv ∧ (hm.inited = true → fits cap hm.dg.length = true)

theorem Hmac.inv_reset : Hmac.reset.Inv :=
  ⟨fun _ => rfl, nofun⟩

/-- The two pads of a key differ by the two constants (R282). -/
theorem hmacPad_opad_eq (key : Bytes) :
    hmacPad hmacOpad key = (hmacPad hmacIpad key).map fun b => b ^^^ hmacIpad ^^^ hmacOpad := by
  rw [hmacPad, hmacPad, List.map_map]
  refine List.map_congr_left fun b _ => ?_
  rw [Function.comp_apply, BitVec.xor_assoc b hmacIpad hmacIpad, BitVec.xor_self, BitVec.xor_zero]

theorem inv_hmacPrimed (key : Bytes) : (hmacPrimed key).Inv :=
  ⟨nofun, fun _ => ⟨hmacPad_length _ _, hmacPad_opad_eq key, List.prefix_rfl⟩⟩

/-- The digest rewound to the inner pad, as RESET and FINAL leave it, has absorbed no more than before. -/
theorem Hmac.Within.rewind {cap : Option Nat} {hm : Hmac} (h : hm.Within cap) (hin : hm.inited = true) :
    Hmac.Within cap { hm with dg := hm.ipad } := by
  obtain ⟨⟨-, hpads⟩, hcap⟩ := h
  obtain ⟨hlen, hopad, hprefix⟩ := hpads hin
  exact ⟨⟨by simp [hin], fun _ => ⟨hlen, hopad, List.prefix_rfl⟩⟩,
    fun _ => fits_of_le (hcap hin) hprefix.length_le⟩

/-- The digest absorbs more bytes that fit. -/
theorem Hmac.Within.absorb {cap : Option Nat} {hm : Hmac} {d : Bytes} (h : hm.Within cap) (hin : hm.inited = true)
    (hfits : fits cap (hm.dg.length + d.length) = true) : Hmac.Within cap { hm with dg := hm.dg ++ d } := by
  obtain ⟨⟨-, hpads⟩, -⟩ := h
  obtain ⟨hlen, hopad, hprefix⟩ := hpads hin
  exact ⟨⟨by simp [hin], fun _ => ⟨hlen, hopad, hprefix.trans (List.prefix_append _ _)⟩⟩,
    fun _ => by rw [List.length_append]; exact hfits⟩

theorem hmacInitResult_ok {t : PType} {s u : State} {out : Bytes} (h : hmacInitResult t s = .ok u out) :
    fits s.params.capMsg (hmacPrimed s.p.key).dg.length = true ∧ u = s.withHm (hmacPrimed s.p.key) := by
  unfold hmacInitResult at h
  split at h
  · cases h
  split at h
  · cases h
  split at h <;> cases h
  exact ⟨‹_›, rfl⟩

theorem hmacResetResult_ok {s u : State} {out : Bytes} (h : hmacResetResult s = .ok u out) :
    (s.hm.inited = true ∧ u = s.withHm { s.hm with dg := s.hm.ipad }) ∨ u = s := by
  unfold hmacResetResult at h
  split at h <;> cases h
  · exact .inl ⟨‹_›, rfl⟩
  · exact .inr rfl

theorem hmacUpdateResult_ok {d : Bytes} {s u : State} {out : Bytes} (h : hmacUpdateResult d s = .ok u out) :
    s.hm.inited = true ∧ fits s.params.capMsg (s.hm.dg.length + d.length) = true ∧
      u = s.withHm { s.hm with dg := s.hm.dg ++ d } := by
  unfold hmacUpdateResult at h
  split at h
  · cases h
  rename_i hin
  split at h <;> cases h
  exact ⟨by simpa using hin, ‹_›, rfl⟩

theorem hmacFinalResult_ok {o : BitVec 24} {s u : State} {out : Bytes} (h : hmacFinalResult o s = .ok u out) :
    s.hm.inited = true ∧ u = s.withHm { s.hm with dg := s.hm.ipad } := by
  unfold hmacFinalResult at h
  split at h
  · cases h
  rename_i hin
  split at h <;> cases h
  exact ⟨by simpa using hin, rfl⟩

theorem hmacWithin_of_resultOf_ok {i : Instr} {s u : State} {out : Bytes} (h : resultOf i s = .ok u out)
    (hs : s.hm.Within s.params.capMsg) : u.hm.Within s.params.capMsg := by
  cases i with
  | hmacCfg => cases h; exact ⟨Hmac.inv_reset, nofun⟩
  | hmacInit dir t =>
    obtain ⟨hfits, rfl⟩ := hmacInitResult_ok h
    exact ⟨inv_hmacPrimed _, fun _ => hfits⟩
  | hmacReset =>
    rcases hmacResetResult_ok h with ⟨hin, rfl⟩ | rfl
    · exact hs.rewind hin
    · exact hs
  | hmacUpdate d =>
    obtain ⟨hin, hfits, rfl⟩ := hmacUpdateResult_ok h
    exact hs.absorb hin hfits
  | hmacFinal o =>
    obtain ⟨hin, rfl⟩ := hmacFinalResult_ok h
    exact hs.rewind hin
  | _ =>
    obtain ⟨⟨-, -, -, -, -, -, -, -, -, -, hhm, -⟩, -⟩ := resultOf_ok_frame h
    rw [hhm (by simp [Instr.unit, Instr.packet])]; exact hs

/-! ## KMAC (R300 to R305) -/

/-- The unit's invariant, and the message it has collected is within `cap`. -/
def Kmac.Within (cap : Option Nat) (km : Kmac) : Prop :=
  km.Inv ∧ fits cap km.msg.length = true

/-- A construction leaves all but the MAC size at reset (R301). -/
theorem Kmac.within_fresh (cap : Option Nat) (size : MacSize) :
    Kmac.Within cap { Kmac.reset with macbits := size } :=
  ⟨⟨fun _ => rfl, rfl⟩, fits_zero cap⟩

/-- A keyed unit with its generator at position 0. -/
theorem Kmac.within_of_inited {cap : Option Nat} {km : Kmac} (hin : km.inited = true) (hpos : km.pos = 0)
    (hfits : fits cap km.msg.length = true) : km.Within cap :=
  ⟨⟨by simp [hin], hpos⟩, hfits⟩

theorem kmacInitResult_ok {t : PType} {s u : State} {out : Bytes} (h : kmacInitResult t s = .ok u out) :
    ∃ iv, u = s.withKm { s.km with sgkey := s.p.key, sgiv := iv, pos := 0, msg := [], inited := true } := by
  unfold kmacInitResult at h
  split at h
  · cases h
  split at h
  · cases h
  split at h
  · cases h
  simp only at h
  generalize (if t = .keyIv then some s.p.iv else none) = iv at h
  split at h <;> cases h
  exact ⟨iv, rfl⟩

theorem kmacResetResult_ok {s u : State} {out : Bytes} (h : kmacResetResult s = .ok u out) :
    (s.km.inited = true ∧ u = s.withKm { s.km with msg := [], pos := 0 }) ∨ u = s := by
  unfold kmacResetResult at h
  split at h <;> cases h
  · exact .inl ⟨‹_›, rfl⟩
  · exact .inr rfl

theorem kmacUpdateResult_ok {d : Bytes} {s u : State} {out : Bytes} (h : kmacUpdateResult d s = .ok u out) :
    s.km.inited = true ∧ fits s.params.capMsg (s.km.msg.length + d.length) = true ∧
      u = s.withKm { s.km with msg := s.km.msg ++ d } := by
  unfold kmacUpdateResult at h
  split at h
  · cases h
  rename_i hin
  split at h <;> cases h
  exact ⟨by simpa using hin, ‹_›, rfl⟩

theorem kmacFinalResult_ok {o : BitVec 24} {s u : State} {out : Bytes} (h : kmacFinalResult o s = .ok u out) :
    s.km.inited = true ∧ u = s.withKm { s.km with msg := [], pos := 0 } := by
  unfold kmacFinalResult at h
  split at h
  · cases h
  rename_i hin
  split at h <;> cases h
  exact ⟨by simpa using hin, rfl⟩

theorem kmacWithin_of_resultOf_ok {i : Instr} {s u : State} {out : Bytes} (h : resultOf i s = .ok u out)
    (hs : s.km.Within s.params.capMsg) : u.km.Within s.params.capMsg := by
  cases i with
  | kmacCfg imm => cases h; exact Kmac.within_fresh _ _
  | kmacInit dir t =>
    obtain ⟨iv, rfl⟩ := kmacInitResult_ok h
    exact Kmac.within_of_inited rfl rfl (fits_zero _)
  | kmacReset =>
    rcases kmacResetResult_ok h with ⟨hin, rfl⟩ | rfl
    · exact Kmac.within_of_inited hin rfl (fits_zero _)
    · exact hs
  | kmacUpdate d =>
    obtain ⟨hin, hfits, rfl⟩ := kmacUpdateResult_ok h
    obtain ⟨⟨-, hpos⟩, -⟩ := hs
    exact Kmac.within_of_inited hin hpos (by simpa using hfits)
  | kmacFinal o =>
    obtain ⟨hin, rfl⟩ := kmacFinalResult_ok h
    exact Kmac.within_of_inited hin rfl (fits_zero _)
  | _ =>
    obtain ⟨⟨-, -, -, -, -, -, -, -, -, -, -, hkm⟩, -⟩ := resultOf_ok_frame h
    rw [hkm (by simp [Instr.unit, Instr.packet])]; exact hs

/-! ## The staging buffers and the GCM decrypt buffer -/

/-- Each of the three staging buffers is within `cap` (R33, D43). -/
def Staged.Within (cap : Option Nat) (p : Staged) : Prop :=
  fits cap p.key.length = true ∧ fits cap p.iv.length = true ∧ fits cap p.aad.length = true

theorem stagedWithin_of_resultOf_ok {i : Instr} {s u : State} {out : Bytes} (h : resultOf i s = .ok u out)
    (hs : s.p.Within s.params.capP) : u.p.Within s.params.capP := by
  have hother (hi : i.unit ≠ 0) : u.p.Within s.params.capP := by
    obtain ⟨⟨-, -, hp, -⟩, -⟩ := resultOf_ok_frame h
    rw [hp hi]; exact hs
  obtain ⟨hkey, hiv, haad⟩ := hs
  cases i with
  | sysNop => cases h; exact ⟨hkey, hiv, haad⟩
  | sysLdkey d => obtain ⟨rfl, -, hfits⟩ := stage_ok h; exact ⟨hfits, hiv, haad⟩
  | sysClrkey => cases h; exact ⟨fits_zero _, hiv, haad⟩
  | sysLdiv d => obtain ⟨rfl, -, hfits⟩ := stage_ok h; exact ⟨hkey, hfits, haad⟩
  | sysClriv => cases h; exact ⟨hkey, fits_zero _, haad⟩
  | sysLdaad d => obtain ⟨rfl, -, hfits⟩ := stage_ok h; exact ⟨hkey, hiv, hfits⟩
  | sysClraad => cases h; exact ⟨hkey, hiv, fits_zero _⟩
  | sysLdmac imm => cases h; exact ⟨hkey, hiv, haad⟩
  | sysClrmac => cases h; exact ⟨hkey, hiv, haad⟩
  | sysStatus o => simp only [resultOf] at h; split at h <;> cases h; exact ⟨hkey, hiv, haad⟩
  | _ => exact hother (by simp [Instr.unit, Instr.packet])

/-- Only `GCM.BYTES` fills the decrypt buffer, and it checks the capacity (R234, D43). -/
theorem dbufFits_of_resultOf_ok {i : Instr} {s u : State} {out : Bytes} (h : resultOf i s = .ok u out)
    (hs : fits s.params.capDbuf s.g.dbuf.length = true) : fits s.params.capDbuf u.g.dbuf.length = true := by
  cases i with
  | gcmCfg => cases h; exact fits_zero _
  | gcmInit dir t =>
    obtain ⟨-, aad, rfl⟩ := gcmInitResult_ok h
    rw [State.withG_g, aadAbsorb_frame]
    exact fits_zero _
  | gcmReset => cases h; exact fits_zero _
  | gcmBytes d o =>
    obtain ⟨-, -, hempty, hdata⟩ := gcmBytesResult_ok h
    by_cases hd : d = []
    · rw [(hempty hd).1]; exact hs
    · obtain ⟨-, henc, hdec⟩ := hdata hd
      cases hdir : s.g.dir with
      | true => rw [(henc hdir).1, State.withG_g, bytesEnc_frame, startCipher_dbuf]; exact hs
      | false =>
        obtain ⟨hfits, rfl, -⟩ := hdec hdir
        simpa [bytesDec] using hfits
  | gcmAad d =>
    obtain ⟨-, -, rfl⟩ := gcmAadResult_ok h
    rw [State.withG_g, aadAbsorb_frame]
    exact hs
  | gcmFinal o => rw [gcmFinalResult_ok h]; exact fits_zero _
  | gcmOsize len o =>
    simp only [resultOf] at h
    split at h
    · cases h
    split at h <;> cases h
    exact hs
  | _ =>
    obtain ⟨⟨-, -, -, -, -, -, -, -, hg, -⟩, -⟩ := resultOf_ok_frame h
    rw [hg (by simp [Instr.unit, Instr.packet])]; exact hs

/-! ## All buffers together -/

/-- The invariants of the MAC units and of the capacities, sorted by the unit that holds the buffer. -/
def State.BuffersWithin (s : State) : Prop :=
  s.hm.Within s.params.capMsg ∧ s.km.Within s.params.capMsg ∧ s.p.Within s.params.capP ∧
    fits s.params.capDbuf s.g.dbuf.length = true

theorem buffersWithin_iff {s : State} : s.BuffersWithin ↔ s.hm.Inv ∧ s.km.Inv ∧ s.CapacityInv := by
  simp only [State.BuffersWithin, Hmac.Within, Kmac.Within, Staged.Within, State.CapacityInv]
  tauto

theorem buffersWithin_of_resultOf_ok {i : Instr} {s u : State} {out : Bytes} (h : resultOf i s = .ok u out)
    (hs : s.BuffersWithin) : u.BuffersWithin := by
  obtain ⟨hhm, hkm, hp, hdbuf⟩ := hs
  obtain ⟨⟨-, hparams, -⟩, -⟩ := resultOf_ok_frame h
  rw [State.BuffersWithin, hparams]
  exact ⟨hmacWithin_of_resultOf_ok h hhm, kmacWithin_of_resultOf_ok h hkm, stagedWithin_of_resultOf_ok h hp,
    dbufFits_of_resultOf_ok h hdbuf⟩

/-- Settles O60: a step changes the buffers only by a successful command (`step_keeps`,
`buffersWithin_of_resultOf_ok`). -/
theorem stepKeepsTheMacAndCapacityInvariants : Obligations.StepKeepsTheMacAndCapacityInvariants := by
  intro s t hhm hkm hcap hstep
  refine buffersWithin_iff.mp (step_keeps hstep State.BuffersWithin (fun u v huv hu => ?_)
    (fun _ _ _ => buffersWithin_of_resultOf_ok) (buffersWithin_iff.mpr ⟨hhm, hkm, hcap⟩))
  obtain ⟨-, hparams, hp, -, -, -, -, -, hg, -, hvhm, hvkm⟩ := huv
  rw [State.BuffersWithin, hparams, hp (by decide), hg (by decide), hvhm (by decide), hvkm (by decide)]
  exact hu

/-! ## The state after reset -/

theorem engineInv_reset : State.reset.EngineInv := by decide

theorem modesInv_reset : State.reset.ModesInv :=
  ⟨inv_modeCtx_reset .ecb, inv_modeCtx_reset .cbc, inv_modeCtx_reset .cfb, inv_modeCtx_reset .ofb,
    inv_modeCtx_reset .ctr⟩

theorem buffersWithin_reset : State.reset.BuffersWithin :=
  ⟨⟨Hmac.inv_reset, nofun⟩, Kmac.within_fresh _ _, ⟨rfl, rfl, rfl⟩, rfl⟩

/-- Settles O56 from the reset value of each unit, which its construction command gives too. -/
theorem resetMeetsTheInvariants : Obligations.ResetMeetsTheInvariants :=
  ⟨engineInv_reset, modesInv_reset, Gcm.inv_reset, Bpc.inv_reset, buffersWithin_iff.mp buffersWithin_reset⟩

end Sys2Proof.Machine
end

section
/-! The two streams of the engine (20_memory.md R71, R72, R82): what a step appends to `RS`, and that it depends on no
byte of either stream but those of the packet it fetches. Both statements exchange a stream by `State.withStreams`. -/

namespace Sys2Proof.Machine

/-! ## The ends of a command with the streams exchanged -/

theorem completed_withStreams (u : State) (cs rs : Bytes) (unit op : BitVec 4) (ilen : Nat) (out : Bytes) :
    (u.withStreams cs rs).completed unit op ilen out =
      (u.completed unit op ilen out).withStreams cs (rs ++ wireResponse 0x00 unit op out) := rfl

theorem errored_withStreams (s : State) (cs rs : Bytes) (unit op : BitVec 4) (ilen : Nat) (code : BitVec 8) :
    (s.withStreams cs rs).errored unit op ilen code =
      (s.errored unit op ilen code).withStreams cs (rs ++ wireResponse code unit op []) := rfl

theorem haltedBy_withStreams (s : State) (cs rs : Bytes) (unit op : BitVec 4) (code : BitVec 8) :
    (s.withStreams cs rs).haltedBy unit op code =
      (s.haltedBy unit op code).withStreams cs (rs ++ wireResponse code unit op []) := rfl

/-- A command run on other streams ends the same way and appends the same response to them (R71, R72). -/
theorem exec_withStreams {i : Instr} {s t : State} (h : exec i s = .next t) (cs old : Bytes) :
    exec i (s.withStreams cs (old ++ s.rs)) = .next (t.withStreams cs (old ++ t.rs)) := by
  rw [exec_eq_respond] at h
  rw [exec_eq_respond, resultOf_withStreams]
  cases hr : resultOf i s with
  | ok u out =>
    rw [hr, respond_ok] at h
    cases h
    obtain ⟨-, -, -, -, -, -, -, -, -, hrs⟩ := resultOf_ok_frame hr
    rw [CmdResult.mapState, respond_ok, completed_withStreams, State.completed_rs, hrs, List.append_assoc]
  | err e =>
    rw [hr, respond_err] at h
    cases h
    rw [CmdResult.mapState, respond_err, errored_withStreams, State.errored_rs, List.append_assoc]
  | fatal f =>
    rw [hr, respond_fatal] at h
    cases h
    rw [CmdResult.mapState, respond_fatal, haltedBy_withStreams, State.haltedBy_rs, List.append_assoc]

/-! ## A step with the streams exchanged -/

/-- Where the other command stream gives the same fetch, the step is the same but for the streams themselves. -/
theorem step_withStreams {s t : State} {cs old : Bytes} (h : step s = .next t)
    (hfetch : fetch (s.withStreams cs (old ++ s.rs)) = fetch s) :
    step (s.withStreams cs (old ++ s.rs)) = .next (t.withStreams cs (old ++ t.rs)) := by
  have hrun : s.run = .running := running_of_step h
  rw [step_of_running hrun] at h
  rw [step_of_running (s := s.withStreams cs (old ++ s.rs)) hrun, hfetch]
  cases hf : fetch s with
  | endOfStream =>
    rw [hf] at h
    cases h
    rfl
  | rejected e =>
    rw [hf] at h
    cases h
    simp only [rejectPacket, raiseFatal_eq, haltedBy_withStreams, State.haltedBy_rs, List.append_assoc]
  | command i =>
    rw [hf] at h
    exact exec_withStreams h cs old

/-- A step appends nothing at the end of the stream, and one response packet anywhere else (R72). -/
theorem step_rs {s t : State} (h : step s = .next t) :
    (s.cp.toNat = s.cs.length → t.rs = s.rs) ∧
    (s.cp.toNat ≠ s.cs.length → ∃ status unit op out, t.rs = s.rs ++ wireResponse status unit op out) := by
  obtain ⟨-, hcases⟩ := step_cases h
  rcases hcases with ⟨hend, rfl⟩ | ⟨hmore, e, -, rfl⟩ | ⟨hmore, i, rest, -, hresult⟩
  · exact ⟨fun _ => rfl, fun hmore => absurd hend hmore⟩
  · exact ⟨fun hend => absurd hend hmore, fun _ => ⟨_, _, _, _, rfl⟩⟩
  · refine ⟨fun hend => absurd hend hmore, fun _ => ?_⟩
    rcases hresult with ⟨u, out, hr, rfl⟩ | ⟨e, -, rfl⟩ | ⟨f, -, rfl⟩
    · obtain ⟨-, -, -, -, -, -, -, -, -, hrs⟩ := resultOf_ok_frame hr
      exact ⟨_, _, _, _, by rw [State.completed_rs, hrs]⟩
    · exact ⟨_, _, _, _, rfl⟩
    · exact ⟨_, _, _, _, rfl⟩

/-- Settles O8: the response is that of the step's end (`step_rs`); the fetch does not look at `RS`, so the step does
not (`step_withStreams` with the command stream kept). -/
theorem oneResponsePerFetchedCommand : Obligations.OneResponsePerFetchedCommand := by
  refine ⟨rfl, fun s t hstep => ?_⟩
  obtain ⟨hend, hmore⟩ := step_rs hstep
  refine ⟨hend, hmore, fun old => ?_⟩
  have hkept : t.withStreams s.cs (old ++ t.rs) = { t with rs := old ++ t.rs } := by
    rw [State.withStreams, step_cs hstep]
  rw [← hkept]
  exact step_withStreams hstep rfl

/-! ## The bytes a fetch reads -/

/-- A stream that holds the same `n` bytes at `p` continues from `p` with those bytes. -/
theorem drop_eq_of_getElem?_eq {a b : Bytes} {p n : Nat} (h : ∀ j, j < n → b[p + j]? = a[p + j]?) :
    b.drop p = (a.drop p).take n ++ b.drop (p + n) := by
  have htake : (b.drop p).take n = (a.drop p).take n := by
    refine List.ext_getElem? fun j => ?_
    simp only [List.getElem?_take, List.getElem?_drop]
    split
    · exact h j ‹_›
    · rfl
  rw [← htake, ← List.drop_drop, List.take_append_drop]

/-- Bytes at `cp` that decode are no end of the stream (R97). -/
theorem fetch_of_decode {s : State} {i : Instr} {rest : Bytes} (h : decode (s.cs.drop s.cp.toNat) = .ok i rest) :
    fetch s = .command i := by
  have hlen := (decode_ok h).1
  rw [List.length_drop] at hlen
  rw [fetch, if_neg (by omega), fetchBytes, h]

/-- Settles O9: the other stream decodes to the same command (`decode_take`), so it gives the same fetch, and the step
depends on nothing else of it (`step_withStreams` with nothing put before `RS`). -/
theorem otherBytesOfTheStreamDoNotMatter : Obligations.OtherBytesOfTheStreamDoNotMatter := by
  intro s t i rest cs _ hdecode hbytes hstep
  have hother : decode (cs.drop s.cp.toNat) = .ok i (cs.drop (s.cp.toNat + (8 + i.ilen))) := by
    rw [drop_eq_of_getElem?_eq hbytes]
    exact decode_take hdecode _
  have hfetch : fetch (s.withStreams cs ([] ++ s.rs)) = fetch s :=
    (fetch_of_decode (s := s.withStreams cs ([] ++ s.rs)) hother).trans (fetch_of_decode hdecode).symm
  exact ⟨step_cs hstep, step_withStreams hstep hfetch⟩

end Sys2Proof.Machine
end

section
/-! The encoding of commands (30_encoding.md R90 to R95, R99, R104): the packet of a command decodes to the command,
bytes that decode are the packet but for its don't-care bits, and the worked encodings. -/

namespace Sys2Proof.Laws.PacketShape

/-- The facts per command of PerInstr.lean, for all commands at once. -/
theorem statement_holds : ∀ i : Instr, Statement i
  | .sysNop => sysNop
  | .sysLdkey data => sysLdkey data
  | .sysClrkey => sysClrkey
  | .sysLdiv data => sysLdiv data
  | .sysClriv => sysClriv
  | .sysLdaad data => sysLdaad data
  | .sysClraad => sysClraad
  | .sysLdmac imm => sysLdmac imm
  | .sysClrmac => sysClrmac
  | .sysStatus ocap => sysStatus ocap
  | .gfXor data ocap => gfXor data ocap
  | .gfMul data ocap => gfMul data ocap
  | .gfGhash data ocap => gfGhash data ocap
  | .ecbCfg => ecbCfg
  | .ecbInit dir ptype => ecbInit dir ptype
  | .ecbReset => ecbReset
  | .ecbBlock data ocap => ecbBlock data ocap
  | .cbcCfg => cbcCfg
  | .cbcInit dir ptype => cbcInit dir ptype
  | .cbcReset => cbcReset
  | .cbcBlock data ocap => cbcBlock data ocap
  | .cfbCfg imm => cfbCfg imm
  | .cfbInit dir ptype => cfbInit dir ptype
  | .cfbReset => cfbReset
  | .cfbBlock data ocap => cfbBlock data ocap
  | .cfbBytes data ocap => cfbBytes data ocap
  | .ofbCfg imm => ofbCfg imm
  | .ofbInit dir ptype => ofbInit dir ptype
  | .ofbReset => ofbReset
  | .ofbBlock data ocap => ofbBlock data ocap
  | .ofbBytes data ocap => ofbBytes data ocap
  | .ctrCfg => ctrCfg
  | .ctrInit dir ptype => ctrInit dir ptype
  | .ctrReset => ctrReset
  | .ctrBlock data ocap => ctrBlock data ocap
  | .ctrBytes data ocap => ctrBytes data ocap
  | .gcmCfg => gcmCfg
  | .gcmInit dir ptype => gcmInit dir ptype
  | .gcmReset => gcmReset
  | .gcmBytes data ocap => gcmBytes data ocap
  | .gcmAad data => gcmAad data
  | .gcmFinal ocap => gcmFinal ocap
  | .gcmOsize len ocap => gcmOsize len ocap
  | .bpcCfg kind imm => bpcCfg kind imm
  | .bpcInit dir ptype => bpcInit dir ptype
  | .bpcReset => bpcReset
  | .bpcBytes data ocap => bpcBytes data ocap
  | .bpcFinal ocap => bpcFinal ocap
  | .bpcOsize len ocap => bpcOsize len ocap
  | .hmacCfg => hmacCfg
  | .hmacInit dir ptype => hmacInit dir ptype
  | .hmacReset => hmacReset
  | .hmacUpdate data => hmacUpdate data
  | .hmacFinal ocap => hmacFinal ocap
  | .kmacCfg imm => kmacCfg imm
  | .kmacInit dir ptype => kmacInit dir ptype
  | .kmacReset => kmacReset
  | .kmacUpdate data => kmacUpdate data
  | .kmacFinal ocap => kmacFinal ocap

end Sys2Proof.Laws.PacketShape

namespace Sys2Proof

/-! ## Encode, then decode -/

/-- The word of a command selects a row of the opcode map that rebuilds the command from the word's fields. -/
theorem decodeWord_packet {i : Instr} (hi : i.WellFormed) (rest : Bytes) :
    decodeWord i.packet.word (i.packet.data ++ rest) = .ok i rest := by
  obtain ⟨r, a, hrow, harg, hlen, hbuild, hfits⟩ := Laws.PacketShape.statement_holds i
  have hilen : (wordIlen i.packet.word).toNat = i.packet.data.length := wordIlen_word _ (hfits hi)
  have hdecode := decodeWord_ok (w := i.packet.word) (tail := i.packet.data ++ rest)
    (by rwa [wordUnit_word, wordOp_word]) (by rwa [wordArg_word]) (by rwa [hilen]) (by simp [hilen])
  rwa [hilen, List.take_left, List.drop_left, wordLow_word, hbuild] at hdecode

/-- Settles O1: the decoder takes the word and the payload of the packet apart again (`decode_packet`), and the row that
the word selects rebuilds the command from them. -/
theorem decodeInvertsEncode : Obligations.DecodeInvertsEncode := by
  intro i rest hi
  rw [encode, decode_packet]
  exact decodeWord_packet hi rest

/-! ## Decode, then encode -/

/-- The packet of a decoded command has the fields of the word, and as its payload the bytes that follow the word; low
bits that the command ignores are written 0 (R99). -/
theorem decodeWord_ok_packet {w : BitVec 64} {tail : Bytes} {i : Instr} {rest : Bytes}
    (h : decodeWord w tail = .ok i rest) :
    (wordIlen w).toNat ≤ tail.length ∧
      i.packet = ⟨wordUnit w, wordOp w, wordArg w, if Machine.readsLow i then wordLow w else 0,
        tail.take (wordIlen w).toNat⟩ := by
  obtain ⟨r, a, hrow, harg, hlen, hfits, rfl, -⟩ := decodeWord_eq_ok h
  have hpayload : (tail.take (wordIlen w).toNat).length = (wordIlen w).toNat := List.length_take_of_le hfits
  exact ⟨hfits, packet_of_row hrow harg (by rwa [hpayload])⟩

/-- The eight bytes of a word, cut before and after `ILEN`, hold its fields (R74, R90). -/
theorem wordFields_of_bytes {a c l : Bytes} (ha : a.length = 2) (hc : c.length = 3) (hl : l.length = 3) {w : BitVec 64}
    (hw : w = BitVec.ofNat 64 (beNat (a ++ c ++ l))) :
    beNat a = ((wordUnit w).toNat * 16 + (wordOp w).toNat) * 256 + (wordArg w).toNat ∧
      beNat c = (wordIlen w).toNat ∧ beNat l = (wordLow w).toNat := by
  have hla : beNat a < 256 ^ 2 := ha ▸ beNat_lt a
  have hlc : beNat c < 256 ^ 3 := hc ▸ beNat_lt c
  have hll : beNat l < 256 ^ 3 := hl ▸ beNat_lt l
  have hnat : w.toNat = (beNat a * 256 ^ 3 + beNat c) * 256 ^ 3 + beNat l := by
    rw [hw, BitVec.toNat_ofNat, beNat_append, beNat_append, hl, hc, Nat.mod_eq_of_lt]
    omega
  simp only [wordUnit, wordOp, wordArg, wordIlen, wordLow, BitVec.extractLsb'_toNat, Nat.shiftRight_eq_div_pow, hnat]
  omega

/-- A packet is any bytes that hold its fields. -/
theorem Packet.bytes_eq {p : Packet} {a c l : Bytes} (ha : a.length = 2) (hc : c.length = 3) (hl : l.length = 3)
    (hhead : beNat a = (p.unit.toNat * 16 + p.op.toNat) * 256 + p.arg.toNat) (hilen : beNat c = p.data.length)
    (hlow : beNat l = p.low.toNat) : p.bytes = a ++ c ++ l ++ p.data := by
  have hword : beNat (a ++ c ++ l) = p.word.toNat := by
    have hfits : p.data.length < 256 ^ 3 := hilen ▸ hc ▸ beNat_lt c
    rw [p.word_toNat, beNat_append, beNat_append, hl, hc, hhead, hilen, hlow]
    omega
  have hlength : (a ++ c ++ l).length = 8 := by simp [ha, hc, hl]
  rw [Packet.bytes, ← hword, ← hlength, beBytes_beNat]

theorem Instr.payload_length_le (i : Instr) : i.payload.length ≤ i.ilen := by
  cases i <;> simp [Instr.payload, Instr.ilen, Instr.packet]

/-- Settles O2: cut as 2, 3 and 3 bytes, the word that was decoded holds the fields of the packet
(`wordFields_of_bytes`, `decodeWord_ok_packet`), and a packet is the bytes that hold its fields. -/
theorem decodedBytesAreThePacket : Obligations.DecodedBytesAreThePacket := by
  intro b i rest hdecode
  obtain ⟨hlength, hrest⟩ := Machine.decode_ok hdecode
  have hword : b.take 2 ++ (b.drop 2).take 3 ++ (b.drop 5).take 3 = b.take 8 := by
    rw [← List.take_add, ← List.take_add]
  have hhead : (b.take 2).length = 2 := by rw [List.length_take]; omega
  have hilenBytes : ((b.drop 2).take 3).length = 3 := by rw [List.length_take, List.length_drop]; omega
  have hlowBytes : ((b.drop 5).take 3).length = 3 := by rw [List.length_take, List.length_drop]; omega
  rw [decode, if_neg (by omega), ← hword] at hdecode
  obtain ⟨hfirst, hilen, hlow⟩ := wordFields_of_bytes hhead hilenBytes hlowBytes rfl
  obtain ⟨hfits, hpacket⟩ := decodeWord_ok_packet hdecode
  have hdata : i.packet.data.length = beNat ((b.drop 2).take 3) := by
    rw [hpacket, hilen]; exact List.length_take_of_le hfits
  refine ⟨?_, hdata, hlength, hrest, ?_⟩
  · calc i.payload.length ≤ i.ilen := i.payload_length_le
      _ = beNat ((b.drop 2).take 3) := hdata
      _ < 256 ^ 3 := by simpa only [hilenBytes] using beNat_lt ((b.drop 2).take 3)
      _ = 2 ^ 24 := by norm_num
  · have hpayload : i.packet.data = (b.drop 8).take i.ilen := by
      rw [Instr.ilen, hdata, hpacket, hilen]
    rw [encode, ← hpayload, show b.take 5 = b.take 2 ++ (b.drop 2).take 3 from List.take_add (i := 2) (j := 3)]
    refine Packet.bytes_eq hhead hilenBytes ?_ (by rw [hpacket, hfirst]) hdata.symm ?_
    · split
      · exact hlowBytes
      · rfl
    · rw [hpacket]
      split
      · exact hlow
      · rfl

/-! ## The worked encodings -/

/-- Settles O3: the words and bytes are computed; that they decode is O1 on the commands they encode. -/
theorem workedEncodings : Obligations.WorkedEncodings := by
  refine ⟨by decide, fun rest => ?_, fun d rest hd => ?_, fun out hout => ?_, ?_, ?_, ?_⟩
  · exact decodeInvertsEncode (.cbcInit true .keyIv) rest (by decide)
  · have hword : (Instr.cbcBlock d 16).packet.word = 0x3300000010000010 := by
      simp [Instr.packet, Packet.word, hd]
    refine ⟨hword, ?_⟩
    have hwf : (Instr.cbcBlock d 16).WellFormed := by simp [Instr.WellFormed, Instr.payload, hd]
    have hbytes : encode (.cbcBlock d 16) = [0x33, 0, 0, 0, 0x10, 0, 0, 0x10] ++ d := by
      rw [encode, Packet.bytes, hword]; rfl
    rw [← hbytes]
    exact decodeInvertsEncode _ rest hwf
  · rw [Machine.responsePacket_eq, Machine.wireResponse, hout]
    exact ⟨rfl, rfl⟩
  · exact decodeInvertsEncode (.cfbCfg 8) [] (by decide)
  · exact decodeInvertsEncode (.bpcCfg .cbc 0) [] (by decide)
  · exact decodeInvertsEncode (.gcmOsize 5 8) [] (by decide)

end Sys2Proof
end

section
/-! The opcode map (30_encoding.md R91 to R94, R101): the tabulated `match` and `mask` columns are the decoder's rows,
so that a word selects a table row exactly when the decoder finds a row that takes its `ARG` and `ILEN`. -/

namespace Sys2Proof

open Sys2Proof.Machine

/-! ## A word by its fields (R90) -/

/-- The word with the given fields. -/
def wordOf (unit op : BitVec 4) (arg : BitVec 8) (ilen low : BitVec 24) : BitVec 64 :=
  unit ++ op ++ arg ++ ilen ++ low

theorem wordOf_toNat (u o : BitVec 4) (a : BitVec 8) (n l : BitVec 24) :
    (wordOf u o a n l).toNat =
      (((u.toNat * 16 + o.toNat) * 256 + a.toNat) * 16777216 + n.toNat) * 16777216 + l.toNat := by
  simp only [wordOf, toNat_append_eq]
  norm_num

theorem wordOf_fields (w : BitVec 64) :
    wordOf (wordUnit w) (wordOp w) (wordArg w) (wordIlen w) (wordLow w) = w := by
  apply BitVec.eq_of_toNat_eq
  have hw := w.isLt
  simp only [wordOf_toNat, wordUnit, wordOp, wordArg, wordIlen, wordLow, BitVec.extractLsb'_toNat,
    Nat.shiftRight_eq_div_pow]
  omega

theorem wordOf_inj {u u' o o' : BitVec 4} {a a' : BitVec 8} {n n' l l' : BitVec 24} :
    wordOf u o a n l = wordOf u' o' a' n' l' ↔ u = u' ∧ o = o' ∧ a = a' ∧ n = n' ∧ l = l' := by
  simp only [← BitVec.toNat_inj, wordOf_toNat]
  omega

theorem wordOf_and (u u' o o' : BitVec 4) (a a' : BitVec 8) (n n' l l' : BitVec 24) :
    wordOf u o a n l &&& wordOf u' o' a' n' l' = wordOf (u &&& u') (o &&& o') (a &&& a') (n &&& n') (l &&& l') :=
  BitVec.and_append.trans (by simp only [BitVec.and_append, wordOf])

/-! ## The table and the decoder's rows (R93, R94, R101) -/

/-- The bits of `ARG` that a form fixes, all of them to 0 (R93). -/
def ArgForm.mask : ArgForm → BitVec 8
  | .none => 0xff
  | .init => 0xf8
  | .kind => 0xf8

/-- The bits of `ILEN` that a form fixes (R94). -/
def LenForm.mask : LenForm → BitVec 24
  | .zero => 0xffffff
  | .eight => 0xffffff
  | .any => 0

/-- The value of the bits that a form of `ILEN` fixes (R94). -/
def LenForm.fixed : LenForm → BitVec 24
  | .zero => 0
  | .eight => 8
  | .any => 0

/-- The `match` and `mask` columns for a row of the decoder: `UNIT` and `OP` are fixed, `ARG` and `ILEN` as the row's
forms say, the low 24 bits are free. -/
def tableEntry (unit op : BitVec 4) (r : Row) : BitVec 64 × BitVec 64 :=
  (wordOf unit op 0 r.len.fixed 0, wordOf 15 15 r.arg.mask r.len.mask 0)

/-- The table holds the entries of all rows of the decoder and no others, in the order of `(UNIT, OP)`. -/
theorem opcodeMap_eq : opcodeMap =
    (List.range 16).flatMap fun u => (List.range 16).filterMap fun o =>
      (row (BitVec.ofNat 4 u) (BitVec.ofNat 4 o)).map (tableEntry (BitVec.ofNat 4 u) (BitVec.ofNat 4 o)) := by
  decide +kernel

theorem mem_opcodeMap {q : BitVec 64 × BitVec 64} :
    q ∈ opcodeMap ↔ ∃ u o r, row u o = some r ∧ tableEntry u o r = q := by
  rw [opcodeMap_eq]
  simp only [List.mem_flatMap, List.mem_filterMap, List.mem_range, Option.map_eq_some_iff]
  constructor
  · rintro ⟨u, -, o, -, r, hrow, hq⟩
    exact ⟨_, _, r, hrow, hq⟩
  · rintro ⟨u, o, r, hrow, hq⟩
    exact ⟨u.toNat, u.isLt, o.toNat, o.isLt, r, by simpa using hrow, by simpa using hq⟩

/-- A form accepts an `ARG` by its fixed bits, and `KIND` also by its range (R93). -/
theorem argOperands_isSome_iff (f : ArgForm) (arg : BitVec 8) :
    (argOperands f arg).isSome = true ↔
      arg &&& f.mask = 0 ∧ (f = .kind → 1 ≤ (arg.extractLsb' 0 3).toNat ∧ (arg.extractLsb' 0 3).toNat ≤ 5) := by
  revert arg
  cases f <;> decide +kernel

theorem ilenLegal_iff (f : LenForm) (n : BitVec 24) :
    ilenLegal f n.toNat = true ↔ n &&& f.mask = f.fixed := by
  have hones : n &&& 0xffffff = n := BitVec.and_allOnes
  cases f with
  | zero => simp only [ilenLegal, LenForm.mask, LenForm.fixed, hones, beq_iff_eq, ← BitVec.toNat_inj]; rfl
  | eight => simp only [ilenLegal, LenForm.mask, LenForm.fixed, hones, beq_iff_eq, ← BitVec.toNat_inj]; rfl
  | any => simp [ilenLegal, LenForm.mask, LenForm.fixed]

/-- The one command with a `KIND` is BPC.CFG, which the table singles out by its `match` column. -/
theorem tableEntry_kind_iff {u o : BitVec 4} {r : Row} (hrow : row u o = some r) :
    (tableEntry u o r).1 = 0x8000000000000000 ↔ r.arg = .kind := by
  have hall : ∀ u o : BitVec 4, ∀ r ∈ row u o, ((tableEntry u o r).1 = 0x8000000000000000 ↔ r.arg = .kind) := by
    decide +kernel
  exact hall u o r hrow

/-- A word selects the entry of a decoder's row exactly when it has the row's `UNIT` and `OP` and the row takes
its `ARG` and its `ILEN`. -/
theorem selectsRow_tableEntry {w : BitVec 64} {u o : BitVec 4} {r : Row} (hrow : row u o = some r) :
    SelectsRow w (tableEntry u o r) ↔
      wordUnit w = u ∧ wordOp w = o ∧ (argOperands r.arg (wordArg w)).isSome = true ∧
        ilenLegal r.len (wordIlen w).toNat = true := by
  have hkind : w.extractLsb' 48 3 = (wordArg w).extractLsb' 0 3 := by
    ext k hk
    simp [wordArg, show k < 8 by omega]
  have hones : ∀ x : BitVec 4, x &&& 15 = x := fun _ => BitVec.and_allOnes
  have hzero : wordLow w &&& 0 = 0 := BitVec.and_zero
  have hmatch : w &&& (tableEntry u o r).2 = (tableEntry u o r).1 ↔
      wordUnit w = u ∧ wordOp w = o ∧ wordArg w &&& r.arg.mask = 0 ∧ wordIlen w &&& r.len.mask = r.len.fixed := by
    conv_lhs => rw [← wordOf_fields w]
    simp only [tableEntry, wordOf_and, wordOf_inj, hones, hzero, and_true]
  rw [SelectsRow, hmatch, tableEntry_kind_iff hrow, hkind, argOperands_isSome_iff, ilenLegal_iff]
  tauto

/-! ## Which words are legal -/

theorem namesCommand_iff {w : BitVec 64} :
    NamesCommand w ↔ ∃ r, row (wordUnit w) (wordOp w) = some r ∧ (argOperands r.arg (wordArg w)).isSome = true ∧
      ilenLegal r.len (wordIlen w).toNat = true := by
  constructor
  · rintro ⟨q, hq, hselects⟩
    obtain ⟨u, o, r, hrow, rfl⟩ := mem_opcodeMap.mp hq
    obtain ⟨rfl, rfl, harg, hlen⟩ := (selectsRow_tableEntry hrow).mp hselects
    exact ⟨r, hrow, harg, hlen⟩
  · rintro ⟨r, hrow, harg, hlen⟩
    exact ⟨_, mem_opcodeMap.mpr ⟨_, _, r, hrow, rfl⟩, (selectsRow_tableEntry hrow).mpr ⟨rfl, rfl, harg, hlen⟩⟩

/-- `UNIT` and `OP` alone tell the row that a word can select. -/
theorem selectsRow_unique {w : BitVec 64} {r q : BitVec 64 × BitVec 64} (hr : r ∈ opcodeMap) (hq : q ∈ opcodeMap)
    (hwr : SelectsRow w r) (hwq : SelectsRow w q) : r = q := by
  obtain ⟨u, o, x, hx, rfl⟩ := mem_opcodeMap.mp hr
  obtain ⟨v, p, y, hy, rfl⟩ := mem_opcodeMap.mp hq
  obtain ⟨rfl, rfl, -⟩ := (selectsRow_tableEntry hx).mp hwr
  obtain ⟨rfl, rfl, -⟩ := (selectsRow_tableEntry hy).mp hwq
  cases hx.symm.trans hy
  rfl

theorem decodeWord_of_namesCommand {w : BitVec 64} {tail : Bytes} (hw : NamesCommand w)
    (hlen : (wordIlen w).toNat ≤ tail.length) : ∃ i, decodeWord w tail = .ok i (tail.drop (wordIlen w).toNat) := by
  obtain ⟨r, hrow, harg, hilen⟩ := namesCommand_iff.mp hw
  obtain ⟨a, ha⟩ := Option.isSome_iff_exists.mp harg
  exact ⟨_, decodeWord_ok hrow ha hilen hlen⟩

theorem decodeWord_of_short_payload {w : BitVec 64} {tail : Bytes} (hw : NamesCommand w)
    (hlen : tail.length < (wordIlen w).toNat) :
    decodeWord w tail = .bad (.truncPayload (wordUnit w) (wordOp w)) := by
  obtain ⟨r, hrow, harg, hilen⟩ := namesCommand_iff.mp hw
  obtain ⟨a, ha⟩ := Option.isSome_iff_exists.mp harg
  simp only [decodeWord, hrow, ha, hilen, hlen, if_true]

/-- A word that names no command fails one of the three checks that come before the payload's (R97). -/
theorem decodeWord_of_not_namesCommand {w : BitVec 64} (tail : Bytes) (hw : ¬ NamesCommand w) :
    ∃ e, decodeWord w tail = .bad e ∧ decodeFatal e = .illegal ∧ decodeErrorUnit e = wordUnit w ∧
      decodeErrorOp e = wordOp w := by
  rw [namesCommand_iff] at hw
  cases hrow : row (wordUnit w) (wordOp w) with
  | none => exact ⟨.illegalOp (wordUnit w) (wordOp w), by simp only [decodeWord, hrow], rfl, rfl, rfl⟩
  | some r =>
    cases harg : argOperands r.arg (wordArg w) with
    | none => exact ⟨.illegalArg (wordUnit w) (wordOp w), by simp only [decodeWord, hrow, harg], rfl, rfl, rfl⟩
    | some a =>
      have hlen : ¬ ilenLegal r.len (wordIlen w).toNat = true := fun hlen => hw ⟨r, hrow, by rw [harg]; rfl, hlen⟩
      exact ⟨.illegalLen (wordUnit w) (wordOp w), by simp only [decodeWord, hrow, harg, if_neg hlen], rfl, rfl, rfl⟩

/-- Settles O4: the four parts are the length of the table, `selectsRow_unique`, and what a word decodes to when it
names a command and when it names none. -/
theorem opcodeMapDecidesWhichWordsAreLegal : Obligations.OpcodeMapDecidesWhichWordsAreLegal := by
  refine ⟨rfl, fun w r hr q hq => selectsRow_unique hr hq, fun w tail => decodeWord_of_namesCommand,
    fun w tail hw => ?_⟩
  obtain ⟨e, hdecode, hfatal, hunit, hop⟩ := decodeWord_of_not_namesCommand tail hw
  exact ⟨e, hdecode, by rw [hfatal]; rfl, hunit, hop⟩

end Sys2Proof
end

section
/-! The fetch rule (30_encoding.md R97, R100): a step by what the bytes at `cp` decode to. -/

namespace Sys2Proof.Machine

/-- A rejected packet halts the engine with its class-1 error (R97, 60_exceptions.md R326). -/
theorem step_of_decode_bad {s : State} {e : DecodeError} (hrun : s.run = .running) (hcp : s.cp.toNat ≠ s.cs.length)
    (h : decode (s.cs.drop s.cp.toNat) = .bad e) :
    step s = .next (s.haltedBy (decodeErrorUnit e) (decodeErrorOp e) (decodeFatal e).code) := by
  have hfetch : fetch s = .rejected e := by rw [fetch, if_neg hcp, fetchBytes, h]
  rw [step_of_running hrun, hfetch]
  simp only [rejectPacket, raiseFatal_eq]

/-- Settles O5: the fetch finds the command (`fetch_of_decode`). -/
theorem stepRunsTheDecodedCommand : Obligations.StepRunsTheDecodedCommand := by
  intro s i rest hrun hdecode
  rw [step_of_running hrun, fetch_of_decode hdecode]

/-- Settles O7: both are cases of `step`. -/
theorem stoppedEngineMakesNoStep : Obligations.StoppedEngineMakesNoStep :=
  fun s => ⟨fun hdone => by rw [step, hdone], fun hhalted => by rw [step, hhalted]⟩

theorem decode_of_eight_le {b : Bytes} (h : 8 ≤ b.length) :
    decode b = decodeWord (BitVec.ofNat 64 (beNat (b.take 8))) (b.drop 8) := by
  rw [decode, if_neg (by omega)]

/-- Settles O6: whether the word names a command and how many bytes are left tell what the decoder answers, and that
decides the step. -/
theorem fetchRule : Obligations.FetchRule := by
  intro s hrun b w
  refine ⟨fun hend => ?_, fun hmore => ⟨fun hshort => ?_, fun h8 hw => ?_, fun h8 hw hlen => ?_, fun h8 hw hlen => ?_⟩⟩
  · rw [step_of_running hrun, fetch_eq_endOfStream.mpr hend]; rfl
  · have hbad : decode b = .bad .truncWord := by rw [decode, if_pos hshort]
    exact step_of_decode_bad hrun hmore.ne hbad
  · obtain ⟨e, hbad, hfatal, hunit, hop⟩ := decodeWord_of_not_namesCommand (b.drop 8) hw
    rw [← decode_of_eight_le h8] at hbad
    rw [step_of_decode_bad hrun hmore.ne hbad, hfatal, hunit, hop]
    rfl
  · have hbad := decodeWord_of_short_payload (tail := b.drop 8) hw (by rwa [List.length_drop])
    rw [← decode_of_eight_le h8] at hbad
    exact step_of_decode_bad hrun hmore.ne hbad
  · obtain ⟨i, hok⟩ := decodeWord_of_namesCommand (tail := b.drop 8) hw (by rwa [List.length_drop])
    rw [← decode_of_eight_le h8, List.drop_drop] at hok
    exact ⟨i, hok, stepRunsTheDecodedCommand s i _ hrun hok⟩

end Sys2Proof.Machine
end

section
/-! The output of a command (30_encoding.md R96): no command answers more bytes than its `OCAP`. -/

namespace Sys2Proof.Machine

open Sys2Proof.Config

/-! ## Shared result forms -/

theorem blockFrame_out_le {k : Kind} {order : CtrOrder} {m : ModeCtx} {put : ModeCtx → State} {d out : Bytes}
    {o : BitVec 24} {u : State} (h : blockFrame k order m put d o = .ok u out) : out.length ≤ o.toNat := by
  obtain ⟨hd, ho, -, m', hstep, -⟩ := blockFrame_ok h
  rwa [blockStep_length hstep (List.length_take_of_le hd)]

/-- `ctrBytes_length` for the byte step of CFB and OFB (R180). -/
theorem length_of_some_fbBytes {k : Kind} {m m' : ModeCtx} {d out : Bytes}
    (h : some (fbBytes k m d) = some (m', out)) : out.length = d.length := by
  obtain rfl : _ = out := congrArg Prod.snd (Option.some.inj h)
  exact fbBytes_length k m d

/-- The data path of a `BYTES` command answers as many bytes as it is given. -/
theorem bytesFrame_out_le {m : ModeCtx} {put : ModeCtx → State} {r : Option (ModeCtx × Bytes)} {d out : Bytes}
    {o : BitVec 24} {u : State} (h : bytesFrame m put r d o = .ok u out)
    (hr : ∀ m' out, r = some (m', out) → out.length = d.length) : out.length ≤ o.toNat := by
  obtain ⟨ho, -, m', hout, -⟩ := bytesFrame_ok h
  rwa [hr m' out hout]

/-- An output `x` behind a check of `OCAP` against its length. -/
theorem checked_out_le {p : Prop} [Decidable p] {o : BitVec 24} {f : FatalCode} {s u : State} {x out : Bytes}
    (hp : ¬ p → x.length ≤ o.toNat)
    (h : (if p then CmdResult.fatal f else .ok s x) = .ok u out) : out.length ≤ o.toNat := by
  split at h <;> cases h
  exact hp ‹_›

/-! ## GCM (R233, R236, R237) -/

/-- A byte of plaintext is answered or buffered, and answers come in whole blocks. -/
theorem encByte_length (g : Gcm) (b : Byte) :
    (encByte g b).2.length + (encByte g b).1.pbuf.length = g.pbuf.length + 1 ∧ 16 ∣ (encByte g b).2.length := by
  unfold encByte
  split
  · rename_i hfull
    simp only [bs, List.length_append, List.length_singleton] at hfull
    simp [encBlock, ctrXor, hfull]
  · simp

theorem bytesEnc_length (g : Gcm) (d : Bytes) :
    (bytesEnc g d).2.length + (bytesEnc g d).1.pbuf.length = g.pbuf.length + d.length ∧
      16 ∣ (bytesEnc g d).2.length := by
  induction d generalizing g with
  | nil => simp [bytesEnc]
  | cons b d ih =>
    obtain ⟨hbyte, hblocks⟩ := encByte_length g b
    obtain ⟨hrest, hblocks'⟩ := ih (encByte g b).1
    simp only [bytesEnc, List.length_append, List.length_cons]
    exact ⟨by omega, dvd_add hblocks hblocks'⟩

theorem gcmBytesResult_out_le {d : Bytes} {o : BitVec 24} {s u : State} {out : Bytes}
    (h : gcmBytesResult d o s = .ok u out) : out.length ≤ o.toNat := by
  obtain ⟨-, hcap, hempty, hdata⟩ := gcmBytesResult_ok h
  by_cases hd : d = []
  · rw [(hempty hd).2]; exact Nat.zero_le _
  · obtain ⟨-, henc, hdec⟩ := hdata hd
    cases hdir : s.g.dir with
    | true =>
      obtain ⟨hlength, hblocks⟩ := bytesEnc_length (startCipher s.g) d
      rw [← (henc hdir).2, startCipher_pbuf] at hlength
      rw [← (henc hdir).2] at hblocks
      have hcap := hcap hdir
      omega
    | false => rw [(hdec hdir).2.2]; exact Nat.zero_le _

theorem gcmTag_length_le (g : Gcm) (s : Block) (a c : Nat) : (gcmTag g s a c).length ≤ g.macb :=
  List.length_take_le _ _

theorem finalPartial_length_le (g : Gcm) : (finalPartial g).2.length ≤ g.pbuf.length := by
  unfold finalPartial
  split
  · simp [encBlock, ctrXor]
  · exact Nat.zero_le _

theorem finalPartial_macb (g : Gcm) : (finalPartial g).1.macb = g.macb := by
  unfold finalPartial; split <;> rfl

theorem gcmFinalEnc_out_le {o : BitVec 24} {s u : State} {out : Bytes} (h : gcmFinalEnc o s = .ok u out) :
    out.length ≤ o.toNat := by
  unfold gcmFinalEnc at h
  split at h
  · cases h
  · cases h
    have hpart := finalPartial_length_le (startCipher s.g)
    have htag := gcmTag_length_le (finalPartial (startCipher s.g)).1 (finalPartial (startCipher s.g)).1.s
      (finalPartial (startCipher s.g)).1.atlen.toNat (finalPartial (startCipher s.g)).1.totlen.toNat
    rw [finalPartial_macb, startCipher_macb] at htag
    rw [startCipher_pbuf] at hpart
    rw [List.length_append]
    omega

/-- Decryption answers at most the bytes of the blocks it is given. -/
theorem decBlocks_length_le (key : Bytes) (c : Block) (xs : List Bytes) :
    (decBlocks key c xs).length ≤ xs.flatten.length := by
  induction xs generalizing c with
  | nil => exact le_rfl
  | cons x xs ih =>
    have hrest := ih (inc32 c)
    simp only [decBlocks, ctrXor, List.flatten_cons, List.length_append, xorBytes_length]
    omega

theorem gcmFinalDec_out_le {o : BitVec 24} {s u : State} {out : Bytes} (h : gcmFinalDec o s = .ok u out) :
    out.length ≤ o.toNat := by
  unfold gcmFinalDec at h
  simp only at h
  split at h
  · cases h
  split at h
  · cases h
  rename_i hcap
  split at h
  · cases h
  · cases h
    have hle := decBlocks_length_le (startCipher s.g).key (startCipher s.g).j0
      (blocksOf bs ((startCipher s.g).dbuf.take ((startCipher s.g).dbuf.length - (startCipher s.g).macb)))
    rw [blocksOf_flatten (by decide), List.length_take] at hle
    omega

theorem gcmFinalResult_out_le {o : BitVec 24} {s u : State} {out : Bytes} (h : gcmFinalResult o s = .ok u out) :
    out.length ≤ o.toNat := by
  unfold gcmFinalResult at h
  split at h
  · cases h
  split at h
  · exact gcmFinalEnc_out_le h
  · exact gcmFinalDec_out_le h

/-! ## BPC (R264, R266, R267) -/

/-- The output is the bytes that leave the buffer, a whole number of blocks. -/
theorem bpcBytesReady_out_le {k : Kind} {d : Bytes} {o : BitVec 24} {s u : State} {out : Bytes} (hb : s.b.Live k)
    (h : bpcBytesReady k d o s = .ok u out) : out.length ≤ o.toNat := by
  unfold bpcBytesReady at h
  simp only at h
  split at h
  · cases h
  rename_i hcap
  obtain ⟨m, hrun, -⟩ := dataResult_ok h
  have hpos : 0 < mbs k s.b.m := mbs_pos hb.ctx
  obtain ⟨-, -, hwhole, -⟩ := bpcKeep_spec (total := s.b.buf.length + d.length) hpos
  have hlength : ((s.b.buf ++ d).take (s.b.buf.length + d.length -
      bpcKeep (mbs k s.b.m) (s.b.buf.length + d.length))).length =
      s.b.buf.length + d.length - bpcKeep (mbs k s.b.m) (s.b.buf.length + d.length) := by
    rw [List.length_take, List.length_append, min_eq_left (Nat.sub_le _ _)]
  rw [← hlength] at hwhole
  rw [(blockSteps_length hrun fun x hx => length_of_mem_blocksOf hpos hwhole hx).1, blocksOf_length_mul hpos hwhole,
    hlength]
  omega

/-- The padded tail is one block of output, and a full buffer another one. -/
theorem bpcFinalEnc_out_le {k : Kind} {o : BitVec 24} {s u : State} {out : Bytes} (hb : s.b.Live k)
    (h : bpcFinalEnc k o s = .ok u out) : out.length ≤ o.toNat := by
  by_cases hfull : s.b.buf.length = mbs k s.b.m
  · simp only [bpcFinalEnc, hfull, if_true] at h
    split at h
    · cases h
    rename_i hcap
    obtain ⟨m, hrun, -⟩ := dataResult_ok h
    have hpadded := padAdd_tail_length (size := mbs k s.b.m) (tail := []) (Nat.zero_le _)
    rw [(blockSteps_length hrun (List.forall_mem_cons.mpr ⟨hfull, List.forall_mem_singleton.mpr hpadded⟩)).1]
    simpa using hcap
  · simp only [bpcFinalEnc, hfull, if_false] at h
    split at h
    · cases h
    rename_i hcap
    obtain ⟨m, hrun, -⟩ := dataResult_ok h
    rw [(blockSteps_length hrun (List.forall_mem_singleton.mpr (padAdd_tail_length hb.buf))).1]
    simpa using hcap

theorem bpcFinalDec_out_le {k : Kind} {o : BitVec 24} {s u : State} {out : Bytes}
    (h : bpcFinalDec k o s = .ok u out) : out.length ≤ o.toNat := by
  unfold bpcFinalDec at h
  simp only at h
  split at h
  · cases h
  split at h
  · cases h
  split at h
  · cases h
  split at h
  · cases h
  · rename_i hcap
    cases h
    exact (List.length_take_le _ _).trans (not_lt.mp hcap)

theorem bpcFinalReady_out_le {k : Kind} {o : BitVec 24} {s u : State} {out : Bytes} (hb : s.b.Live k)
    (h : bpcFinalReady k o s = .ok u out) : out.length ≤ o.toNat := by
  unfold bpcFinalReady at h
  split at h
  · exact bpcFinalEnc_out_le hb h
  · exact bpcFinalDec_out_le h

/-! ## HMAC and KMAC (R285, R305) -/

theorem hmacMac_length (hm : Hmac) : (hmacMac hm).length = digestSize := by
  simp [hmacMac, digestOf]

theorem kmacMac_length_le (km : Kmac) : (kmacMac km).length ≤ km.macbits.bytes :=
  List.length_take_le _ _

theorem hmacFinalResult_out_le {o : BitVec 24} {s u : State} {out : Bytes} (h : hmacFinalResult o s = .ok u out) :
    out.length ≤ o.toNat := by
  unfold hmacFinalResult at h
  split at h
  · cases h
  split at h
  · cases h
  · cases h
    rw [hmacMac_length]
    omega

theorem kmacFinalResult_out_le {o : BitVec 24} {s u : State} {out : Bytes} (h : kmacFinalResult o s = .ok u out) :
    out.length ≤ o.toNat := by
  unfold kmacFinalResult at h
  split at h
  · cases h
  split at h
  · cases h
  · cases h
    have hle := kmacMac_length_le s.km
    omega

/-! ## Every command -/

/-- A rule that ends in `return OK` has checked its output against `OCAP`. -/
theorem resultOf_out_le {i : Instr} {s u : State} {out : Bytes} {o : BitVec 24} (hs : s.b.Inv) (hi : ocapOf i = some o)
    (h : resultOf i s = .ok u out) : out.length ≤ o.toNat := by
  cases i with
  | sysStatus ocap => cases hi; exact checked_out_le (fun hcap => by simpa [statusBytes] using hcap) h
  | gfXor d ocap | gfMul d ocap | gfGhash d ocap =>
    cases hi
    exact checked_out_le (fun hcap => by rw [bytesOfBlock_length]; omega) h
  | ecbBlock d ocap | cbcBlock d ocap | cfbBlock d ocap | ofbBlock d ocap | ctrBlock d ocap =>
    cases hi; exact blockFrame_out_le h
  | cfbBytes d ocap | ofbBytes d ocap =>
    cases hi
    exact bytesFrame_out_le h fun _ _ => length_of_some_fbBytes
  | ctrBytes d ocap => cases hi; exact bytesFrame_out_le h fun _ _ => ctrBytes_length
  | gcmBytes d ocap => cases hi; exact gcmBytesResult_out_le h
  | gcmFinal ocap => cases hi; exact gcmFinalResult_out_le h
  | gcmOsize len ocap =>
    cases hi
    simp only [resultOf] at h
    split at h
    · cases h
    split at h <;> cases h
    rw [beBytes_length]; omega
  | bpcBytes d ocap =>
    cases hi
    obtain ⟨k, hmode, hin, -, hok⟩ := whenReady_ok h
    exact bpcBytesReady_out_le (Bpc.live_iff.mpr ⟨hs, hmode, hin⟩) hok
  | bpcFinal ocap =>
    cases hi
    obtain ⟨k, hmode, hin, -, hok⟩ := whenReady_ok h
    exact bpcFinalReady_out_le (Bpc.live_iff.mpr ⟨hs, hmode, hin⟩) hok
  | bpcOsize len ocap =>
    cases hi
    simp only [resultOf] at h
    split at h
    · cases h
    obtain ⟨k, -, -, -, hok⟩ := whenReady_ok h
    cases hok
    rw [beBytes_length]; omega
  | hmacFinal ocap => cases hi; exact hmacFinalResult_out_le h
  | kmacFinal ocap => cases hi; exact kmacFinalResult_out_le h
  | _ => cases hi

/-- Settles O11: the command answered `OK`, so its rule ended in `return OK` with that output (`answersOk_iff`). -/
theorem outputFitsTheCallersBuffer : Obligations.OutputFitsTheCallersBuffer := by
  intro i s t out o hs hi hanswer
  obtain ⟨u, hok, -⟩ := answersOk_iff.mp hanswer
  exact resultOf_out_le hs hi hok

end Sys2Proof.Machine
end

section
/-! Unit SYS (40_sys.md R121 to R130): the staging commands, and the flags that SYS.STATUS reads out. -/

namespace Sys2Proof.Machine

open Sys2Proof.Config

/-! ## Staging (R121 to R129) -/

/-- A loading command completes with its value in `P`, or answers `E_LIMIT` beyond a finite capacity (R122; D43). -/
theorem respond_stage (i : Instr) (s : State) (d : Bytes) (p : Staged) :
    respond i s (stage s d p) = .next
      (if fits s.params.capP d.length then (s.withP p).completed i.unit i.op i.ilen []
       else s.errored i.unit i.op i.ilen 0x17) := by
  unfold stage
  split
  · exact respond_ok i s (s.withP p) []
  · exact respond_err i s .limit

/-- Settles O13: the three loading commands end as `stage` does (`respond_stage`), the others in one `return OK`. -/
theorem stagingCommandsSetOneParameter : Obligations.StagingCommandsSetOneParameter := fun d m s =>
  ⟨respond_ok .sysNop s s [],
    respond_stage (.sysLdkey d) s d { s.p with key := d, keyv := true },
    respond_ok .sysClrkey s (s.withP { s.p with key := [], keyv := false }) [],
    respond_stage (.sysLdiv d) s d { s.p with iv := d, ivv := true },
    respond_ok .sysClriv s (s.withP { s.p with iv := [], ivv := false }) [],
    respond_stage (.sysLdaad d) s d { s.p with aad := d, aadv := true },
    respond_ok .sysClraad s (s.withP { s.p with aad := [], aadv := false }) [],
    respond_ok (.sysLdmac m) s (s.withP { s.p with mac := m, macv := true }) [],
    respond_ok .sysClrmac s (s.withP { s.p with mac := 0, macv := false }) []⟩

/-! ## The flags (R130) -/

/-- The `INITED` bit of the unit with number `u`; SYS, GF and the numbers without a unit have none (R130). -/
def unitInited (s : State) : Nat → Bool
  | 2 => s.ecb.inited
  | 3 => s.cbc.inited
  | 4 => s.cfb.inited
  | 5 => s.ofb.inited
  | 6 => s.ctr.inited
  | 7 => s.g.inited
  | 8 => s.b.inited
  | 9 => s.hm.inited
  | 10 => s.km.inited
  | _ => false

theorem unitInited_of_eleven_le (s : State) {u : Nat} (hu : 11 ≤ u) : unitInited s u = false := by
  obtain ⟨k, rfl⟩ := Nat.exists_eq_add_of_le' hu
  rfl

/-- Bit `u` of the bitmap is the flag of unit `u`: the nine flags stand in unit order above the two zero bits of SYS and
GF and below five zero bits. -/
theorem initedMap_getLsbD (s : State) (u : Nat) : (initedMap s).getLsbD u = unitInited s u := by
  simp only [initedMap, BitVec.getLsbD_append, BitVec.getLsbD_ofBool, BitVec.ofNat_eq_ofNat, BitVec.getLsbD_zero]
  by_cases hu : u < 11
  · interval_cases u <;> simp [unitInited]
  · rw [unitInited_of_eleven_le s (not_lt.mp hu)]
    repeat rw [if_neg (by omega)]

/-- Settles O14: the bitmap is `initedMap` (`initedMap_getLsbD`). -/
theorem statusReadsTheFlags : Obligations.StatusReadsTheFlags := by
  intro o s
  have hexec : exec (.sysStatus o) s = respond (.sysStatus o) s (resultOf (.sysStatus o) s) := exec_eq_respond _ s
  refine ⟨fun hcap => ?_, fun hcap => ?_⟩
  · rw [hexec, resultOf, if_pos hcap]
    exact respond_fatal (.sysStatus o) s .bufLen
  · have hbit := initedMap_getLsbD s
    refine ⟨initedMap s, hbit 0, hbit 1, hbit 2, hbit 3, hbit 4, hbit 5, hbit 6, hbit 7, hbit 8, hbit 9, hbit 10,
      fun j hj => (hbit j).trans (unitInited_of_eleven_le s hj), ?_⟩
    rw [hexec, resultOf, if_neg (not_lt.mpr hcap)]
    exact respond_ok (.sysStatus o) s s (statusBytes s)

end Sys2Proof.Machine
end

section
/-! The field (41_gf128.md R140 to R144): a block, its bits in reverse order, is a number of Laws/Field.lean, and the
multiplier is the multiplier there. So distinct blocks are distinct elements of GF(2)[x] modulo the polynomial of R141,
and every law of R144 is a law of that ring. -/

namespace Sys2Proof.GcmField

open Polynomial

theorem gcmPoly_eq : gcmPoly = X ^ 128 + X ^ 7 + X ^ 2 + X + 1 := by unfold gcmPoly; rfl

@[simp] theorem ev_zero {R : Type*} [CommRing R] (α : R) : ev α 0 = 0 := by simp [ev]

@[simp] theorem ev_one {R : Type*} [CommRing R] (α : R) : ev α 1 = 1 := by simpa using ev_two_pow α 0

theorem map_ev {R S : Type*} [CommRing R] [CommRing S] (f : R →+* S) (α : R) (n : Nat) :
    f (ev α n) = ev (f α) n := by
  simp only [ev, map_sum, apply_ite f, map_pow, map_zero]

/-! ## Distinct numbers are distinct residues -/

theorem ev_X_coeff (n i : Nat) : (ev (X : (ZMod 2)[X]) n).coeff i = if i < 128 ∧ n.testBit i then 1 else 0 := by
  simp only [ev, finsetSum_coeff, apply_ite (coeff · i), coeff_X_pow, coeff_zero, ← ite_and, and_comm (b := i = _)]
  simp only [ite_and, Finset.sum_ite_eq, Finset.mem_range]

theorem ev_X_degree_lt (n : Nat) : (ev (X : (ZMod 2)[X]) n).degree < 128 := by
  refine (degree_lt_iff_coeff_zero _ 128).mpr fun i hi => ?_
  rw [ev_X_coeff, if_neg (by omega)]

theorem ev_X_inj {m n : Nat} (hm : m < 2 ^ 128) (hn : n < 2 ^ 128) (h : ev (X : (ZMod 2)[X]) m = ev X n) : m = n := by
  refine Nat.eq_of_testBit_eq fun i => ?_
  by_cases hi : i < 128
  · have hcoeff := congrArg (coeff · i) h
    simp only [ev_X_coeff, hi, true_and] at hcoeff
    by_cases hbit : n.testBit i <;> simpa [hbit] using hcoeff
  · have hpow : 2 ^ 128 ≤ 2 ^ i := Nat.pow_le_pow_right (by decide) (not_lt.mp hi)
    rw [Nat.testBit_lt_two_pow (hm.trans_le hpow), Nat.testBit_lt_two_pow (hn.trans_le hpow)]

/-- Polynomials below degree 128 that agree modulo the polynomial of R141 are equal. -/
theorem eq_of_mk_eq_mk {p q : (ZMod 2)[X]} (hp : p.degree < 128) (hq : q.degree < 128)
    (h : AdjoinRoot.mk gcmPoly p = AdjoinRoot.mk gcmPoly q) : p = q := by
  refine sub_eq_zero.mp (eq_zero_of_dvd_of_degree_lt (AdjoinRoot.mk_eq_mk.mp h) ?_)
  rw [degree_eq_natDegree gcmPoly_monic.ne_zero, gcmPoly_natDegree]
  exact (degree_sub_le p q).trans_lt (max_lt hp hq)

/-! ## The ring of residues -/

theorem charP_residues : CharP (AdjoinRoot gcmPoly) 2 :=
  have : Fact (Irreducible gcmPoly) := ⟨gcmPoly_irreducible⟩
  charP_of_injective_algebraMap (algebraMap (ZMod 2) (AdjoinRoot gcmPoly)).injective 2

theorem root_pow_128 :
    AdjoinRoot.root gcmPoly ^ 128 =
      AdjoinRoot.root gcmPoly ^ 7 + AdjoinRoot.root gcmPoly ^ 2 + AdjoinRoot.root gcmPoly + 1 := by
  have := charP_residues
  refine eq_of_sum_eq_zero _ ?_
  have hself : AdjoinRoot.mk gcmPoly (X ^ 128 + X ^ 7 + X ^ 2 + X + 1) = 0 := by
    rw [← gcmPoly_eq, AdjoinRoot.mk_self]
  simpa only [map_add, map_pow, map_one, AdjoinRoot.mk_X] using hself

end Sys2Proof.GcmField

namespace Sys2Proof.Machine

open Sys2Proof.GcmField

/-! ## Blocks as numbers -/

/-- Bit `i` is bit `7 - i % 8` of byte `i / 8` (R140). -/
theorem fieldBit_eq_getLsbD (a : Block) {i : Nat} (hi : i < 128) :
    fieldBit a i = a.getLsbD (8 * (15 - i / 8) + (7 - i % 8)) := by
  have hindex : 128 - 1 - i = 8 * (15 - i / 8) + (7 - i % 8) := by omega
  rw [fieldBit, BitVec.getMsbD_eq_getLsbD, decide_eq_true hi, Bool.true_and, hindex]

/-- The number of Laws/Field.lean with the coefficients of a block: the bits in reverse order (R140). -/
def coeffs (a : Block) : Nat := a.reverse.toNat

theorem coeffs_lt (a : Block) : coeffs a < 2 ^ 128 := a.reverse.isLt

@[simp] theorem coeffs_testBit (a : Block) (i : Nat) : (coeffs a).testBit i = fieldBit a i := by
  rw [coeffs, BitVec.testBit_toNat, BitVec.getLsbD_reverse, fieldBit]

theorem coeffs_inj {a b : Block} (h : coeffs a = coeffs b) : a = b :=
  BitVec.eq_of_getMsbD_eq fun i _ => by
    have hbit := congrArg (Nat.testBit · i) h
    simpa only [coeffs_testBit, fieldBit] using hbit

theorem coeffs_xor (a b : Block) : coeffs (a ^^^ b) = coeffs a ^^^ coeffs b :=
  Nat.eq_of_testBit_eq fun i => by
    simp only [Nat.testBit_xor, coeffs_testBit, fieldBit, BitVec.getMsbD_xor]

@[simp] theorem coeffs_zero : coeffs 0 = 0 := by decide +kernel

/-- Shifting a block moves each coefficient up by one power of `x`; the one of `x^127` is lost. -/
theorem coeffs_shift_xor (v : Block) :
    coeffs (v >>> 1) ^^^ (if fieldBit v 127 then 2 ^ 128 else 0) = coeffs v <<< 1 :=
  Nat.eq_of_testBit_eq fun i => by
    have hlost : (if fieldBit v 127 then 2 ^ 128 else 0).testBit i = (fieldBit v 127 && decide (128 = i)) := by
      cases fieldBit v 127 with
      | false => simp
      | true => rw [if_pos rfl, Nat.testBit_two_pow, Bool.true_and]
    rw [Nat.testBit_xor, Nat.testBit_shiftLeft, hlost, coeffs_testBit, coeffs_testBit, fieldBit, fieldBit, fieldBit,
      BitVec.getMsbD_ushiftRight]
    rcases lt_trichotomy i 128 with hi | rfl | hi
    · rcases i with _ | i
      · simp
      · simp [hi, hi.ne']
    · simp
    · have hbeyond : v.getMsbD (i - 1) = false := BitVec.getMsbD_of_ge v _ (by omega)
      simp [hi.ne, hi.not_gt, hbeyond]

/-- The shift of the multiplier is the product by `x`. -/
theorem coeffs_gfShift (v : Block) : coeffs (gfShift v) = timesX (coeffs v) := by
  have hshift := coeffs_shift_xor v
  have hred : coeffs reductionConstant = 2 ^ 128 ^^^ modulus := by decide +kernel
  unfold gfShift timesX
  rw [coeffs_testBit, ← hshift]
  split
  · rw [coeffs_xor, hred, Nat.xor_assoc]
  · rw [Nat.xor_zero]

/-- The loop of the multiplier after `k` turns. -/
theorem coeffs_gfMulTurns (x y : Block) (k : Nat) :
    coeffs ((List.range k).foldl (gfMulTurn x) (0, y)).1 = (mulSteps (coeffs x) (coeffs y) k).1 ∧
    coeffs ((List.range k).foldl (gfMulTurn x) (0, y)).2 = (mulSteps (coeffs x) (coeffs y) k).2 := by
  induction k with
  | zero => exact ⟨coeffs_zero, rfl⟩
  | succ k ih =>
    obtain ⟨hz, hv⟩ := ih
    rw [List.range_succ, List.foldl_append, List.foldl_cons, List.foldl_nil, gfMulTurn, mulSteps]
    refine ⟨?_, by rw [coeffs_gfShift, hv]⟩
    rw [coeffs_testBit, apply_ite coeffs, coeffs_xor, hz, hv]

theorem coeffs_gfMul (x y : Block) : coeffs (gfMul x y) = mul (coeffs x) (coeffs y) :=
  (coeffs_gfMulTurns x y 128).1

/-! ## Blocks as residues -/

/-- The element of the field that a block is (R140, R141). -/
noncomputable def toField (a : Block) : AdjoinRoot gcmPoly := ev (AdjoinRoot.root gcmPoly) (coeffs a)

theorem mk_ev_coeffs (a : Block) : AdjoinRoot.mk gcmPoly (ev Polynomial.X (coeffs a)) = toField a := by
  rw [map_ev, AdjoinRoot.mk_X, toField]

theorem toField_inj {a b : Block} (h : toField a = toField b) : a = b := by
  rw [← mk_ev_coeffs, ← mk_ev_coeffs] at h
  have hpoly := eq_of_mk_eq_mk (ev_X_degree_lt _) (ev_X_degree_lt _) h
  exact coeffs_inj (ev_X_inj (coeffs_lt a) (coeffs_lt b) hpoly)

@[simp] theorem toField_zero : toField 0 = 0 := by rw [toField, coeffs_zero, ev_zero]

/-- The block 80 00..00 is the one of the field (R144). -/
@[simp] theorem toField_one : toField 0x80000000000000000000000000000000 = 1 := by
  have hone : coeffs 0x80000000000000000000000000000000 = 1 := by decide +kernel
  rw [toField, hone, ev_one]

@[simp] theorem toField_xor (a b : Block) : toField (a ^^^ b) = toField a + toField b := by
  have := charP_residues
  rw [toField, coeffs_xor, ev_xor]; rfl

/-- The multiplier is the product of the field. -/
@[simp] theorem toField_gfMul (a b : Block) : toField (gfMul a b) = toField a * toField b := by
  have := charP_residues
  rw [toField, coeffs_gfMul, ev_mul root_pow_128]; rfl

/-- Settles O16: both sides are the same residue (`toField_gfMul`), the polynomials being those of `coeffs`. -/
theorem multiplierIsThePolynomialProduct : Obligations.MultiplierIsThePolynomialProduct := by
  unfold Obligations.MultiplierIsThePolynomialProduct
  intro poly x y
  have hpoly : ∀ a, poly a = ev Polynomial.X (coeffs a) := fun a =>
    Finset.sum_congr rfl fun i hi => by rw [coeffs_testBit, fieldBit_eq_getLsbD a (Finset.mem_range.mp hi)]
  rw [← gcmPoly_eq, ← AdjoinRoot.mk_eq_mk, map_mul, hpoly, hpoly, hpoly, mk_ev_coeffs, mk_ev_coeffs, mk_ev_coeffs]
  exact toField_gfMul x y

theorem gfMul_comm (x y : Block) : gfMul x y = gfMul y x :=
  toField_inj (by rw [toField_gfMul, toField_gfMul, mul_comm])

theorem gfMul_assoc (x y w : Block) : gfMul (gfMul x y) w = gfMul x (gfMul y w) :=
  toField_inj (by simp only [toField_gfMul, mul_assoc])

theorem gfMul_xor (x x' y : Block) : gfMul (x ^^^ x') y = gfMul x y ^^^ gfMul x' y :=
  toField_inj (by simp only [toField_gfMul, toField_xor, add_mul])

theorem gfMul_one_left (y : Block) : gfMul 0x80000000000000000000000000000000 y = y :=
  toField_inj (by rw [toField_gfMul, toField_one, one_mul])

theorem gfMul_zero_left (y : Block) : gfMul 0 y = 0 :=
  toField_inj (by rw [toField_gfMul, toField_zero, zero_mul])

/-- Settles O17: the laws are those of the ring of residues, the spot values are computed. -/
theorem multiplierLaws : Obligations.MultiplierLaws :=
  ⟨gfMul_comm, gfMul_one_left, gfMul_zero_left, gfMul_xor, gfMul_assoc, by decide +kernel⟩

end Sys2Proof.Machine
end

section
/-! GHASH (41_gf128.md R145, R146) and the three commands of unit GF (R147 to R149). -/

namespace Sys2Proof.Machine

open Sys2Proof.Config

/-! ## GHASH -/

@[simp] theorem ghash_nil (y h : Block) : ghash y [] h = y := by rw [ghash, blocksOf_nil, List.foldl_nil]

/-- A sequence of at most one block is hashed as one block, filled on the right with zero bytes. -/
theorem ghash_of_length_le {b : Bytes} (hpos : 1 ≤ b.length) (hle : b.length ≤ 16) (y h : Block) :
    ghash y b h = ghashBlock y (blockOfBytes b) h := by
  have hne : b ≠ [] := List.ne_nil_of_length_pos hpos
  rw [ghash, bs, blocksOf_eq_cons (by decide) hne, List.take_of_length_le hle, List.drop_of_length_le hle, blocksOf_nil,
    List.foldl_cons, List.foldl_nil]

theorem ghash_append {a : Bytes} (ha : a.length % 16 = 0) (y : Block) (b : Bytes) (h : Block) :
    ghash y (a ++ b) h = ghash (ghash y a h) b h := by
  rw [ghash, bs, blocksOf_append (by decide) a b ha, List.foldl_append]; rfl

/-- Settles O18: the zero bytes that fill a block do not change it (`blockOfBytes_append_zeros`). -/
theorem ghashFoldsOneBlockAtATime : Obligations.GhashFoldsOneBlockAtATime :=
  ⟨fun _ _ _ => rfl, ghash_nil,
    fun y b h hpos hle => by rw [blockOfBytes_append_zeros, ghash_of_length_le hpos hle],
    fun y _ b h ha => ghash_append ha y b h⟩

/-! ## The commands -/

/-- A command that only checks its lengths and answers `out` writes nothing but its response. -/
theorem respond_checked (i : Instr) (s : State) (p : Prop) [Decidable p] (out : Bytes) :
    respond i s (if p then .fatal .bufLen else .ok s out) =
      .next (if p then s.haltedBy i.unit i.op 0x82 else s.completed i.unit i.op i.ilen out) := by
  split
  · exact respond_fatal i s .bufLen
  · exact respond_ok i s s out

/-- In a 32-byte payload nothing follows the second block operand (R147, R148). -/
theorem operandBlock2_of_length {d : Bytes} (hd : d.length = 32) : operandBlock2 d = blockOfBytes (d.drop 16) := by
  rw [operandBlock2, bs, List.take_of_length_le (by rw [List.length_drop, hd])]

theorem bytesOfBlock_gfXor_operands {d : Bytes} (hd : d.length = 32) :
    bytesOfBlock (gfXor (operandBlock d) (operandBlock2 d)) = xorBytes (d.take 16) (d.drop 16) := by
  rw [gfXor, bytesOfBlock_xor, operandBlock2_of_length hd, operandBlock, bs,
    bytesOfBlock_blockOfBytes (by rw [List.length_take, hd]; rfl),
    bytesOfBlock_blockOfBytes (by rw [List.length_drop, hd])]

/-- Settles O15: each command ends as `respond_checked` says, and in a 32-byte payload the second operand is
all that follows the first (`operandBlock2_of_length`). -/
theorem fieldCommandsAnswerTheFunctions : Obligations.FieldCommandsAnswerTheFunctions := by
  intro d o s
  have hlength (h : ¬ (d.length ≠ 32 ∨ o.toNat < 16)) : d.length = 32 := not_not.mp (not_or.mp h).1
  simp only [exec_eq_respond, resultOf, respond_checked]
  refine ⟨congrArg _ (ite_congr rfl (fun _ => rfl) fun hok => ?_),
    congrArg _ (ite_congr rfl (fun _ => rfl) fun hok => ?_), rfl⟩
  · have hilen : (Instr.gfXor d o).ilen = 32 := hlength hok
    rw [bytesOfBlock_gfXor_operands (hlength hok), hilen]; rfl
  · have hilen : (Instr.gfMul d o).ilen = 32 := hlength hok
    rw [operandBlock2_of_length (hlength hok), hilen]; rfl

end Sys2Proof.Machine
end

section
/-! RESET of the mode units (42_ecb_cbc.md R161, 44_ctr.md R202): what it restores. -/

namespace Sys2Proof.Machine

open Sys2Proof.Config

/-! ## The register that a reset leaves -/

/-- CBC, CFB and OFB take the latched IV back into the register (R161). -/
theorem modeReset_r_eq_iv {k : Kind} {m : ModeCtx} (hecb : k ≠ .ecb) (hctr : k ≠ .ctr) (hin : m.inited = true) :
    (modeReset k m).r = m.iv := by
  cases k with
  | ecb => exact absurd rfl hecb
  | ctr => exact absurd rfl hctr
  | cbc | cfb | ofb => simp only [modeReset, hin, if_true]

theorem modeReset_ctr_r {m : ModeCtx} (hin : m.inited = true) :
    (modeReset .ctr m).r = blockOfBytes ((bytesOfBlock m.iv).take m.n ++ (bytesOfBlock m.r).drop m.n) := by
  simp only [modeReset, hin, if_true]

/-- A reset restores the register of an initialised context and drops its keystream; before any INIT it changes
nothing. -/
theorem modeReset_eq_ite {k : Kind} {m : ModeCtx} {r : Block} (hr : m.inited = true → (modeReset k m).r = r) :
    modeReset k m = if m.inited then { m with r := r, cur := 0, ks := 0, fb := 0 } else m := by
  by_cases hin : m.inited = true
  · rw [if_pos hin, modeReset_of_inited k hin, hr hin]
  · rw [if_neg hin, modeReset_of_not_inited (by simpa using hin)]

/-- A RESET command of units 2 to 6, whose context ends with the register `r` if it was initialised. -/
theorem exec_reset {i : Instr} {s : State} {k : Kind} {m : ModeCtx} {put : ModeCtx → State} {r : Block}
    (hi : resultOf i s = .ok (put (modeReset k m)) []) (hr : m.inited = true → (modeReset k m).r = r) :
    exec i s = .next ((put (if m.inited then { m with r := r, cur := 0, ks := 0, fb := 0 } else m)).completed
      i.unit i.op i.ilen []) := by
  rw [exec_eq_respond, hi, respond_ok, modeReset_eq_ite hr]

/-- The bytes of a block spliced from two: the first `n` of the one, then the others of the other. -/
theorem blockByte_splice (a b : Block) (n : Nat) {j : Nat} (hj : j < 16) :
    blockByte (blockOfBytes ((bytesOfBlock a).take n ++ (bytesOfBlock b).drop n)) j =
      if j < n then blockByte a j else blockByte b j := by
  have hbyte (x : Block) : (bytesOfBlock x)[j]? = some (blockByte x j) := by
    rw [List.getElem?_eq_getElem (by simpa using hj), bytesOfBlock_getElem x hj]
  rw [blockByte_blockOfBytes _ hj, List.getD_eq_getElem?_getD]
  by_cases hn : j < n
  · rw [if_pos hn, List.getElem?_append_left (by simp; omega), List.getElem?_take_of_lt hn, hbyte]; rfl
  · have hlen : ((bytesOfBlock a).take n).length = n := by simp; omega
    rw [if_neg hn, List.getElem?_append_right (by omega), hlen, List.getElem?_drop, Nat.add_sub_cancel' (by omega),
      hbyte]
    rfl

/-- Settles O21, unit by unit (`exec_reset`); in counter mode the register is a splice of the nonce and the counter
(`blockByte_splice`). -/
theorem modeResetRestoresTheLatchedIv : Obligations.ModeResetRestoresTheLatchedIv := fun s =>
  ⟨exec_reset (put := s.withEcb) rfl fun _ => modeReset_ecb_r s.ecb,
    exec_reset (put := s.withCbc) rfl (modeReset_r_eq_iv nofun nofun),
    exec_reset (put := s.withCfb) rfl (modeReset_r_eq_iv nofun nofun),
    exec_reset (put := s.withOfb) rfl (modeReset_r_eq_iv nofun nofun),
    _, fun _ hj => blockByte_splice s.ctr.iv s.ctr.r s.ctr.n hj,
    exec_reset (put := s.withCtr) rfl modeReset_ctr_r⟩

end Sys2Proof.Machine
end

section
/-! INIT of the mode units (42_ecb_cbc.md R160, R164, R168, 43_cfb_ofb.md R182, R187, 44_ctr.md R206): `ModeInit` as
one chain of checks for each form of its parameters, and the context that it leaves. -/

namespace Sys2Proof.Machine

open Sys2Proof.Config

/-! ## The context that a completed INIT leaves (R160, step 4) -/

/-- A context initialised with direction `dir`, key `key` and IV `iv`, at a block boundary. -/
def ModeCtx.initedWith (m : ModeCtx) (dir : Bool) (key : Bytes) (iv : Block) : ModeCtx :=
  { m with keyed := true, key := key, dir := dir, inited := true, iv := iv, r := iv, cur := 0, ks := 0, fb := 0 }

/-- CBC, CFB and OFB: the key is the staged or the latched one, the IV is zero when none is taken. -/
theorem modeReset_modeCommit_of_iv {k : Kind} (hecb : k ≠ .ecb) (hctr : k ≠ .ctr) (dir haskey : Bool)
    (iv : Option Bytes) (p : Staged) (m : ModeCtx) (hkeyed : (haskey || m.keyed) = true) :
    modeReset k (modeCommit k dir haskey iv p m) =
      m.initedWith dir (if haskey then p.key else m.key) (blockOfBytes (iv.getD [])) := by
  rw [modeReset_of_inited k rfl, modeReset_r_eq_iv hecb hctr rfl]
  simp only [modeCommit, hkeyed, if_neg hecb, if_neg hctr, ModeCtx.initedWith]

/-- ECB has neither IV nor register to write. -/
theorem modeReset_modeCommit_ecb (dir : Bool) (p : Staged) (m : ModeCtx) :
    modeReset .ecb (modeCommit .ecb dir true none p m) =
      { m with keyed := true, key := p.key, dir := dir, inited := true, cur := 0, ks := 0, fb := 0 } := by
  rw [modeReset_of_inited .ecb rfl, modeReset_ecb_r]; rfl

/-- CTR writes the nonce over the leading bytes of the counter block (R202, R206). -/
theorem modeReset_modeCommit_ctr {nonce : Bytes} (hlen : nonce.length ≤ 16) (dir haskey : Bool) (p : Staged)
    (m : ModeCtx) (hkeyed : (haskey || m.keyed) = true) :
    modeReset .ctr (modeCommit .ctr dir haskey (some nonce) p m) =
      { m with keyed := true, key := if haskey then p.key else m.key, dir := dir, inited := true, n := nonce.length,
               iv := blockOfBytes (nonce ++ zeros (16 - nonce.length)),
               r := blockOfBytes (nonce ++ (bytesOfBlock m.r).drop nonce.length), cur := 0, ks := 0, fb := 0 } := by
  rw [modeReset_of_inited .ctr rfl, modeReset_ctr_r rfl, blockOfBytes_append_zeros]
  simp only [modeCommit, hkeyed, reduceCtorEq, if_true, if_false, Option.getD_some,
    take_bytesOfBlock_blockOfBytes nonce hlen]

/-! ## The checks of `ModeInit` (R160, steps 1 to 3) -/

/-- The forms of parameters that a kind refuses. -/
theorem modeInit_of_refused {k : Kind} {t : PType}
    (h : t = .aead ∨ t = .keyRandom ∨ (k = .ecb ∧ t ≠ .key) ∨ (k = .ctr ∧ t ≠ .keyIv)) (dir : Bool) (p : Staged)
    (m : ModeCtx) : modeInit k dir t p m = .error .pType := by
  have hshape : modeShape k t p = .error .pType := by
    rcases h with rfl | rfl | ⟨rfl, ht⟩ | ⟨rfl, ht⟩
    · rfl
    · rfl
    · cases t with
      | key => exact absurd rfl ht
      | _ => rfl
    · cases t with
      | keyIv => exact absurd rfl ht
      | _ => rfl
  rw [modeInit, hshape]

/-- A key and no IV: the key must be staged and good. -/
theorem modeInit_key {k : Kind} (hctr : k ≠ .ctr) (dir : Bool) (p : Staged) (m : ModeCtx) :
    modeInit k dir .key p m =
      if p.keyv = false then .error .key
      else if bcKeyOk p.key = false then .error .key
      else .ok (modeReset k (modeCommit k dir true none p m)) := by
  have hshape : modeShape k .key p = if p.keyv then .ok (true, none) else .error .key := by
    cases k with
    | ctr => exact absurd rfl hctr
    | _ => rfl
  rw [modeInit, hshape]
  cases p.keyv with
  | false => rfl
  | true =>
    simp only [if_true, ivLengthOk, modeKeyError, Bool.true_eq_false, if_false]
    cases bcKeyOk p.key <;> rfl

/-- An IV and perhaps a key: the IV must be staged and of legal length, the key good or latched, and CBC keeps the
direction of a latched key. -/
theorem modeInit_keyIv {k : Kind} (hecb : k ≠ .ecb) (dir : Bool) (p : Staged) (m : ModeCtx) :
    modeInit k dir .keyIv p m =
      if p.ivv = false then .error .ivLen
      else if ivLengthOk k (some p.iv) = false then .error .ivLen
      else if p.keyv = true then
        (if bcKeyOk p.key = false then .error .key
         else .ok (modeReset k (modeCommit k dir true (some p.iv) p m)))
      else if m.keyed = false then .error .key
      else if k = .cbc ∧ dir ≠ m.dir then .error .dir
      else .ok (modeReset k (modeCommit k dir false (some p.iv) p m)) := by
  have hshape : modeShape k .keyIv p = if p.ivv then .ok (p.keyv, some p.iv) else .error .ivLen := by
    cases k with
    | ecb => exact absurd rfl hecb
    | _ => rfl
  rw [modeInit, hshape]
  cases p.ivv with
  | false => rfl
  | true =>
    simp only [if_true, Bool.true_eq_false, if_false]
    cases ivLengthOk k (some p.iv) with
    | false => rfl
    | true =>
      cases p.keyv with
      | true =>
        simp only [if_true, Bool.true_eq_false, if_false, modeKeyError]
        cases bcKeyOk p.key <;> rfl
      | false =>
        simp only [if_true, Bool.true_eq_false, Bool.false_eq_true, if_false, modeKeyError]
        cases m.keyed with
        | false => rfl
        | true =>
          simp only [Bool.not_true, Bool.false_eq_true, Bool.true_eq_false, if_false]
          by_cases hdir : k = .cbc ∧ dir ≠ m.dir
          · simp only [if_pos hdir]
          · simp only [if_neg hdir]

theorem ivLengthOk_eq_false_iff {k : Kind} (hctr : k ≠ .ctr) (iv : Bytes) :
    ivLengthOk k (some iv) = false ↔ iv.length ≠ 16 := by
  simp only [ivLengthOk, if_neg hctr, bs, beq_eq_false_iff_ne]

theorem ivLengthOk_ctr_eq_false_iff (nonce : Bytes) :
    ivLengthOk .ctr (some nonce) = false ↔ nonce.length < 8 ∨ 16 < nonce.length := by
  rw [← Bool.not_eq_true, ivLengthOk_ctr_iff]; omega

/-! ## `ModeInit` of each kind -/

/-- CBC, CFB and OFB. -/
theorem modeInit_of_iv {k : Kind} (hecb : k ≠ .ecb) (hctr : k ≠ .ctr) (dir : Bool) (t : PType) (p : Staged)
    (m : ModeCtx) :
    modeInit k dir t p m =
      if t = .aead ∨ t = .keyRandom then .error .pType
      else if t = .key then
        (if p.keyv = false then .error .key
         else if bcKeyOk p.key = false then .error .key
         else .ok (m.initedWith dir p.key 0))
      else if p.ivv = false then .error .ivLen
      else if p.iv.length ≠ 16 then .error .ivLen
      else if p.keyv = true then
        (if bcKeyOk p.key = false then .error .key else .ok (m.initedWith dir p.key (blockOfBytes p.iv)))
      else if m.keyed = false then .error .key
      else if k = .cbc ∧ dir ≠ m.dir then .error .dir
      else .ok (m.initedWith dir m.key (blockOfBytes p.iv)) := by
  cases t with
  | aead => exact modeInit_of_refused (.inl rfl) dir p m
  | keyRandom => exact modeInit_of_refused (.inr (.inl rfl)) dir p m
  | key =>
    rw [modeInit_key hctr, modeReset_modeCommit_of_iv hecb hctr dir true none p m rfl, Option.getD_none,
      blockOfBytes_nil]
    rfl
  | keyIv =>
    rw [modeInit_keyIv hecb, modeReset_modeCommit_of_iv hecb hctr dir true _ p m rfl]
    simp only [ivLengthOk_eq_false_iff hctr]
    by_cases hkeyed : m.keyed = false
    · simp only [if_pos hkeyed]; rfl
    · rw [modeReset_modeCommit_of_iv hecb hctr dir false _ p m (by simpa using hkeyed)]; rfl

theorem modeInit_ecb (dir : Bool) (t : PType) (p : Staged) (m : ModeCtx) :
    modeInit .ecb dir t p m =
      if t ≠ .key then .error .pType
      else if p.keyv = false then .error .key
      else if bcKeyOk p.key = false then .error .key
      else .ok { m with keyed := true, key := p.key, dir := dir, inited := true, cur := 0, ks := 0, fb := 0 } := by
  by_cases ht : t = .key
  · subst ht
    rw [modeInit_key (k := .ecb) nofun, modeReset_modeCommit_ecb]; rfl
  · rw [modeInit_of_refused (.inr (.inr (.inl ⟨rfl, ht⟩))), if_pos ht]

theorem modeInit_ctr (dir : Bool) (t : PType) (p : Staged) (m : ModeCtx) :
    modeInit .ctr dir t p m =
      if t ≠ .keyIv then .error .pType
      else if p.ivv = false then .error .ivLen
      else if p.iv.length < 8 ∨ 16 < p.iv.length then .error .ivLen
      else if p.keyv = true ∧ bcKeyOk p.key = false then .error .key
      else if p.keyv = false ∧ m.keyed = false then .error .key
      else .ok { m with keyed := true, key := if p.keyv then p.key else m.key, dir := dir, inited := true,
                        n := p.iv.length, iv := blockOfBytes (p.iv ++ zeros (16 - p.iv.length)),
                        r := blockOfBytes (p.iv ++ (bytesOfBlock m.r).drop p.iv.length), cur := 0, ks := 0,
                        fb := 0 } := by
  by_cases ht : t = .keyIv
  · subst ht
    rw [modeInit_keyIv (k := .ctr) nofun]
    simp only [ivLengthOk_ctr_eq_false_iff]
    by_cases hlen : p.iv.length < 8 ∨ 16 < p.iv.length
    · simp only [if_pos hlen]; rfl
    · have hle : p.iv.length ≤ 16 := by omega
      cases hkeyv : p.keyv with
      | true =>
        rw [modeReset_modeCommit_ctr hle dir true p m rfl]
        simp
      | false =>
        by_cases hkeyed : m.keyed = false
        · simp [hkeyed]
        · rw [modeReset_modeCommit_ctr hle dir false p m (by simpa using hkeyed)]
          simp
  · rw [modeInit_of_refused (.inr (.inr (.inr ⟨rfl, ht⟩))), if_pos ht]

/-! ## The INIT commands -/

/-- The state in which an INIT of the units 2 to 6 ends. -/
def initEnd (i : Instr) (s : State) (put : ModeCtx → State) (r : Except FatalCode ModeCtx) : State :=
  match r with
  | .error f => s.haltedBy i.unit i.op f.code
  | .ok m => (put m).completed i.unit i.op i.ilen []

theorem respond_initResult (i : Instr) (s : State) (put : ModeCtx → State) (r : Except FatalCode ModeCtx) :
    respond i s (initResult put r) = .next (initEnd i s put r) := by
  cases r with
  | error f => exact respond_fatal i s f
  | ok m => exact respond_ok i s (put m) []

/-- An INIT command of units 2 to 6. -/
theorem exec_init {i : Instr} {s : State} {put : ModeCtx → State} {r : Except FatalCode ModeCtx}
    (hi : resultOf i s = initResult put r) : exec i s = .next (initEnd i s put r) := by
  rw [exec_eq_respond, hi, respond_initResult]

/-- Settles O22: the checks of `modeInit_ecb` and `modeInit_ctr`, each with the end of the command that it decides. -/
theorem ecbAndCtrInit : Obligations.EcbAndCtrInit := by
  intro dir t s
  constructor
  · rw [exec_init (put := s.withEcb) rfl, modeInit_ecb]
    simp only [apply_ite (initEnd (.ecbInit dir t) s s.withEcb)]
    rfl
  · rw [exec_init (put := s.withCtr) rfl, modeInit_ctr]
    simp only [apply_ite (initEnd (.ctrInit dir t) s s.withCtr)]
    rfl

/-- Settles O23: `modeInit_of_iv` with the direction check of CBC. -/
theorem cbcInit : Obligations.CbcInit := by
  intro dir t s done
  rw [exec_init (put := s.withCbc) rfl, modeInit_of_iv (k := .cbc) nofun nofun]
  simp only [true_and, apply_ite (initEnd (.cbcInit dir t) s s.withCbc)]
  rfl

/-- Settles O24: `modeInit_of_iv`, whose direction check is CBC's alone. -/
theorem cfbAndOfbInit : Obligations.CfbAndOfbInit := by
  intro dir t s latched rule
  constructor
  · rw [exec_init (put := s.withCfb) rfl, modeInit_of_iv (k := .cfb) nofun nofun]
    simp only [reduceCtorEq, false_and, if_false, apply_ite (initEnd (.cfbInit dir t) s s.withCfb)]
    rfl
  · rw [exec_init (put := s.withOfb) rfl, modeInit_of_iv (k := .ofb) nofun nofun]
    simp only [reduceCtorEq, false_and, if_false, apply_ite (initEnd (.ofbInit dir t) s s.withOfb)]
    rfl

/-! ## IV-only reinit -/

/-- A staged IV and no staged key: CBC, CFB and OFB keep a key latched before. -/
theorem modeInit_ivOnly {k : Kind} (hecb : k ≠ .ecb) (hctr : k ≠ .ctr) {dir : Bool} {p : Staged} {m : ModeCtx}
    (hkeyv : p.keyv = false) (hivv : p.ivv = true) (hlen : p.iv.length = 16) (hkeyed : m.keyed = true)
    (hdir : k = .cbc → dir = m.dir) :
    modeInit k dir .keyIv p m = .ok (m.initedWith dir m.key (blockOfBytes p.iv)) := by
  have hsame : ¬ (k = .cbc ∧ dir ≠ m.dir) := fun ⟨hk, hne⟩ => hne (hdir hk)
  rw [modeInit_of_iv hecb hctr]
  simp [hkeyv, hivv, hlen, hkeyed, if_neg hsame]

/-- The same for CTR, where an IV of 16 bytes is the whole counter block. -/
theorem modeInit_ctr_ivOnly {dir : Bool} {p : Staged} {m : ModeCtx} (hkeyv : p.keyv = false) (hivv : p.ivv = true)
    (hlen : p.iv.length = 16) (hkeyed : m.keyed = true) :
    modeInit .ctr dir .keyIv p m = .ok { m.initedWith dir m.key (blockOfBytes p.iv) with n := 16 } := by
  have hdrop : (bytesOfBlock m.r).drop 16 = [] := List.drop_of_length_le (by simp)
  rw [modeInit_ctr]
  simp [hkeyv, hivv, hlen, hkeyed, hdrop, ModeCtx.initedWith, zeros]

/-- An INIT command of units 2 to 6 that completes with the context `m`. -/
theorem exec_init_ok {i : Instr} {s : State} {put : ModeCtx → State} {r : Except FatalCode ModeCtx} {m : ModeCtx}
    (hi : resultOf i s = initResult put r) (hr : r = .ok m) :
    exec i s = .next ((put m).completed i.unit i.op i.ilen []) := by
  rw [exec_init hi, hr]; rfl

/-- Settles O25 (`modeInit_ivOnly`, `modeInit_ctr_ivOnly`). -/
theorem ivOnlyReinitKeepsTheKey : Obligations.IvOnlyReinitKeepsTheKey := fun _ s hkeyv hivv hlen =>
  ⟨fun hkeyed hdir => exec_init_ok (put := s.withCbc) rfl
      (modeInit_ivOnly (k := .cbc) nofun nofun hkeyv hivv hlen hkeyed fun _ => hdir.symm),
    fun hkeyed => exec_init_ok (put := s.withCfb) rfl
      (modeInit_ivOnly (k := .cfb) nofun nofun hkeyv hivv hlen hkeyed nofun),
    fun hkeyed => exec_init_ok (put := s.withOfb) rfl
      (modeInit_ivOnly (k := .ofb) nofun nofun hkeyv hivv hlen hkeyed nofun),
    fun hkeyed => exec_init_ok (put := s.withCtr) rfl (modeInit_ctr_ivOnly hkeyv hivv hlen hkeyed)⟩

end Sys2Proof.Machine
end

section
/-! ECB.BLOCK and CBC.BLOCK (42_ecb_cbc.md R162, R166, R170), and how far a corrupted ciphertext block reaches in CBC
decryption (R171). -/

namespace Sys2Proof.Machine

open Sys2Proof.Config

/-! ## The frame of a BLOCK command (R162) -/

/-- A BLOCK command of units 2 to 6, whose block step takes the first `MBS` payload bytes to the context `m'` and the
output `out`. -/
theorem exec_blockFrame {i : Instr} {s : State} {k : Kind} {order : CtrOrder} {m m' : ModeCtx}
    {put : ModeCtx → State} {d out : Bytes} {o : BitVec 24} (hi : resultOf i s = blockFrame k order m put d o)
    (hstep : blockStep k order m (d.take (mbs k m)) = some (m', out)) :
    exec i s = .next
      (if d.length < mbs k m ∨ o.toNat < mbs k m then s.haltedBy i.unit i.op 0x82
       else if m.inited = false then s.errored i.unit i.op i.ilen 0x10
       else (put m').completed i.unit i.op i.ilen out) := by
  rw [exec_eq_respond, hi, blockFrame, hstep]
  by_cases hlen : d.length < mbs k m ∨ o.toNat < mbs k m
  · rw [if_pos hlen, if_pos hlen]; exact respond_fatal i s .bufLen
  · rw [if_neg hlen, if_neg hlen]
    cases m.inited with
    | false => exact respond_err i s .uninit
    | true => exact respond_ok i s (put m') out

theorem blockStep_cbc_encrypt {m : ModeCtx} (hdir : m.dir = true) (order : CtrOrder) (x : Bytes) :
    blockStep .cbc order m x =
      some ({ m with r := bcEnc m.key (m.r ^^^ blockOfBytes x) },
        bytesOfBlock (bcEnc m.key (m.r ^^^ blockOfBytes x))) := by
  rw [blockStep, cbcBlockStep, if_pos hdir]

theorem blockStep_cbc_decrypt {m : ModeCtx} (hdir : m.dir = false) (order : CtrOrder) (x : Bytes) :
    blockStep .cbc order m x =
      some ({ m with r := blockOfBytes x }, bytesOfBlock (bcDec m.key (blockOfBytes x) ^^^ m.r)) := by
  rw [blockStep, cbcBlockStep, if_neg (by simp [hdir])]

/-- Settles O26: the frame of a BLOCK command (`exec_blockFrame`) around the block step of each unit, by direction. -/
theorem ecbAndCbcBlock : Obligations.EcbAndCbcBlock := by
  intro d o s x
  constructor
  · rw [exec_blockFrame (i := .ecbBlock d o) (put := s.withEcb) rfl rfl, ecbBlockStep]
    cases s.ecb.dir <;> rfl
  · cases hdir : s.cbc.dir with
    | true =>
      rw [exec_blockFrame (i := .cbcBlock d o) (put := s.withCbc) rfl (blockStep_cbc_encrypt hdir _ _)]; rfl
    | false =>
      rw [exec_blockFrame (i := .cbcBlock d o) (put := s.withCbc) rfl (blockStep_cbc_decrypt hdir _ _)]; rfl

/-! ## CBC decryption of several blocks (R170) -/

/-- The plaintext blocks of the ciphertext blocks `xs`, the first one chained to the register `r`. -/
def cbcPlaintexts (key : Bytes) : Block → List Bytes → List Bytes
  | _, [] => []
  | r, x :: xs => bytesOfBlock (bcDec key (blockOfBytes x) ^^^ r) :: cbcPlaintexts key (blockOfBytes x) xs

@[simp] theorem cbcPlaintexts_length (key : Bytes) (r : Block) (xs : List Bytes) :
    (cbcPlaintexts key r xs).length = xs.length := by
  induction xs generalizing r with
  | nil => rfl
  | cons x xs ih => simp [cbcPlaintexts, ih]

/-- What a later block is chained to is the last block before it. -/
theorem cbcPlaintexts_append (key : Bytes) (r : Block) (xs ys : List Bytes) :
    cbcPlaintexts key r (xs ++ ys) =
      cbcPlaintexts key r xs ++ cbcPlaintexts key ((xs.map blockOfBytes).getLastD r) ys := by
  induction xs generalizing r with
  | nil => rfl
  | cons x xs ih =>
    rw [List.cons_append, cbcPlaintexts, cbcPlaintexts, ih, List.map_cons, List.getLastD_cons, List.cons_append]

/-- The plaintexts around one block `y`, to which the first block after it is chained. -/
theorem cbcPlaintexts_around (key : Bytes) (r : Block) (before after : List Bytes) (y : Bytes) :
    cbcPlaintexts key r (before ++ [y] ++ after) =
      cbcPlaintexts key r before ++
        [bytesOfBlock (bcDec key (blockOfBytes y) ^^^ (before.map blockOfBytes).getLastD r)] ++
        cbcPlaintexts key (blockOfBytes y) after := by
  rw [List.append_assoc, cbcPlaintexts_append, List.append_assoc]; rfl

/-- The register reaches the first plaintext block only, and there as an XOR. -/
theorem cbcPlaintexts_register (key : Bytes) (r r' : Block) (xs : List Bytes) :
    cbcPlaintexts key r' xs =
      (cbcPlaintexts key r xs).modifyHead fun b => xorBytes b (bytesOfBlock (r ^^^ r')) := by
  cases xs with
  | nil => rfl
  | cons x xs =>
    have hxor (p : Block) : p ^^^ r' = p ^^^ r ^^^ (r ^^^ r') := by
      rw [BitVec.xor_assoc, ← BitVec.xor_assoc r r r', BitVec.xor_self, BitVec.zero_xor]
    rw [cbcPlaintexts, cbcPlaintexts, List.modifyHead_cons, ← bytesOfBlock_xor, ← hxor]

/-- CBC.BLOCK on one ciphertext block. -/
theorem exec_cbcBlock_decrypt {s : State} (hin : s.cbc.inited = true) (hdir : s.cbc.dir = false) {x : Bytes}
    (hx : x.length = 16) :
    ∃ u, exec (.cbcBlock x 16) s = .next u ∧ u.cbc = { s.cbc with r := blockOfBytes x } ∧
      u.rs = s.rs ++ wireResponse 0x00 3 3 (bytesOfBlock (bcDec s.cbc.key (blockOfBytes x) ^^^ s.cbc.r)) := by
  obtain ⟨-, hcbc⟩ := ecbAndCbcBlock x 16 s
  rw [List.take_of_length_le hx.le, if_neg (by rw [hx]; decide), if_neg (by simp [hin]),
    if_neg (by simp [hdir])] at hcbc
  exact ⟨_, hcbc, rfl, rfl⟩

/-- CBC.BLOCK on ciphertext blocks, one after another, answers their plaintext blocks. -/
theorem execAll_cbcBlock_decrypt {s : State} (hin : s.cbc.inited = true) (hdir : s.cbc.dir = false) (xs : List Bytes)
    (hxs : ∀ x ∈ xs, x.length = 16) :
    ∃ t, execAll (xs.map fun x => .cbcBlock x 16) s = some t ∧
      t.rs = s.rs ++ ((cbcPlaintexts s.cbc.key s.cbc.r xs).map (wireResponse 0x00 3 3)).flatten := by
  induction xs generalizing s with
  | nil => exact ⟨s, rfl, by simp [cbcPlaintexts]⟩
  | cons x xs ih =>
    obtain ⟨u, hu, hcbc, hurs⟩ := exec_cbcBlock_decrypt hin hdir (hxs x List.mem_cons_self)
    obtain ⟨t, ht, hrs⟩ := ih (s := u) (by rw [hcbc]; exact hin) (by rw [hcbc]; exact hdir)
      fun y hy => hxs y (List.mem_cons_of_mem x hy)
    refine ⟨t, ?_, ?_⟩
    · simp only [List.map_cons, execAll, hu, ht]
    · rw [hrs, hcbc, hurs, cbcPlaintexts, List.map_cons, List.flatten_cons, List.append_assoc]

/-! ## A corrupted block (R171) -/

/-- Settles O27: the plaintexts of `before` are not chained to the corrupted block, and those of `after` are chained to
it as a register, which reaches the first of them only (`cbcPlaintexts_register`). -/
theorem cbcErrorPropagationIsBounded : Obligations.CbcErrorPropagationIsBounded := by
  intro s before after c c' hin hdir hbefore hafter hc hc' run answers next
  have hlen {y : Bytes} (hy : y.length = 16) : ∀ x ∈ before ++ [y] ++ after, x.length = 16 := by
    simp only [List.mem_append, List.mem_singleton]
    rintro x ((hx | rfl) | hx)
    · exact hbefore x hx
    · exact hy
    · exact hafter x hx
  obtain ⟨t, ht, hrs⟩ := execAll_cbcBlock_decrypt hin hdir _ (hlen hc)
  obtain ⟨t', ht', hrs'⟩ := execAll_cbcBlock_decrypt hin hdir _ (hlen hc')
  have hnext : cbcPlaintexts s.cbc.key (blockOfBytes c') after =
      next (cbcPlaintexts s.cbc.key (blockOfBytes c) after) := by
    rw [cbcPlaintexts_register _ (blockOfBytes c), bytesOfBlock_xor, bytesOfBlock_blockOfBytes hc,
      bytesOfBlock_blockOfBytes hc']
    cases after <;> rfl
  rw [cbcPlaintexts_around] at hrs hrs'
  rw [hnext] at hrs'
  exact ⟨t, t', _, _, _, _, ht, ht', cbcPlaintexts_length .., cbcPlaintexts_length .., hrs, hrs'⟩

end Sys2Proof.Machine
end

section
/-! Construction with a feedback size (43_cfb_ofb.md R181, R186, 46_bpc.md R261): CFG of CFB, OFB and BPC. -/

namespace Sys2Proof.Machine

open Sys2Proof.Config

/-- A legal feedback size is one of 1 to 16 whole bytes. -/
theorem fbSizeLegal_iff_exists (imm : BitVec 24) :
    fbSizeLegal imm = true ↔ ∃ k, 1 ≤ k ∧ k ≤ 16 ∧ imm.toNat = 8 * k := by
  rw [fbSizeLegal_iff]
  constructor
  · rintro ⟨hne, hdvd, hle⟩
    exact ⟨imm.toNat / 8, by omega, by omega, by omega⟩
  · rintro ⟨k, hlo, hhi, heq⟩
    omega

/-- BPC constructs its own context of a feedback kind as CFB and OFB construct theirs. -/
theorem resultOf_bpcCfg_feedback {kind : Kind} (hk : isFeedback kind = true) (imm : BitVec 24) (s : State) :
    resultOf (.bpcCfg kind imm) s =
      fbCfgResult (fun m => s.withB { Bpc.reset with mode := some kind, m := m }) imm := by
  simp only [resultOf, bpcCfgResult, fbCfgResult, hk, Bool.true_and, if_true]
  cases fbSizeLegal imm <;> rfl

section FeedbackCfg

variable {i : Instr} {s : State} {put : ModeCtx → State} {imm : BitVec 24}

/-- A construction command with a size of `k` bytes. -/
theorem exec_fbCfg_of_bytes (hi : resultOf i s = fbCfgResult put imm) {k : Nat} (hlo : 1 ≤ k) (hhi : k ≤ 16)
    (himm : imm.toNat = 8 * k) :
    exec i s = .next ((put (modeFresh k)).completed i.unit i.op i.ilen []) := by
  have hdiv : imm.toNat / 8 = k := by omega
  rw [exec_eq_respond, hi, fbCfgResult, if_pos ((fbSizeLegal_iff_exists imm).mpr ⟨k, hlo, hhi, himm⟩), hdiv, respond_ok]

/-- A construction command with any other size. -/
theorem exec_fbCfg_of_other (hi : resultOf i s = fbCfgResult put imm)
    (himm : ∀ k, 1 ≤ k → k ≤ 16 → imm.toNat ≠ 8 * k) : exec i s = .next (s.haltedBy i.unit i.op 0x84) := by
  have hillegal : ¬ fbSizeLegal imm = true := fun hlegal =>
    let ⟨k, hlo, hhi, heq⟩ := (fbSizeLegal_iff_exists imm).mp hlegal
    himm k hlo hhi heq
  rw [exec_eq_respond, hi, fbCfgResult, if_neg hillegal, respond_fatal]
  rfl

end FeedbackCfg

/-- BPC does not look at the size for the other kinds. -/
theorem exec_bpcCfg_of_not_feedback {kind : Kind} (hk : isFeedback kind = false) (imm : BitVec 24) (s : State) :
    exec (.bpcCfg kind imm) s =
      .next ((s.withB { Bpc.reset with mode := some kind }).completed 8 0 0 []) := by
  have hok : resultOf (.bpcCfg kind imm) s = .ok (s.withB { Bpc.reset with mode := some kind }) [] := by
    rw [resultOf, bpcCfgResult, hk]; rfl
  rw [exec_eq_respond, hok, respond_ok]
  rfl

/-- Settles O20: the four commands with a size end as `fbCfgResult` does, BPC by `resultOf_bpcCfg_feedback`. -/
theorem feedbackSizeIsOneToSixteenBytes : Obligations.FeedbackSizeIsOneToSixteenBytes := by
  intro imm s
  refine ⟨fun k hlo hhi himm => ⟨?_, ?_, ?_, ?_⟩, fun himm => ⟨?_, ?_, ?_, ?_⟩, ?_⟩
  · exact exec_fbCfg_of_bytes (put := s.withCfb) rfl hlo hhi himm
  · exact exec_fbCfg_of_bytes (put := s.withOfb) rfl hlo hhi himm
  · exact exec_fbCfg_of_bytes (resultOf_bpcCfg_feedback (kind := .cfb) rfl imm s) hlo hhi himm
  · exact exec_fbCfg_of_bytes (resultOf_bpcCfg_feedback (kind := .ofb) rfl imm s) hlo hhi himm
  · exact exec_fbCfg_of_other (put := s.withCfb) rfl himm
  · exact exec_fbCfg_of_other (put := s.withOfb) rfl himm
  · exact exec_fbCfg_of_other (resultOf_bpcCfg_feedback (kind := .cfb) rfl imm s) himm
  · exact exec_fbCfg_of_other (resultOf_bpcCfg_feedback (kind := .ofb) rfl imm s) himm
  · rintro kind (rfl | rfl | rfl) <;> exact exec_bpcCfg_of_not_feedback rfl imm s

end Sys2Proof.Machine
end

section
/-! The byte step of CFB and OFB (43_cfb_ofb.md R180), and the BLOCK and BYTES commands around it (R184, R185, R189,
R190). -/

namespace Sys2Proof.Machine

open Sys2Proof.Config

/-! ## The byte step (R180) -/

/-- The keystream byte under the cursor. -/
def fbKeyByte (m : ModeCtx) : Byte := blockByte (fbKeystream m) m.cur

/-- The context after a byte step that feeds back the byte `fed`: the input byte reaches the context in no other way. -/
def fbFeed (m : ModeCtx) (fed : Byte) : ModeCtx :=
  if m.cur + 1 = m.fbb then
    { m with ks := fbKeystream m, fb := setBlockByte m.fb m.cur fed,
             r := fbShift m.fbb m.r (setBlockByte m.fb m.cur fed), cur := 0 }
  else { m with ks := fbKeystream m, fb := setBlockByte m.fb m.cur fed, cur := m.cur + 1 }

theorem fbByteStep_eq (k : Kind) (m : ModeCtx) (b : Byte) :
    fbByteStep k m b = (fbFeed m (fbFeedback k m b (fbKeyByte m ^^^ b)), fbKeyByte m ^^^ b) := by
  simp only [fbByteStep, fbFeed, fbKeyByte]
  split <;> rfl

/-- The bytes of the shifted register: those of the old one from `fbb` on, then the feedback bytes. -/
theorem blockByte_fbShift (r fb : Block) {fbb j : Nat} (hfbb : fbb ≤ 16) (hj : j < 16) :
    blockByte (fbShift fbb r fb) j =
      if j < 16 - fbb then blockByte r (j + fbb) else blockByte fb (j - (16 - fbb)) := by
  have hbyte (x : Block) {n : Nat} (hn : n < 16) : (bytesOfBlock x)[n]? = some (blockByte x n) := by
    rw [List.getElem?_eq_getElem (by simpa using hn), bytesOfBlock_getElem x hn]
  have hlen : ((bytesOfBlock r).drop fbb).length = 16 - fbb := by simp
  rw [fbShift, blockByte_blockOfBytes _ hj, List.getD_eq_getElem?_getD]
  by_cases hold : j < 16 - fbb
  · rw [if_pos hold, List.getElem?_append_left (by omega), List.getElem?_drop, hbyte r (by omega), Nat.add_comm]; rfl
  · rw [if_neg hold, List.getElem?_append_right (by omega), hlen, List.getElem?_take_of_lt (by omega),
      hbyte fb (by omega)]; rfl

/-- Settles O28: the step is `fbFeed` (`fbByteStep_eq`), whose two blocks are known byte by byte. -/
theorem feedbackByteStep : Obligations.FeedbackByteStep := by
  intro k m b _ hfbb _ ks o fed
  refine ⟨setBlockByte m.fb m.cur fed, fbShift m.fbb m.r (setBlockByte m.fb m.cur fed),
    fun j hj => blockByte_setBlockByte m.fb fed hj, fun j hj => blockByte_fbShift m.r _ hfbb hj, ?_⟩
  rw [fbByteStep_eq]
  rfl

/-! ## The frame of a BYTES command (R185, R190, R209) -/

/-- A BYTES command of units 4 to 6, whose data path takes the payload to the context `m'` and the output `out`. -/
theorem exec_bytesFrame {i : Instr} {s : State} {m m' : ModeCtx} {put : ModeCtx → State}
    {r : Option (ModeCtx × Bytes)} {d out : Bytes} {o : BitVec 24} (hi : resultOf i s = bytesFrame m put r d o)
    (hr : r = some (m', out)) :
    exec i s = .next
      (if o.toNat < d.length then s.haltedBy i.unit i.op 0x82
       else if m.inited = false then s.errored i.unit i.op i.ilen 0x10
       else (put m').completed i.unit i.op i.ilen out) := by
  rw [exec_eq_respond, hi, bytesFrame, hr]
  by_cases hlen : o.toNat < d.length
  · rw [if_pos hlen, if_pos hlen]; exact respond_fatal i s .bufLen
  · rw [if_neg hlen, if_neg hlen]
    cases m.inited with
    | false => exact respond_err i s .uninit
    | true => exact respond_ok i s (put m') out

/-- A BYTES command answers `OK` exactly when its two checks pass and its data path does not drift. -/
theorem answersOk_bytesFrame_iff {i : Instr} {s t : State} {m : ModeCtx} {put : ModeCtx → State}
    {r : Option (ModeCtx × Bytes)} {d out : Bytes} {o : BitVec 24} (hi : resultOf i s = bytesFrame m put r d o) :
    AnswersOk i s t out ↔ d.length ≤ o.toNat ∧ m.inited = true ∧
      ∃ m', r = some (m', out) ∧ t = (put m').completed i.unit i.op i.ilen out := by
  rw [answersOk_iff, hi]
  constructor
  · rintro ⟨u, hok, rfl⟩
    obtain ⟨hlen, hin, m', hr, rfl⟩ := bytesFrame_ok hok
    exact ⟨hlen, hin, m', hr, rfl⟩
  · rintro ⟨hlen, hin, m', rfl, rfl⟩
    exact ⟨put m', by rw [bytesFrame, if_neg (by omega), if_pos hin]; rfl, rfl⟩

/-- Settles O29: the frames of BLOCK and BYTES around the byte steps, whose equations are those of `fbBytes`. -/
theorem feedbackDataCommands : Obligations.FeedbackDataCommands := fun d o s =>
  ⟨exec_blockFrame (i := .cfbBlock d o) (put := s.withCfb) rfl rfl,
    exec_bytesFrame (i := .cfbBytes d o) (put := s.withCfb) rfl rfl,
    exec_blockFrame (i := .ofbBlock d o) (put := s.withOfb) rfl rfl,
    exec_bytesFrame (i := .ofbBytes d o) (put := s.withOfb) rfl rfl, fbBytes_nil, fbBytes_cons⟩

end Sys2Proof.Machine
end

section
/-! The stream modes undo what they do (43_cfb_ofb.md R180, R185, R190, R191, 44_ctr.md R204, R209): CFB decrypts what
it encrypts, OFB and CTR are their own inverse. -/

namespace Sys2Proof.Machine

open Sys2Proof.Config

/-! ## CFB -/

/-- Decrypting the byte that encryption answers gives the plaintext byte back; both feed back the ciphertext byte. -/
theorem fbByteStep_cfb_decrypt {m : ModeCtx} (hdir : m.dir = true) (b : Byte) :
    fbByteStep .cfb { m with dir := false } (fbByteStep .cfb m b).2 =
      ({ (fbByteStep .cfb m b).1 with dir := false }, b) := by
  have hkey : fbKeyByte { m with dir := false } = fbKeyByte m := rfl
  have hfeed (fed : Byte) : fbFeed { m with dir := false } fed = { fbFeed m fed with dir := false } := by
    simp only [fbFeed, fbKeystream]; split <;> rfl
  simp only [fbByteStep_eq, hkey, hfeed, xor_cancel_left, fbFeedback, if_true, hdir, Bool.false_eq_true, if_false]

/-- Decrypting the bytes that encryption answers gives the plaintext back and leaves the same register. -/
theorem fbBytes_cfb_decrypt {m : ModeCtx} (hdir : m.dir = true) (p : Bytes) :
    fbBytes .cfb { m with dir := false } (fbBytes .cfb m p).2 = ({ (fbBytes .cfb m p).1 with dir := false }, p) := by
  induction p generalizing m with
  | nil => rfl
  | cons b p ih =>
    have hdir' : (fbByteStep .cfb m b).1.dir = true := by rw [fbByteStep_frame]; exact hdir
    rw [fbBytes_cons, fbBytes_cons, fbByteStep_cfb_decrypt hdir, ih hdir']

/-- Settles O30: two BYTES commands around `fbBytes_cfb_decrypt`. -/
theorem cfbDecryptsWhatItEncrypts : Obligations.CfbDecryptsWhatItEncrypts := by
  intro s t p o o' hin hdir ht ho ho'
  have hint : t.cfb.inited = true := by rw [ht]; exact hin
  have hback : fbBytes .cfb t.cfb (fbBytes .cfb s.cfb p).2 = ({ (fbBytes .cfb s.cfb p).1 with dir := false }, p) := by
    rw [ht]; exact fbBytes_cfb_decrypt hdir p
  exact ⟨_, (fbBytes .cfb s.cfb p).2, _,
    (answersOk_bytesFrame_iff (put := s.withCfb) rfl).mpr ⟨ho, hin, _, rfl, rfl⟩,
    (answersOk_bytesFrame_iff (put := t.withCfb) rfl).mpr
      ⟨by rwa [fbBytes_length], hint, _, congrArg some hback, rfl⟩, rfl⟩

/-! ## OFB -/

/-- The OFB keystream of `n` bytes and the context after it, as the answer to `n` zero bytes. -/
def ofbStream (m : ModeCtx) (n : Nat) : ModeCtx × Bytes := fbBytes .ofb m (zeros n)

@[simp] theorem ofbStream_length (m : ModeCtx) (n : Nat) : (ofbStream m n).2.length = n := by
  rw [ofbStream, fbBytes_length, zeros_length]

/-- An OFB byte step feeds back the keystream byte, whatever the input byte is. -/
theorem fbByteStep_ofb (m : ModeCtx) (b : Byte) :
    fbByteStep .ofb m b = (fbFeed m (fbKeyByte m), fbKeyByte m ^^^ b) := by
  rw [fbByteStep_eq]; rfl

theorem ofbStream_succ (m : ModeCtx) (n : Nat) :
    ofbStream m (n + 1) =
      ((ofbStream (fbFeed m (fbKeyByte m)) n).1, fbKeyByte m :: (ofbStream (fbFeed m (fbKeyByte m)) n).2) := by
  rw [ofbStream, zeros, List.replicate_succ, fbBytes_cons, fbByteStep_ofb, xor_zero]; rfl

/-- OFB XORs the data with its keystream, and the data reaches the context by its length alone. -/
theorem fbBytes_ofb (m : ModeCtx) (d : Bytes) :
    fbBytes .ofb m d = ((ofbStream m d.length).1, xorBytes d (ofbStream m d.length).2) := by
  induction d generalizing m with
  | nil => rfl
  | cons b d ih =>
    rw [fbBytes_cons, fbByteStep_ofb, ih, List.length_cons, ofbStream_succ, BitVec.xor_comm]; rfl

/-- The answer XORed with the data is the keystream. -/
theorem xorBytes_fbBytes_ofb (m : ModeCtx) (d : Bytes) :
    xorBytes (fbBytes .ofb m d).2 d = (ofbStream m d.length).2 := by
  have hcomm (x y : Bytes) : xorBytes x y = xorBytes y x := List.zipWith_comm_of_comm BitVec.xor_comm
  rw [fbBytes_ofb, hcomm d, xorBytes_cancel (by simp)]

/-- The answer, sent again from the same context, gives the data back. -/
theorem fbBytes_ofb_involutive (m : ModeCtx) (d : Bytes) :
    fbBytes .ofb m (fbBytes .ofb m d).2 = ((fbBytes .ofb m d).1, d) := by
  rw [fbBytes_ofb m (fbBytes .ofb m d).2, fbBytes_length, fbBytes_ofb, xorBytes_cancel (by simp)]

/-! ## CTR -/

/-- The output byte of a CTR step, given to the same step, answers the input byte and ends the same way. -/
theorem ctrByteStep_involutive {order : CtrOrder} {m m' : ModeCtx} {b x : Byte}
    (h : ctrByteStep order m b = some (m', x)) : ctrByteStep order m x = some (m', b) := by
  unfold ctrByteStep at h ⊢
  generalize (if m.cur = 0 then ctrOpenBlock order m else some m) = opened at h ⊢
  cases opened with
  | none => cases h
  | some m1 =>
    cases h
    simp only [ctrEmit, xor_cancel_left]

theorem ctrBytes_involutive {order : CtrOrder} {m m' : ModeCtx} {p c : Bytes}
    (h : ctrBytes order m p = some (m', c)) : ctrBytes order m c = some (m', p) := by
  induction p generalizing m c with
  | nil => cases h; rfl
  | cons b p ih =>
    rw [ctrBytes_cons, Option.bind_eq_some_iff] at h
    obtain ⟨⟨m1, x⟩, hstep, h⟩ := h
    obtain ⟨⟨m2, xs⟩, hrest, heq⟩ := Option.map_eq_some_iff.mp h
    cases heq
    rw [ctrBytes_cons, ctrByteStep_involutive hstep, Option.bind_some, ih hrest, Option.map_some]

/-- Settles O31: OFB by its keystream (`fbBytes_ofb_involutive`, `xorBytes_fbBytes_ofb`), CTR byte by byte
(`ctrBytes_involutive`). -/
theorem ofbAndCtrAreTheirOwnInverse : Obligations.OfbAndCtrAreTheirOwnInverse := by
  constructor
  · intro s t p q o o' hin ht hq ho ho'
    have hint : t.ofb.inited = true := by rw [ht]; exact hin
    have hctx : (fbBytes .ofb s.ofb q).1 = (fbBytes .ofb s.ofb p).1 := by rw [fbBytes_ofb, fbBytes_ofb, hq]
    refine ⟨_, (fbBytes .ofb s.ofb p).2, _, _, (fbBytes .ofb s.ofb q).2,
      (answersOk_bytesFrame_iff (put := s.withOfb) rfl).mpr ⟨ho, hin, _, rfl, rfl⟩,
      (answersOk_bytesFrame_iff (put := t.withOfb) rfl).mpr
        ⟨by rwa [fbBytes_length], hint, _, by rw [ht, fbBytes_ofb_involutive], rfl⟩,
      (answersOk_bytesFrame_iff (put := t.withOfb) rfl).mpr ⟨by rwa [hq], hint, _, by rw [ht], rfl⟩, rfl, hctx, ?_⟩
    rw [xorBytes_fbBytes_ofb, xorBytes_fbBytes_ofb, hq]
  · intro s t u p c o ht hparams h
    obtain ⟨ho, hin, m', hrun, rfl⟩ := (answersOk_bytesFrame_iff (put := s.withCtr) rfl).mp h
    exact ⟨_, (answersOk_bytesFrame_iff (put := t.withCtr) rfl).mpr
      ⟨by rwa [ctrBytes_length hrun], by rwa [ht], m', by rw [ht, hparams, ctrBytes_involutive hrun], rfl⟩, rfl⟩

end Sys2Proof.Machine
end

section
/-! Splitting a message over two BYTES commands of CFB, OFB and CTR (43_cfb_ofb.md R185, 44_ctr.md R204, 10_state.md
R38). -/

namespace Sys2Proof.Machine

open Sys2Proof.Config

/-- The data path of the stream modes on a joined sequence is its data path on the parts, in order. -/
theorem blockStep_append {k : Kind} (hk : k = .cfb ∨ k = .ofb ∨ k = .ctr) (order : CtrOrder) (m : ModeCtx)
    (a b : Bytes) :
    blockStep k order m (a ++ b) =
      (blockStep k order m a).bind fun x => (blockStep k order x.1 b).map fun y => (y.1, x.2 ++ y.2) := by
  rcases hk with rfl | rfl | rfl
  · exact congrArg some (fbBytes_append .cfb m a b)
  · exact congrArg some (fbBytes_append .ofb m a b)
  · exact ctrBytes_append order m a b

/-- A BYTES command `bytes` of kind `k` on the context that `get` reads and `put` writes, which is all that it reads and
writes beside the open constants and the two stream registers. -/
structure BytesCommand (k : Kind) (bytes : Bytes → BitVec 24 → Instr) (get : State → ModeCtx)
    (put : State → ModeCtx → State) : Prop where
  result : ∀ d o s, resultOf (bytes d o) s = bytesFrame (get s) (put s) (blockStep k s.params.ctrOrder (get s) d) d o
  get_put : ∀ s m unit op ilen out, get ((put s m).completed unit op ilen out) = m
  params_put : ∀ s m unit op ilen out, ((put s m).completed unit op ilen out).params = s.params
  put_put : ∀ s m m' unit op ilen out,
    put ((put s m).completed unit op ilen out) m' = (put s m').completed unit op ilen out

theorem bytesCommand_cfb : BytesCommand .cfb .cfbBytes State.cfb State.withCfb where
  result _ _ _ := rfl
  get_put _ _ _ _ _ _ := rfl
  params_put _ _ _ _ _ _ := rfl
  put_put _ _ _ _ _ _ _ := rfl

theorem bytesCommand_ofb : BytesCommand .ofb .ofbBytes State.ofb State.withOfb where
  result _ _ _ := rfl
  get_put _ _ _ _ _ _ := rfl
  params_put _ _ _ _ _ _ := rfl
  put_put _ _ _ _ _ _ _ := rfl

theorem bytesCommand_ctr : BytesCommand .ctr .ctrBytes State.ctr State.withCtr where
  result _ _ _ := rfl
  get_put _ _ _ _ _ _ := rfl
  params_put _ _ _ _ _ _ := rfl
  put_put _ _ _ _ _ _ _ := rfl

/-- A BYTES command on a joined message can be split: the second part finds the context that the first one left. -/
theorem BytesCommand.split {k : Kind} {bytes : Bytes → BitVec 24 → Instr} {get : State → ModeCtx}
    {put : State → ModeCtx → State} (hc : BytesCommand k bytes get put) (hk : k = .cfb ∨ k = .ofb ∨ k = .ctr)
    {s t : State} {a b out : Bytes} {o : BitVec 24} (h : AnswersOk (bytes (a ++ b) o) s t out) :
    ∃ u v x y, AnswersOk (bytes a o) s u x ∧ AnswersOk (bytes b o) u v y ∧ x ++ y = out ∧
      { v with cp := t.cp, rs := t.rs } = t := by
  obtain ⟨ho, hin, m, hrun, rfl⟩ := (answersOk_bytesFrame_iff (hc.result _ o s)).mp h
  rw [List.length_append] at ho
  rw [blockStep_append hk, Option.bind_eq_some_iff] at hrun
  obtain ⟨⟨m1, x⟩, ha, hrun⟩ := hrun
  obtain ⟨⟨m2, y⟩, hb, heq⟩ := Option.map_eq_some_iff.mp hrun
  cases heq
  have hin1 : m1.inited = true := by rw [blockStep_frame ha]; exact hin
  refine ⟨_, _, x, y, (answersOk_bytesFrame_iff (hc.result a o s)).mpr ⟨by omega, hin, m1, ha, rfl⟩,
    (answersOk_bytesFrame_iff (hc.result b o _)).mpr ⟨by omega, ?_, m2, ?_, rfl⟩, rfl, ?_⟩
  · rwa [hc.get_put]
  · rwa [hc.get_put, hc.params_put]
  · rw [hc.put_put]; rfl

/-- Settles O34: the three commands are `BytesCommand`s, and these can be split. -/
theorem splittingAModeStreamChangesNothing : Obligations.SplittingAModeStreamChangesNothing := by
  rintro s t a b out o bytes (rfl | rfl | rfl) h
  · exact bytesCommand_cfb.split (by decide) h
  · exact bytesCommand_ofb.split (by decide) h
  · exact bytesCommand_ctr.split (by decide) h

end Sys2Proof.Machine
end

section
/-! The counters of units CTR and GCM and the length block as big-endian byte strings (44_ctr.md R201, 45_gcm.md R221,
R226). -/

namespace Sys2Proof.Machine

open Sys2Proof.Config

/-- Only the low `8k` bits of a number reach its `k` big-endian bytes. -/
theorem beBytes_eq_iff {k m n : Nat} : beBytes k m = beBytes k n ↔ m % 256 ^ k = n % 256 ^ k := by
  rw [← beNat_beBytes, ← beNat_beBytes]
  exact ⟨congrArg beNat, beNat_inj (by simp)⟩

/-- The last `l` bytes hold the remainder modulo `256^l`, the ones before them the quotient. -/
theorem beBytes_add (k l n : Nat) : beBytes (k + l) n = beBytes k (n / 256 ^ l) ++ beBytes l n := by
  apply beNat_inj (by simp)
  rw [beNat_append, beBytes_length, beNat_beBytes, beNat_beBytes, beNat_beBytes, Nat.add_comm k l, pow_add, Nat.mod_mul]
  ring

/-- Two words joined have the bytes of both. -/
theorem beBytes_append_toNat {m n : Nat} (x : BitVec m) (y : BitVec n) (k l : Nat) (hn : n = 8 * l) :
    beBytes (k + l) (x ++ y).toNat = beBytes k x.toNat ++ beBytes l y.toNat := by
  have hpow : 2 ^ n = 256 ^ l := by rw [hn, pow_mul]; norm_num
  have hy : y.toNat < 256 ^ l := hpow ▸ y.isLt
  have hlow : beBytes l (x.toNat * 256 ^ l + y.toNat) = beBytes l y.toNat :=
    beBytes_eq_iff.mpr (Nat.mul_add_mod_self_right ..)
  rw [toNat_append_eq, hpow, beBytes_add, hlow, Nat.mul_comm, Nat.mul_add_div (by positivity),
    Nat.div_eq_of_lt hy, Nat.add_zero]

theorem beNat_bytesOfBlock (b : Block) : beNat (bytesOfBlock b) = b.toNat := by
  rw [bytesOfBlock, beNat_beBytes]
  exact Nat.mod_eq_of_lt b.isLt

/-- The first `n` bytes of a block hold its quotient by `256^(16 - n)`, the others the remainder. -/
theorem bytesOfBlock_cut (b : Block) {n : Nat} (hn : n ≤ 16) :
    bytesOfBlock b = beBytes n (b.toNat / 256 ^ (16 - n)) ++ beBytes (16 - n) b.toNat := by
  rw [← beBytes_add, Nat.add_sub_cancel' hn, bytesOfBlock, bs]

theorem take_bytesOfBlock (b : Block) {n : Nat} (hn : n ≤ 16) :
    (bytesOfBlock b).take n = beBytes n (b.toNat / 256 ^ (16 - n)) := by
  rw [bytesOfBlock_cut b hn, List.take_left' (beBytes_length ..)]

theorem drop_bytesOfBlock (b : Block) {n : Nat} (hn : n ≤ 16) :
    (bytesOfBlock b).drop n = beBytes (16 - n) b.toNat := by
  rw [bytesOfBlock_cut b hn, List.drop_left' (beBytes_length ..)]

theorem bytesOfBlock_inc128 (r : Block) : bytesOfBlock (inc128 r) = beBytes 16 (beNat (bytesOfBlock r) + 1) := by
  rw [beNat_bytesOfBlock]
  exact beBytes_eq_iff.mpr (by rw [inc128, BitVec.toNat_add]; exact Nat.mod_mod ..)

/-- The counter is the last 4 bytes alone (R221). -/
theorem bytesOfBlock_inc32 (b : Block) :
    bytesOfBlock (inc32 b) = (bytesOfBlock b).take 12 ++ beBytes 4 (beNat ((bytesOfBlock b).drop 12) + 1) := by
  rw [take_bytesOfBlock b (by decide), drop_bytesOfBlock b (by decide), beNat_beBytes]
  have hhigh : (b.extractLsb' 32 96).toNat % 256 ^ 12 = b.toNat / 256 ^ (16 - 12) % 256 ^ 12 := by
    simp [Nat.shiftRight_eq_div_pow]
  have hlow : (b.extractLsb' 0 32 + 1).toNat % 256 ^ 4 = (b.toNat % 256 ^ (16 - 12) + 1) % 256 ^ 4 := by
    simp [BitVec.toNat_add]
  rw [← beBytes_eq_iff.mpr hhigh, ← beBytes_eq_iff.mpr hlow]
  exact beBytes_append_toNat (b.extractLsb' 32 96) (b.extractLsb' 0 32 + 1) 12 4 rfl

theorem bytesOfBlock_lenBlock (a c : Nat) : bytesOfBlock (lenBlock a c) = beBytes 8 (8 * a) ++ beBytes 8 (8 * c) := by
  have hword (n : Nat) : beBytes 8 (BitVec.ofNat 64 n).toNat = beBytes 8 n :=
    beBytes_eq_iff.mpr (Nat.mod_mod n (2 ^ 64))
  rw [← hword (8 * a), ← hword (8 * c)]
  exact beBytes_append_toNat (BitVec.ofNat 64 (8 * a)) (BitVec.ofNat 64 (8 * c)) 8 8 rfl

/-- Settles O36, by the byte form of each of the three blocks. -/
theorem counterAndLengthBlocks : Obligations.CounterAndLengthBlocks :=
  ⟨bytesOfBlock_inc128, bytesOfBlock_inc32, bytesOfBlock_lenBlock⟩

end Sys2Proof.Machine
end

section
/-! The byte step of CTR (44_ctr.md R203, R204), and CTR.BLOCK and CTR.BYTES around it (R208, R209). -/

namespace Sys2Proof.Machine

open Sys2Proof.Config

/-! ## The byte step (R203, R204) -/

theorem ctrDrifted_iff (m : ModeCtx) :
    ctrDrifted m = true ↔ m.n < 16 ∧ (bytesOfBlock m.r).take m.n ≠ (bytesOfBlock m.iv).take m.n := by
  rw [ctrDrifted, Bool.and_eq_true, decide_eq_true_iff, bne_iff_ne]
  rfl

/-- Inside a block the step takes the next keystream byte; the last one of a block moves the counter on under
`ENC_FIRST`. -/
theorem ctrByteStep_inside (order : CtrOrder) {m : ModeCtx} (b : Byte) (hcur : m.cur ≠ 0) :
    ctrByteStep order m b = some
      (if m.cur + 1 = 16 then { m with cur := 0, r := if order = .encFirst then m.r + 1 else m.r }
       else { m with cur := m.cur + 1 }, blockByte m.ks m.cur ^^^ b) := by
  rw [ctrByteStep, if_neg hcur]
  rfl

/-- At the start of a block the step checks and encrypts the block's counter, which is the next one under
`INC_FIRST`. -/
theorem ctrByteStep_open (order : CtrOrder) {m : ModeCtx} (b : Byte) (hcur : m.cur = 0) {r : Block}
    (hr : r = if order = .incFirst then m.r + 1 else m.r) :
    ctrByteStep order m b =
      if m.n < 16 ∧ (bytesOfBlock r).take m.n ≠ (bytesOfBlock m.iv).take m.n then none
      else some ({ m with r := r, ks := bcEnc m.key r, cur := 1 }, blockByte (bcEnc m.key r) 0 ^^^ b) := by
  have hopen : ctrOpenBlock order m =
      if ctrDrifted { m with r := r } then none else some { m with r := r, ks := bcEnc m.key r } := by
    rw [hr]; rfl
  rw [ctrByteStep, if_pos hcur, hopen]
  by_cases hd : ctrDrifted { m with r := r } = true
  · rw [if_pos hd, if_pos ((ctrDrifted_iff _).mp hd)]
  · rw [if_neg hd, if_neg (hd ∘ (ctrDrifted_iff _).mpr)]
    simp [ctrEmit, bs, hcur]

/-! ## The frame of a data command (R208, R209) -/

/-- How a data command of unit CTR ends once its checks have passed. -/
def ctrEnd (i : Instr) (s : State) : Option (ModeCtx × Bytes) → State
  | none => s.haltedBy i.unit i.op 0x87
  | some (m, out) => (s.withCtr m).completed i.unit i.op i.ilen out

/-- A data command of unit CTR with the buffer check `c` and the data path `r`. -/
theorem exec_ctrData {i : Instr} {s : State} {c : Prop} [Decidable c] {r : Option (ModeCtx × Bytes)}
    (hi : resultOf i s =
      if c then .fatal .bufLen else if s.ctr.inited then dataResult s.withCtr r else .err .uninit) :
    exec i s = .next
      (if c then s.haltedBy i.unit i.op 0x82
       else if s.ctr.inited = false then s.errored i.unit i.op i.ilen 0x10
       else ctrEnd i s r) := by
  rw [exec_eq_respond, hi]
  by_cases hc : c
  · rw [if_pos hc, if_pos hc]; exact respond_fatal i s .bufLen
  · rw [if_neg hc, if_neg hc]
    cases s.ctr.inited with
    | false => exact respond_err i s .uninit
    | true =>
      cases r with
      | none => exact respond_fatal i s .ctrDrift
      | some x => exact respond_ok i s (s.withCtr x.1) x.2

theorem exec_ctrBlock (d : Bytes) (o : BitVec 24) (s : State) :
    exec (.ctrBlock d o) s = .next
      (if d.length < 16 ∨ o.toNat < 16 then s.haltedBy 6 3 0x82
       else if s.ctr.inited = false then s.errored 6 3 d.length 0x10
       else ctrEnd (.ctrBlock d o) s (ctrBytes s.params.ctrOrder s.ctr (d.take 16))) :=
  exec_ctrData rfl

theorem exec_ctrBytes (d : Bytes) (o : BitVec 24) (s : State) :
    exec (.ctrBytes d o) s = .next
      (if o.toNat < d.length then s.haltedBy 6 4 0x82
       else if s.ctr.inited = false then s.errored 6 4 d.length 0x10
       else ctrEnd (.ctrBytes d o) s (ctrBytes s.params.ctrOrder s.ctr d)) :=
  exec_ctrData rfl

/-- Settles O32: the two frames, the loop's own equations, and the byte step by its cursor. -/
theorem counterDataCommands : Obligations.CounterDataCommands :=
  ⟨fun d o s => ⟨exec_ctrBlock d o s, exec_ctrBytes d o s⟩, ctrBytes_nil, fun _ _ _ _ => rfl,
    fun order _ b => ctrByteStep_inside order b, fun order _ b hcur => ctrByteStep_open order b hcur rfl⟩

end Sys2Proof.Machine
end

section
/-! The keystream of CTR from any cursor, and exactly when a command of the unit drifts (44_ctr.md R201, R203, R204,
R208, R209). -/

namespace Sys2Proof.Machine

open Sys2Proof.Config

/-! ## Positions in the keystream, counted from the start of the block under the cursor -/

/-- The keystream block that holds position `p`: the open one while it lasts, then an encrypted counter. -/
def ctrStream (order : CtrOrder) (m : ModeCtx) (p : Nat) : Block :=
  if m.cur ≠ 0 ∧ p < 16 then m.ks else bcEnc m.key (ctrCounter order m (p / 16))

/-- The counter of block `j` fails the drift check. -/
abbrev CtrDriftsAt (order : CtrOrder) (m : ModeCtx) (j : Nat) : Prop :=
  m.n < 16 ∧ (bytesOfBlock (ctrCounter order m j)).take m.n ≠ (bytesOfBlock m.iv).take m.n

theorem ctrCrypt_append_singleton (order : CtrOrder) (m : ModeCtx) (d : Bytes) (b : Byte) :
    ctrCrypt order m (d ++ [b]) =
      ctrCrypt order m d ++ [blockByte (ctrStream order m (m.cur + d.length)) ((m.cur + d.length) % 16) ^^^ b] := by
  have hold : ∀ i ∈ List.range d.length, (d ++ [b]).getD i 0 = d.getD i 0 := fun i hi => by
    rw [List.getD_append _ _ _ _ (List.mem_range.mp hi)]
  have hnew : (d ++ [b]).getD d.length 0 = b := by simp
  rw [ctrCrypt, List.length_append, List.length_singleton, List.range_succ, List.map_append, List.map_singleton, hnew,
    BitVec.xor_comm b]
  exact congrArg (· ++ _) (List.map_congr_left fun i hi => by rw [hold i hi])

/-- One byte more drifts no earlier, unless it opens a block whose counter fails the check. -/
theorem ctrDrifts_succ (order : CtrOrder) (m : ModeCtx) (len : Nat) :
    CtrDrifts order m (len + 1) ↔
      CtrDrifts order m len ∨ (m.cur + len) % 16 = 0 ∧ CtrDriftsAt order m ((m.cur + len) / 16) := by
  constructor
  · rintro ⟨hn, j, ⟨hfirst, hj⟩, hd⟩
    by_cases hlt : 16 * j < m.cur + len
    · exact .inl ⟨hn, j, ⟨hfirst, hlt⟩, hd⟩
    · obtain rfl : j = (m.cur + len) / 16 := by omega
      exact .inr ⟨by omega, hn, hd⟩
  · rintro (⟨hn, j, ⟨hfirst, hj⟩, hd⟩ | ⟨hopen, hn, hd⟩)
    · exact ⟨hn, j, ⟨hfirst, by omega⟩, hd⟩
    · exact ⟨hn, _, ⟨by omega, by omega⟩, hd⟩

/-! ## The context after `len` bytes -/

/-- How far the register has moved after `len` bytes. -/
def ctrCount (order : CtrOrder) (m : ModeCtx) (len : Nat) : Nat :=
  if order = .incFirst then (m.cur + len + 15) / 16 - (m.cur + 15) / 16 else (m.cur + len) / 16

theorem ctrCount_incFirst (m : ModeCtx) (len : Nat) :
    ctrCount .incFirst m len = (m.cur + len + 15) / 16 - (m.cur + 15) / 16 := rfl

theorem ctrCount_encFirst (m : ModeCtx) (len : Nat) : ctrCount .encFirst m len = (m.cur + len) / 16 := rfl

theorem ctrAfter_r (order : CtrOrder) (m : ModeCtx) (len : Nat) :
    (ctrAfter order m len).r = m.r + BitVec.ofNat 128 (ctrCount order m len) := rfl

theorem ctrAfter_cur (order : CtrOrder) (m : ModeCtx) (len : Nat) :
    (ctrAfter order m len).cur = (m.cur + len) % 16 := rfl

theorem ctrCount_zero (order : CtrOrder) {m : ModeCtx} (hcur : m.cur < 16) : ctrCount order m 0 = 0 := by
  cases order with
  | incFirst => exact Nat.sub_self _
  | encFirst => exact Nat.div_eq_of_lt hcur

theorem ctrAfter_r_succ {order : CtrOrder} {m : ModeCtx} {len : Nat} {c : Prop} [Decidable c]
    (hcount : ctrCount order m (len + 1) = ctrCount order m len + if c then 1 else 0) :
    (ctrAfter order m (len + 1)).r = if c then (ctrAfter order m len).r + 1 else (ctrAfter order m len).r := by
  rw [ctrAfter_r, ctrAfter_r, hcount]
  split
  · rw [BitVec.ofNat_add, ← BitVec.add_assoc]; rfl
  · rw [Nat.add_zero]

/-- A byte inside a block moves the register on when it ends the block under `ENC_FIRST`. -/
theorem ctrAfter_r_succ_of_inside (order : CtrOrder) {m : ModeCtx} {len : Nat} (hin : (m.cur + len) % 16 ≠ 0) :
    (ctrAfter order m (len + 1)).r =
      if (m.cur + len) % 16 + 1 = 16 ∧ order = .encFirst then (ctrAfter order m len).r + 1
      else (ctrAfter order m len).r := by
  apply ctrAfter_r_succ
  cases order with
  | incFirst => rw [ctrCount_incFirst, ctrCount_incFirst, if_neg fun h => nomatch h.2]; omega
  | encFirst => simp only [ctrCount_encFirst, and_true]; split <;> omega

/-- A byte that opens a block moves the register on under `INC_FIRST`. -/
theorem ctrAfter_r_succ_of_open (order : CtrOrder) {m : ModeCtx} {len : Nat} (hopen : (m.cur + len) % 16 = 0) :
    (ctrAfter order m (len + 1)).r =
      if order = .incFirst then (ctrAfter order m len).r + 1 else (ctrAfter order m len).r := by
  apply ctrAfter_r_succ
  cases order with
  | incFirst => rw [ctrCount_incFirst, ctrCount_incFirst, if_pos rfl]; omega
  | encFirst => rw [ctrCount_encFirst, ctrCount_encFirst, if_neg nofun]; omega

/-- A byte that opens a block leaves the counter of that block's number in the register. -/
theorem ctrAfter_r_eq_ctrCounter (order : CtrOrder) {m : ModeCtx} {len : Nat} (hcur : m.cur < 16)
    (hopen : (m.cur + len) % 16 = 0) :
    (ctrAfter order m (len + 1)).r = ctrCounter order m ((m.cur + len) / 16) := by
  have hcount : ctrCount order m (len + 1) =
      (m.cur + len) / 16 + if m.cur = 0 ∧ order = .incFirst then 1 else 0 := by
    cases order with
    | incFirst => simp only [ctrCount_incFirst, and_true]; split <;> omega
    | encFirst => rw [ctrCount_encFirst, if_neg fun h => nomatch h.2]; omega
  rw [ctrAfter_r, hcount, ctrCounter]

theorem ctrAfter_zero (order : CtrOrder) {m : ModeCtx} (hcur : m.cur < 16) : ctrAfter order m 0 = m := by
  have hr : (ctrAfter order m 0).r = m.r := by rw [ctrAfter_r, ctrCount_zero order hcur]; simp
  have hc : (ctrAfter order m 0).cur = m.cur := Nat.mod_eq_of_lt hcur
  calc ctrAfter order m 0 = { m with r := (ctrAfter order m 0).r, cur := (ctrAfter order m 0).cur } := rfl
    _ = m := by rw [hr, hc]

/-- The keystream block of the context is the one that holds the last byte. -/
theorem ctrAfter_ks_succ (order : CtrOrder) (m : ModeCtx) (len : Nat) :
    (ctrAfter order m (len + 1)).ks = ctrStream order m (m.cur + len) := by
  have hopen : len + 1 = 0 ∨ m.cur ≠ 0 ∧ m.cur + len + 1 ≤ 16 ↔ m.cur ≠ 0 ∧ m.cur + len < 16 := by omega
  simp only [ctrAfter, ctrStream, ← Nat.add_assoc, Nat.add_sub_cancel, hopen]

/-- Inside a block the keystream block of the context holds the next byte too. -/
theorem ctrAfter_ks_of_inside (order : CtrOrder) {m : ModeCtx} {len : Nat} (hcur : m.cur < 16)
    (hin : (m.cur + len) % 16 ≠ 0) : (ctrAfter order m len).ks = ctrStream order m (m.cur + len) := by
  cases len with
  | zero => rw [ctrAfter_zero order hcur, ctrStream, if_pos (by omega)]
  | succ n =>
    have hblock : (m.cur + (n + 1)) / 16 = (m.cur + n) / 16 := by omega
    have hopen : m.cur ≠ 0 ∧ m.cur + (n + 1) < 16 ↔ m.cur ≠ 0 ∧ m.cur + n < 16 := by omega
    rw [ctrAfter_ks_succ]
    simp only [ctrStream, hblock, hopen]

/-- The context after one byte more, by its register, keystream block and cursor. -/
theorem ctrAfter_succ (order : CtrOrder) (m : ModeCtx) (len : Nat) :
    ctrAfter order m (len + 1) =
      { m with r := (ctrAfter order m (len + 1)).r,
               ks := ctrStream order m (m.cur + len), cur := (m.cur + len + 1) % 16 } := by
  rw [← ctrAfter_ks_succ]
  rfl

/-! ## The byte step after `len` bytes -/

/-- The answer to the byte `b` after `len` bytes without drift. -/
abbrev ctrNext (order : CtrOrder) (m : ModeCtx) (len : Nat) (b : Byte) : ModeCtx × Byte :=
  (ctrAfter order m (len + 1), blockByte (ctrStream order m (m.cur + len)) ((m.cur + len) % 16) ^^^ b)

theorem ctrByteStep_ctrAfter_inside (order : CtrOrder) {m : ModeCtx} {len : Nat} (b : Byte) (hcur : m.cur < 16)
    (hin : (m.cur + len) % 16 ≠ 0) :
    ctrByteStep order (ctrAfter order m len) b = some (ctrNext order m len b) := by
  rw [ctrByteStep_inside order b hin, ctrAfter_ks_of_inside order hcur hin, ctrNext, ctrAfter_succ,
    ctrAfter_r_succ_of_inside order hin, ctrAfter_cur]
  by_cases hlast : (m.cur + len) % 16 + 1 = 16
  · have hnext : (m.cur + len + 1) % 16 = 0 := by omega
    simp only [hlast, hnext, if_true, true_and]; rfl
  · have hnext : (m.cur + len + 1) % 16 = (m.cur + len) % 16 + 1 := by omega
    simp only [hlast, hnext, if_false, false_and]; rfl

/-- Where the byte step after `len` bytes opens a block, it checks and encrypts the counter of that block's number. -/
theorem ctrByteStep_ctrAfter_open (order : CtrOrder) {m : ModeCtx} {len : Nat} (b : Byte) (hcur : m.cur < 16)
    (hopen : (m.cur + len) % 16 = 0) :
    ctrByteStep order (ctrAfter order m len) b =
      if CtrDriftsAt order m ((m.cur + len) / 16) then none else some (ctrNext order m len b) := by
  have hstream : ctrStream order m (m.cur + len) = bcEnc m.key (ctrCounter order m ((m.cur + len) / 16)) :=
    if_neg (by omega)
  have hnext : (m.cur + len + 1) % 16 = 1 := by omega
  rw [ctrByteStep_open order b hopen ((ctrAfter_r_eq_ctrCounter order hcur hopen).symm.trans
    (ctrAfter_r_succ_of_open order hopen)), ctrNext, ctrAfter_succ, ctrAfter_r_eq_ctrCounter order hcur hopen, hstream,
    hnext, hopen]
  rfl

/-! ## The bytes of a sequence -/

theorem ctrByteStep_ctrAfter_of_not_drifts {order : CtrOrder} {m : ModeCtx} {len : Nat} (b : Byte) (hcur : m.cur < 16)
    (hd : ¬ CtrDrifts order m (len + 1)) :
    ctrByteStep order (ctrAfter order m len) b = some (ctrNext order m len b) := by
  rw [ctrDrifts_succ, not_or] at hd
  by_cases hopen : (m.cur + len) % 16 = 0
  · rw [ctrByteStep_ctrAfter_open order b hcur hopen, if_neg fun h => hd.2 ⟨hopen, h⟩]
  · exact ctrByteStep_ctrAfter_inside order b hcur hopen

theorem ctrBytes_singleton (order : CtrOrder) (m : ModeCtx) (b : Byte) :
    ctrBytes order m [b] = (ctrByteStep order m b).map fun x => (x.1, [x.2]) := by
  rw [ctrBytes_cons]
  cases ctrByteStep order m b <;> rfl

/-- Without drift the data path answers the XOR with the keystream (R204). -/
theorem ctrBytes_of_not_drifts {order : CtrOrder} {m : ModeCtx} {d : Bytes} (hcur : m.cur < 16)
    (hd : ¬ CtrDrifts order m d.length) :
    ctrBytes order m d = some (ctrAfter order m d.length, ctrCrypt order m d) := by
  induction d using List.reverseRecOn with
  | nil => rw [List.length_nil, ctrAfter_zero order hcur]; rfl
  | append_singleton d b ih =>
    rw [List.length_append, List.length_singleton] at hd ⊢
    have hstep := ctrByteStep_ctrAfter_of_not_drifts b hcur hd
    rw [ctrDrifts_succ, not_or] at hd
    rw [ctrBytes_append, ih hd.1, Option.bind_some, ctrBytes_singleton, hstep, ctrCrypt_append_singleton]
    rfl

/-- With drift the data path answers nothing (R203). -/
theorem ctrBytes_of_drifts {order : CtrOrder} {m : ModeCtx} {d : Bytes} (hcur : m.cur < 16)
    (hd : CtrDrifts order m d.length) : ctrBytes order m d = none := by
  induction d using List.reverseRecOn with
  | nil =>
    obtain ⟨_, j, ⟨hfirst, hj⟩, _⟩ := hd
    have hlt : 16 * j < m.cur := hj
    omega
  | append_singleton d b ih =>
    rw [ctrBytes_append]
    by_cases hold : CtrDrifts order m d.length
    · rw [ih hold, Option.bind_none]
    · rw [List.length_append, List.length_singleton, ctrDrifts_succ] at hd
      obtain ⟨hopen, hat⟩ := hd.resolve_left hold
      rw [ctrBytes_of_not_drifts hcur hold, Option.bind_some, ctrBytes_singleton,
        ctrByteStep_ctrAfter_open order b hcur hopen, if_pos hat]
      rfl

/-! ## Drift as overflow of the free counter bytes (R203) -/

theorem toNat_div_lt (b : Block) {n : Nat} (hn : n ≤ 16) : b.toNat / 256 ^ (16 - n) < 256 ^ n := by
  rw [Nat.div_lt_iff_lt_mul (by positivity), ← pow_add, Nat.add_sub_cancel' hn]
  exact b.isLt

/-- The first `n` bytes of two blocks agree exactly when the quotients by `256^(16 - n)` do. -/
theorem take_bytesOfBlock_eq_iff {a b : Block} {n : Nat} (hn : n ≤ 16) :
    (bytesOfBlock a).take n = (bytesOfBlock b).take n ↔
      a.toNat / 256 ^ (16 - n) = b.toNat / 256 ^ (16 - n) := by
  rw [take_bytesOfBlock a hn, take_bytesOfBlock b hn, beBytes_eq_iff, Nat.mod_eq_of_lt (toNat_div_lt a hn),
    Nat.mod_eq_of_lt (toNat_div_lt b hn)]

/-- The leading bytes of a counter that has moved on by `c` change by the carry out of its other bytes. -/
theorem toNat_add_ofNat_div (r : Block) (c : Nat) {n : Nat} (hn : n ≤ 16) :
    (r + BitVec.ofNat 128 c).toNat / 256 ^ (16 - n) =
      (r.toNat / 256 ^ (16 - n) + (r.toNat % 256 ^ (16 - n) + c) / 256 ^ (16 - n)) % 256 ^ n := by
  have hpow : 2 ^ 128 = 256 ^ (16 - n) * 256 ^ n := by
    rw [← pow_add, Nat.sub_add_cancel hn]; norm_num
  have hsplit : r.toNat + c =
      256 ^ (16 - n) * (r.toNat / 256 ^ (16 - n)) + (r.toNat % 256 ^ (16 - n) + c) := by
    rw [← Nat.add_assoc, Nat.div_add_mod]
  rw [BitVec.toNat_add, BitVec.toNat_ofNat, Nat.add_mod_mod, hpow, Nat.mod_mul_right_div_self, hsplit,
    Nat.mul_add_div (by positivity)]

theorem take_add_ofNat_of_lt {r : Block} {c n : Nat} (hn : n ≤ 16)
    (hc : r.toNat % 256 ^ (16 - n) + c < 256 ^ (16 - n)) :
    (bytesOfBlock (r + BitVec.ofNat 128 c)).take n = (bytesOfBlock r).take n := by
  rw [take_bytesOfBlock_eq_iff hn, toNat_add_ofNat_div r c hn, Nat.div_eq_of_lt hc, Nat.add_zero,
    Nat.mod_eq_of_lt (toNat_div_lt r hn)]

theorem take_add_ofNat_ne_of_carry {r : Block} {c n : Nat} (hpos : 0 < n) (hn : n ≤ 16)
    (hc : r.toNat % 256 ^ (16 - n) + c = 256 ^ (16 - n)) :
    (bytesOfBlock (r + BitVec.ofNat 128 c)).take n ≠ (bytesOfBlock r).take n := by
  have hlt := toNat_div_lt r hn
  have hone : 1 < 256 ^ n := Nat.one_lt_pow (by omega) (by norm_num)
  rw [Ne, take_bytesOfBlock_eq_iff hn, toNat_add_ofNat_div r c hn, hc, Nat.div_self (by positivity)]
  rcases Nat.lt_or_eq_of_le (Nat.succ_le_of_lt hlt) with h | h
  · rw [Nat.mod_eq_of_lt h]; omega
  · rw [← Nat.succ_eq_add_one, h, Nat.mod_self]; omega

/-- From an intact nonce of fewer than 16 bytes there is drift exactly when the counter of the last block overflows the
free bytes. -/
theorem ctrDrifts_iff_overflow {order : CtrOrder} {m : ModeCtx} {len : Nat} (hpos : 0 < m.n) (hn : m.n < 16)
    (hiv : m.r.toNat / 256 ^ (16 - m.n) = m.iv.toNat / 256 ^ (16 - m.n)) (hlen : 0 < len) :
    CtrDrifts order m len ↔
      256 ^ (16 - m.n) ≤ m.r.toNat % 256 ^ (16 - m.n) +
        (if m.cur = 0 ∧ order = .incFirst then 1 else 0) + (m.cur + len - 1) / 16 := by
  have hnonce : (bytesOfBlock m.iv).take m.n = (bytesOfBlock m.r).take m.n :=
    (take_bytesOfBlock_eq_iff hn.le).mpr hiv.symm
  have hfree : m.r.toNat % 256 ^ (16 - m.n) < 256 ^ (16 - m.n) := Nat.mod_lt _ (by positivity)
  have hsame {c : Nat} := take_add_ofNat_of_lt (r := m.r) (c := c) hn.le
  have hcarry {c : Nat} := take_add_ofNat_ne_of_carry (r := m.r) (c := c) hpos hn.le
  have hfirst : (if m.cur = 0 ∧ order = .incFirst then 1 else 0) = 0 ∨
      m.cur = 0 ∧ (if m.cur = 0 ∧ order = .incFirst then 1 else 0) = 1 := by
    split
    next h => exact .inr ⟨h.1, rfl⟩
    next => exact .inl rfl
  simp only [CtrDrifts, ctrCounter, hnonce]
  generalize 256 ^ (16 - m.n) = free at *
  generalize (if m.cur = 0 ∧ order = .incFirst then 1 else 0) = first at *
  constructor
  · rintro ⟨-, j, ⟨-, hj⟩, hd⟩
    by_contra hno
    exact hd (hsame (by omega))
  · intro hover
    exact ⟨hn, free - m.r.toNat % free - first, ⟨by omega, by omega⟩, hcarry (by omega)⟩

/-! ## The two commands -/

/-- Settles O33: the data path without and with drift (`ctrBytes_of_not_drifts`, `ctrBytes_of_drifts`) inside the frames
of the two commands, and drift as an overflow (`ctrDrifts_iff_overflow`). -/
theorem counterModeKeystream : Obligations.CounterModeKeystream := by
  intro s d o hin hcur hn order
  have hinited : ¬ s.ctr.inited = false := by simp [hin]
  refine ⟨fun ho => ?_, fun hd ho => ?_, fun hn16 len hd => absurd hd.1 (by omega), ?_⟩
  · rw [exec_ctrBytes, if_neg (by omega), if_neg hinited]
    exact ⟨fun h => by rw [ctrBytes_of_drifts hcur h]; rfl, fun h => by rw [ctrBytes_of_not_drifts hcur h]; rfl⟩
  · have hlen : (d.take 16).length = 16 := by simp [hd]
    rw [exec_ctrBlock, if_neg (by omega), if_neg hinited]
    exact ⟨fun h => by rw [ctrBytes_of_drifts hcur (hlen.symm ▸ h)]; rfl,
      fun h => by rw [ctrBytes_of_not_drifts hcur (hlen.symm ▸ h), hlen]; rfl⟩
  · intro hn8 hlt free first hiv len hlen
    exact ctrDrifts_iff_overflow (by omega) hlt hiv hlen

end Sys2Proof.Machine
end

section
/-! The end of a command as one state, and the commands of unit GCM check by check (45_gcm.md R229, R231, R232, R238), with
BPC.OSIZE (46_bpc.md R268). -/

namespace Sys2Proof.Machine

open Sys2Proof.Config

/-- The state in which the command `i`, begun in `s`, leaves the engine when its rule ends in this result. -/
def CmdResult.finish (i : Instr) (s : State) : CmdResult → State
  | .ok t out => t.completed i.unit i.op i.ilen out
  | .err e => s.errored i.unit i.op i.ilen e.code
  | .fatal f => s.haltedBy i.unit i.op f.code

theorem exec_eq_finish (i : Instr) (s : State) : exec i s = .next ((resultOf i s).finish i s) := by
  rw [exec_eq_respond]
  cases resultOf i s with
  | ok t out => exact respond_ok i s t out
  | err e => exact respond_err i s e
  | fatal f => exact respond_fatal i s f

/-! ## GCM.INIT (R222, R229) -/

/-- The closing length block of a nonce: no associated data, its own length as the data's (R222). -/
theorem lenBlock_zero_left (n : Nat) : lenBlock 0 n = blockOfBytes (zeros 8 ++ beBytes 8 (8 * n)) := by
  rw [← blockOfBytes_bytesOfBlock (lenBlock 0 n), bytesOfBlock_lenBlock]; rfl

theorem deriveJ0_eq (nonce : Bytes) (h : Block) :
    deriveJ0 nonce h =
      if nonce.length = 12 then blockOfBytes (nonce ++ [0x00, 0x00, 0x00, 0x01])
      else ghashBlock (ghash 0 nonce h) (blockOfBytes (zeros 8 ++ beBytes 8 (8 * nonce.length))) h := by
  rw [deriveJ0, lenBlock_zero_left]

theorem gcmMacLegal_eq_false_iff (bits : Nat) :
    gcmMacLegal bits = false ↔ bits < 32 ∨ 128 < bits ∨ bits % 8 ≠ 0 := by
  rw [← Bool.not_eq_true, gcmMacLegal_iff]; omega

theorem exec_gcmInit (dir : Bool) (t : PType) (s : State) :
    exec (.gcmInit dir t) s = .next
      (if t ≠ .aead ∧ t ≠ .keyIv then s.haltedBy 7 1 0x85
       else if s.p.keyv = false ∨ bcKeyOk s.p.key = false then s.haltedBy 7 1 0x89
       else if s.p.ivv = false ∨ s.p.iv = [] then s.haltedBy 7 1 0x83
       else if gcmMacBits t s.p < 32 ∨ 128 < gcmMacBits t s.p ∨ gcmMacBits t s.p % 8 ≠ 0 then s.haltedBy 7 1 0x88
       else if t = .aead ∧ s.p.aadv = true then
         (s.withG (aadAbsorb (gcmOpen dir t s.p) s.p.aad)).completed 7 1 0 []
       else (s.withG (gcmOpen dir t s.p)).completed 7 1 0 []) := by
  rw [exec_eq_finish, resultOf, gcmInitResult]
  simp only [apply_ite (CmdResult.finish (.gcmInit dir t) s), Bool.or_eq_true, Bool.not_eq_true', decide_eq_true_eq,
    Nat.lt_one_iff, List.length_eq_zero_iff, gcmMacLegal_eq_false_iff]
  rfl

/-- Settles O35: the two forms of the initial counter block (`deriveJ0_eq`) and the checks of `exec_gcmInit`. -/
theorem gcmInitOpensASession : Obligations.GcmInitOpensASession :=
  ⟨deriveJ0_eq, exec_gcmInit⟩

/-! ## GCM.AAD and GCM.BYTES (R231, R232) -/

theorem exec_gcmAad (d : Bytes) (s : State) :
    exec (.gcmAad d) s = .next
      (if s.g.inited = false then s.errored 7 5 d.length 0x10
       else if s.g.started = true then s.errored 7 5 d.length 0x16
       else (s.withG (aadAbsorb s.g d)).completed 7 5 d.length []) := by
  rw [exec_eq_finish, resultOf, gcmAadResult]
  simp only [apply_ite (CmdResult.finish (.gcmAad d) s), Bool.not_eq_true']
  rfl

theorem exec_gcmBytes (d : Bytes) (o : BitVec 24) (s : State) :
    exec (.gcmBytes d o) s = .next
      (if s.g.inited = false then s.errored 7 4 d.length 0x10
       else if s.g.dir = true ∧ o.toNat < 16 * ((s.g.pbuf.length + d.length) / 16) then s.haltedBy 7 4 0x82
       else if d = [] then s.completed 7 4 0 []
       else if gcmBlkMax < blocksAfter s.g d.length then s.errored 7 4 d.length 0x17
       else if s.g.dir = true then
         (s.withG (bytesEnc (startCipher s.g) d).1).completed 7 4 d.length (bytesEnc (startCipher s.g) d).2
       else if fits s.params.capDbuf (s.g.dbuf.length + d.length) then
         (s.withG (bytesDec (startCipher s.g) d)).completed 7 4 d.length []
       else s.errored 7 4 d.length 0x17) := by
  rw [exec_eq_finish, resultOf, gcmBytesResult]
  simp only [apply_ite (CmdResult.finish (.gcmBytes d o) s), Bool.not_eq_true', List.length_eq_zero_iff]
  refine congrArg _ (ite_congr rfl (fun _ => rfl) fun _ => ite_congr rfl (fun _ => rfl) fun _ =>
    ite_congr rfl (fun hempty => ?_) fun _ => rfl)
  subst hempty
  rfl

theorem bytesDec_startCipher (g : Gcm) (d : Bytes) :
    bytesDec (startCipher g) d = { startCipher g with dbuf := g.dbuf ++ d } := by
  rw [bytesDec, startCipher_dbuf]

/-- Settles O38, by the checks of `exec_gcmAad` and `exec_gcmBytes`. -/
theorem gcmAadAndBytes : Obligations.GcmAadAndBytes := by
  intro d o s blocks g
  refine ⟨exec_gcmAad d s, ?_⟩
  rw [exec_gcmBytes, bytesDec_startCipher]
  rfl

/-! ## The size of the output (R238, R268) -/

theorem exec_gcmOsize (len : BitVec 64) (o : BitVec 24) (s : State) :
    exec (.gcmOsize len o) s = .next
      (if o.toNat < 8 then s.haltedBy 7 7 0x82
       else if s.g.inited = false then s.errored 7 7 8 0x10
       else s.completed 7 7 8 (beBytes 8 (gcmOutputSize s.g len.toNat))) := by
  rw [exec_eq_finish, resultOf]
  simp only [apply_ite (CmdResult.finish (.gcmOsize len o) s)]
  cases s.g.inited <;> rfl

/-- A ready unit answers what its kind says, any other `E_UNINIT` (R260). -/
theorem whenReady_finish (i : Instr) (s : State) (f : Kind → CmdResult) :
    (whenReady s f).finish i s =
      match s.b.mode with
      | none => s.errored i.unit i.op i.ilen 0x10
      | some k =>
        if s.b.inited = false ∨ s.b.finished = true then s.errored i.unit i.op i.ilen 0x10
        else (f k).finish i s := by
  cases hmode : s.b.mode with
  | none => simp only [whenReady, hmode]; rfl
  | some k =>
    simp only [whenReady, hmode, bpcReady]
    cases s.b.inited <;> cases s.b.finished <;> rfl

theorem exec_bpcOsize (len : BitVec 64) (o : BitVec 24) (s : State) :
    exec (.bpcOsize len o) s = .next
      (if o.toNat < 8 then s.haltedBy 8 7 0x82
       else
         match s.b.mode with
         | none => s.errored 8 7 8 0x10
         | some k =>
           if s.b.inited = false ∨ s.b.finished = true then s.errored 8 7 8 0x10
           else s.completed 8 7 8 (beBytes 8 (bpcOutputSize (mbs k s.b.m) s.b len.toNat))) := by
  rw [exec_eq_finish, resultOf, apply_ite (CmdResult.finish (.bpcOsize len o) s), whenReady_finish]
  cases s.b.mode <;> rfl

/-- Settles O41: the checks of `exec_gcmOsize` and `exec_bpcOsize`, and the size by the direction of each unit. -/
theorem outputSizeCommands : Obligations.OutputSizeCommands := by
  intro len o s
  rw [exec_gcmOsize, exec_bpcOsize]
  constructor
  · rw [gcmOutputSize]
    cases s.g.dir <;> rfl
  · cases s.b.mode with
    | none => rfl
    | some k =>
      simp only [bpcOutputSize]
      cases s.b.dir <;> rfl

end Sys2Proof.Machine
end

section
/-! The data path of unit GCM in closed form (45_gcm.md R223 to R225, R233, R237): associated data and plaintext are
taken in whole blocks and the rest waits, and the cipher is one keystream over the whole message (`gcmCrypt`). -/

namespace Sys2Proof.Machine

open Sys2Proof.Config

/-! ## The whole blocks of a sequence -/

/-- The number of bytes of a sequence that lie in whole blocks. -/
def wholeLen (x : Bytes) : Nat := x.length / 16 * 16

theorem wholeLen_le (x : Bytes) : wholeLen x ≤ x.length := Nat.div_mul_le_self ..

theorem wholeLen_mod (x : Bytes) : wholeLen x % 16 = 0 := Nat.mul_mod_left ..

theorem length_take_wholeLen (x : Bytes) : (x.take (wholeLen x)).length = wholeLen x :=
  List.length_take_of_le (wholeLen_le x)

theorem length_take_wholeLen_mod (x : Bytes) : (x.take (wholeLen x)).length % 16 = 0 := by
  rw [length_take_wholeLen, wholeLen_mod]

theorem length_drop_wholeLen_lt (x : Bytes) : (x.drop (wholeLen x)).length < 16 := by
  rw [List.length_drop, wholeLen]; omega

theorem wholeLen_of_length_le {x : Bytes} (h : x.length ≤ 15) : wholeLen x = 0 := by
  rw [wholeLen]; omega

/-- The byte that completes a block leaves no rest. -/
theorem wholeLen_append_of_full {x : Bytes} {b : Byte} (h : (x.drop (wholeLen x) ++ [b]).length = 16) :
    wholeLen (x ++ [b]) = (x ++ [b]).length := by
  simp only [List.length_append, List.length_drop, List.length_singleton, wholeLen] at h ⊢
  omega

/-- Any other byte joins the rest. -/
theorem wholeLen_append_of_partial {x : Bytes} {b : Byte} (h : (x.drop (wholeLen x) ++ [b]).length ≠ 16) :
    wholeLen (x ++ [b]) = wholeLen x := by
  simp only [List.length_append, List.length_drop, List.length_singleton, wholeLen] at h ⊢
  omega

theorem take_append_wholeLen (x : Bytes) (b : Byte) : (x ++ [b]).take (wholeLen x) = x.take (wholeLen x) :=
  List.take_append_of_le_length (wholeLen_le x)

theorem drop_append_wholeLen (x : Bytes) (b : Byte) : (x ++ [b]).drop (wholeLen x) = x.drop (wholeLen x) ++ [b] :=
  List.drop_append_of_le_length (wholeLen_le x)

/-! ## Associated data (R223, R224) -/

/-- The byte that completes a block adds that block to the hash. -/
theorem ghash_append_of_full {x : Bytes} {b : Byte} (hfull : (x.drop (wholeLen x) ++ [b]).length = 16) (y h : Block) :
    ghash y (x ++ [b]) h =
      ghashBlock (ghash y (x.take (wholeLen x)) h) (blockOfBytes (x.drop (wholeLen x) ++ [b])) h := by
  calc ghash y (x ++ [b]) h = ghash y (x.take (wholeLen x) ++ (x.drop (wholeLen x) ++ [b])) h := by
        rw [← List.append_assoc, List.take_append_drop]
    _ = _ := by rw [ghash_append (length_take_wholeLen_mod x), ghash_of_length_le (by omega) hfull.le]

theorem ghash_whole_append_rest (y : Block) (x : Bytes) (h : Block) :
    ghash (ghash y (x.take (wholeLen x)) h) (x.drop (wholeLen x)) h = ghash y x h := by
  rw [← ghash_append (length_take_wholeLen_mod x), List.take_append_drop]

/-- The session `g` after the associated data `x`, counted from the start of its partial block, of which `len` bytes
are new. -/
def Gcm.absorbed (g : Gcm) (x : Bytes) (len : Nat) : Gcm :=
  { g with sat := ghash g.sat (x.take (wholeLen x)) g.h, atbuf := x.drop (wholeLen x),
           atlen := g.atlen + BitVec.ofNat 64 len }

theorem aadByte_absorbed (g : Gcm) (x : Bytes) (len : Nat) (b : Byte) :
    aadByte (g.absorbed x len) b = g.absorbed (x ++ [b]) (len + 1) := by
  have hcount : g.atlen + BitVec.ofNat 64 len + 1 = g.atlen + BitVec.ofNat 64 (len + 1) := by
    rw [BitVec.ofNat_add, ← BitVec.add_assoc]; rfl
  simp only [aadByte, Gcm.absorbed, bs, hcount]
  split
  next hfull =>
    rw [wholeLen_append_of_full hfull, List.take_length, List.drop_length, ghash_append_of_full hfull]
  next hpartial =>
    rw [wholeLen_append_of_partial hpartial, take_append_wholeLen, drop_append_wholeLen]

theorem aadAbsorb_eq {g : Gcm} (d : Bytes) (hg : g.atbuf.length ≤ 15) :
    aadAbsorb g d = g.absorbed (g.atbuf ++ d) d.length := by
  induction d using List.reverseRecOn with
  | nil =>
    rw [List.append_nil, Gcm.absorbed, wholeLen_of_length_le hg]
    simp [aadAbsorb]
  | append_singleton d b ih =>
    rw [aadAbsorb_append, ih, ← List.append_assoc, List.length_append]
    exact aadByte_absorbed g (g.atbuf ++ d) d.length b

/-- Starting the cipher hashes the rest of the associated data, and once (R224). -/
theorem startCipher_eq {g : Gcm} (hg : g.atbuf.length ≤ 15) :
    startCipher g =
      if g.started then g
      else { g with sat := ghash g.sat g.atbuf g.h, s := ghash g.sat g.atbuf g.h, atbuf := [], started := true } := by
  have hrest : (if 0 < g.atbuf.length then ghashBlock g.sat (blockOfBytes g.atbuf) g.h else g.sat) =
      ghash g.sat g.atbuf g.h := by
    split
    next h => rw [ghash_of_length_le h (by omega)]
    next h => rw [List.length_eq_zero_iff.mp (Nat.eq_zero_of_not_pos h), ghash_nil]
  rw [startCipher, hrest]

/-- Settles O37, by the closed forms `aadAbsorb_eq` and `startCipher_eq`. -/
theorem associatedDataIsHashedInBlocks : Obligations.AssociatedDataIsHashedInBlocks :=
  ⟨fun _ d hg => aadAbsorb_eq d hg, fun _ => startCipher_eq⟩

/-! ## The keystream of a session (R221, R225) -/

@[simp] theorem gcmCrypt_length (key : Bytes) (c : Block) (p : Bytes) : (gcmCrypt key c p).length = p.length := by
  simp [gcmCrypt]

@[simp] theorem gcmCrypt_nil (key : Bytes) (c : Block) : gcmCrypt key c [] = [] := rfl

theorem gcmCrypt_getElem (key : Bytes) (c : Block) (p : Bytes) {i : Nat} (hi : i < p.length) :
    (gcmCrypt key c p)[i]'(by simpa using hi) =
      p[i] ^^^ blockByte (bcEnc key (inc32^[i / 16 + 1] c)) (i % 16) := by
  simp [gcmCrypt, hi]

/-- Behind whole blocks the keystream goes on from the counter of the last of them. -/
theorem gcmCrypt_append {a : Bytes} (ha : a.length % 16 = 0) (key : Bytes) (c : Block) (b : Bytes) :
    gcmCrypt key c (a ++ b) = gcmCrypt key c a ++ gcmCrypt key (inc32^[a.length / 16] c) b := by
  rw [gcmCrypt, List.length_append, List.range_add, List.map_append, List.map_map]
  refine congrArg₂ (· ++ ·) (List.map_congr_left fun i hi => ?_) (List.map_congr_left fun i _ => ?_)
  · rw [List.getD_append _ _ _ _ (List.mem_range.mp hi)]
  · have hblock : (a.length + i) / 16 + 1 = i / 16 + 1 + a.length / 16 := by omega
    have hbyte : (a.length + i) % 16 = i % 16 := by omega
    rw [Function.comp_apply, List.getD_append_right _ _ _ _ (Nat.le_add_right ..), Nat.add_sub_cancel_left, hblock,
      hbyte, Function.iterate_add_apply]

/-- At most one block is encrypted under the next counter. -/
theorem gcmCrypt_of_length_le {p : Bytes} (hp : p.length ≤ 16) (key : Bytes) (c : Block) :
    gcmCrypt key c p = ctrXor key (inc32 c) p := by
  refine List.ext_getElem (by simp [ctrXor, hp]) fun i hi _ => ?_
  rw [gcmCrypt_length] at hi
  have hblock : i / 16 = 0 := by omega
  have hbyte : i % 16 = i := by omega
  rw [gcmCrypt_getElem key c p hi, hblock, hbyte]
  simp [ctrXor, xorBytes, bytesOfBlock_getElem _ (show i < 16 by omega)]

/-- Decrypting is encrypting again: the keystream depends on the position alone. -/
theorem gcmCrypt_gcmCrypt (key : Bytes) (c : Block) (p : Bytes) : gcmCrypt key c (gcmCrypt key c p) = p := by
  refine List.ext_getElem (by simp) fun i hi _ => ?_
  simp only [gcmCrypt_length] at hi
  rw [gcmCrypt_getElem key c _ (by simpa using hi), gcmCrypt_getElem key c p hi, BitVec.xor_assoc, BitVec.xor_self,
    BitVec.xor_zero]

/-- The loop of `FinalDec` over the blocks of a sequence (R237). -/
theorem decBlocks_blocksOf (key : Bytes) (c : Block) (a : Bytes) :
    decBlocks key c (blocksOf bs a) = gcmCrypt key c a := by
  induction hn : a.length using Nat.strong_induction_on generalizing a c with
  | _ n ih =>
    by_cases ha : a = []
    · rw [ha, blocksOf_nil]; rfl
    have hpos : 0 < a.length := List.length_pos_iff.mpr ha
    rw [blocksOf_eq_cons (by decide) ha, decBlocks, ih (a.drop bs).length (by simp [bs]; omega) _ _ rfl]
    by_cases hle : a.length ≤ 16
    · rw [bs, List.take_of_length_le hle, List.drop_of_length_le hle, gcmCrypt_nil, List.append_nil,
        gcmCrypt_of_length_le hle]
    · have hblock : (a.take 16).length = 16 := List.length_take_of_le (by omega)
      calc ctrXor key (inc32 c) (a.take 16) ++ gcmCrypt key (inc32 c) (a.drop 16)
          = gcmCrypt key c (a.take 16 ++ a.drop 16) := by
            rw [gcmCrypt_append (by rw [hblock]), gcmCrypt_of_length_le hblock.le, hblock]; rfl
        _ = gcmCrypt key c a := by rw [List.take_append_drop]

/-- The byte that completes a block is answered with that block, encrypted under the next counter. -/
theorem gcmCrypt_append_of_full {x : Bytes} {b : Byte} (hfull : (x.drop (wholeLen x) ++ [b]).length = 16)
    (key : Bytes) (c : Block) :
    gcmCrypt key c (x ++ [b]) =
      gcmCrypt key c (x.take (wholeLen x)) ++
        ctrXor key (inc32 (inc32^[wholeLen x / 16] c)) (x.drop (wholeLen x) ++ [b]) := by
  calc gcmCrypt key c (x ++ [b]) = gcmCrypt key c (x.take (wholeLen x) ++ (x.drop (wholeLen x) ++ [b])) := by
        rw [← List.append_assoc, List.take_append_drop]
    _ = _ := by
      rw [gcmCrypt_append (length_take_wholeLen_mod x), gcmCrypt_of_length_le hfull.le, length_take_wholeLen]

/-- The whole blocks of a sequence, and then the rest. -/
theorem gcmCrypt_whole_append_rest (key : Bytes) (c : Block) (x : Bytes) :
    gcmCrypt key c (x.take (wholeLen x)) ++ gcmCrypt key (inc32^[wholeLen x / 16] c) (x.drop (wholeLen x)) =
      gcmCrypt key c x := by
  calc _ = gcmCrypt key c (x.take (wholeLen x) ++ x.drop (wholeLen x)) := by
        rw [gcmCrypt_append (length_take_wholeLen_mod x), length_take_wholeLen]
    _ = gcmCrypt key c x := by rw [List.take_append_drop]

/-! ## Encryption (R225, R233) -/

/-- The session `g` after the plaintext `x`, counted from the start of its partial block. -/
def Gcm.encrypted (g : Gcm) (x : Bytes) : Gcm :=
  { g with s := ghash g.s (gcmCrypt g.key g.ctrb (x.take (wholeLen x))) g.h, ctrb := inc32^[wholeLen x / 16] g.ctrb,
           totlen := g.totlen + BitVec.ofNat 64 (wholeLen x), pbuf := x.drop (wholeLen x) }

/-- A byte that completes a block: the block is answered, and folded into the tag accumulator. -/
theorem encByte_encrypted_of_full (g : Gcm) {x : Bytes} {b : Byte}
    (hfull : (x.drop (wholeLen x) ++ [b]).length = 16) :
    encByte (g.encrypted x) b =
      (g.encrypted (x ++ [b]), ctrXor g.key (inc32 (inc32^[wholeLen x / 16] g.ctrb)) (x.drop (wholeLen x) ++ [b])) := by
  have hct : (ctrXor g.key (inc32 (inc32^[wholeLen x / 16] g.ctrb)) (x.drop (wholeLen x) ++ [b])).length = 16 := by
    rw [ctrXor, xorBytes_length, bytesOfBlock_length, hfull]; rfl
  have hwhole : (gcmCrypt g.key g.ctrb (x.take (wholeLen x))).length % 16 = 0 := by
    rw [gcmCrypt_length, length_take_wholeLen_mod]
  have hlen : (x ++ [b]).length = wholeLen x + 16 := by
    rw [← hfull, ← length_take_wholeLen, ← List.length_append, length_take_wholeLen, ← List.append_assoc,
      List.take_append_drop]
  have hblocks : (wholeLen x + 16) / 16 = wholeLen x / 16 + 1 := Nat.add_div_right _ (by decide)
  have hstep : encByte (g.encrypted x) b =
      ({ (encBlock (g.encrypted x) (x.drop (wholeLen x) ++ [b])).1 with pbuf := [] },
        (encBlock (g.encrypted x) (x.drop (wholeLen x) ++ [b])).2) := if_pos hfull
  rw [hstep]
  simp only [encBlock, Gcm.encrypted, hct]
  rw [wholeLen_append_of_full hfull, List.take_length, List.drop_length, gcmCrypt_append_of_full hfull,
    ghash_append hwhole, ghash_of_length_le (by omega) hct.le, hlen, hblocks, Function.iterate_succ_apply',
    BitVec.ofNat_add, ← BitVec.add_assoc]

/-- Any other byte waits. -/
theorem encByte_encrypted_of_partial (g : Gcm) {x : Bytes} {b : Byte}
    (hpartial : (x.drop (wholeLen x) ++ [b]).length ≠ 16) :
    encByte (g.encrypted x) b = (g.encrypted (x ++ [b]), []) := by
  have hstep : encByte (g.encrypted x) b = ({ g.encrypted x with pbuf := x.drop (wholeLen x) ++ [b] }, []) :=
    if_neg hpartial
  rw [hstep]
  simp only [Gcm.encrypted, wholeLen_append_of_partial hpartial, take_append_wholeLen, drop_append_wholeLen]

theorem bytesEnc_eq {g : Gcm} (d : Bytes) (hg : g.pbuf.length ≤ 15) :
    bytesEnc g d =
      (g.encrypted (g.pbuf ++ d), gcmCrypt g.key g.ctrb ((g.pbuf ++ d).take (wholeLen (g.pbuf ++ d)))) := by
  induction d using List.reverseRecOn with
  | nil =>
    rw [List.append_nil, Gcm.encrypted, wholeLen_of_length_le hg]
    simp [bytesEnc]
  | append_singleton d b ih =>
    have hone : bytesEnc (bytesEnc g d).1 [b] = encByte (bytesEnc g d).1 b := by simp [bytesEnc]
    rw [bytesEnc_append, hone, ih, ← List.append_assoc]
    generalize g.pbuf ++ d = x
    by_cases hfull : (x.drop (wholeLen x) ++ [b]).length = 16
    · rw [encByte_encrypted_of_full g hfull, wholeLen_append_of_full hfull, List.take_length,
        gcmCrypt_append_of_full hfull]
    · rw [encByte_encrypted_of_partial g hfull, wholeLen_append_of_partial hfull, take_append_wholeLen,
        List.append_nil]

/-- Settles O39, by the closed form `bytesEnc_eq`. -/
theorem gcmEncryptsCompletedBlocks : Obligations.GcmEncryptsCompletedBlocks :=
  fun _ d hg => bytesEnc_eq d hg

end Sys2Proof.Machine
end

section
/-! GCM.FINAL check by check (45_gcm.md R227, R235 to R237, R239). -/

namespace Sys2Proof.Machine

open Sys2Proof.Config

/-! ## The tag (R226, R227) -/

/-- The length block holds the bit lengths modulo 2^64. -/
theorem lenBlock_mod (a c : Nat) : lenBlock (a % 2 ^ 64) (c % 2 ^ 64) = lenBlock a c := by
  have hword (n : Nat) : BitVec.ofNat 64 (8 * (n % 2 ^ 64)) = BitVec.ofNat 64 (8 * n) :=
    BitVec.eq_of_toNat_eq (by simp only [BitVec.toNat_ofNat]; omega)
  rw [lenBlock, lenBlock, hword, hword]

theorem gcmTag_mod (g : Gcm) (s : Block) (a c : Nat) : gcmTag g s (a % 2 ^ 64) (c % 2 ^ 64) = gcmTag g s a c := by
  rw [gcmTag, gcmTag, lenBlock_mod]

/-! ## Closing an encrypt session (R236) -/

/-- The ciphertext of the partial block, empty where there is none. -/
def gcmLast (g : Gcm) : Bytes := ctrXor g.key (inc32 g.ctrb) g.pbuf

/-- The tag over everything encrypted, the partial block included. -/
def closingTag (g : Gcm) : Bytes :=
  gcmTag g (ghash g.s (gcmLast g) g.h) g.atlen.toNat (g.totlen.toNat + (gcmLast g).length)

theorem gcmLast_length_le (g : Gcm) : (gcmLast g).length ≤ 16 := by
  rw [gcmLast, ctrXor, xorBytes_length, bytesOfBlock_length]
  exact Nat.min_le_right ..

theorem finalPartial_eq (g : Gcm) (hp : 0 < g.pbuf.length) :
    finalPartial g =
      ({ g with ctrb := inc32 g.ctrb, s := ghash g.s (gcmLast g) g.h,
                totlen := g.totlen + BitVec.ofNat 64 (gcmLast g).length }, gcmLast g) := by
  have hpos : 1 ≤ (gcmLast g).length := by
    rw [gcmLast, ctrXor, xorBytes_length, bytesOfBlock_length]; omega
  rw [finalPartial, if_pos hp, ghash_of_length_le hpos (gcmLast_length_le g)]
  rfl

/-- The last bytes of an encrypt session. -/
theorem finalPartial_closing (g : Gcm) :
    let r := finalPartial g
    r.2 ++ gcmTag r.1 r.1.s r.1.atlen.toNat r.1.totlen.toNat = gcmLast g ++ closingTag g := by
  by_cases hp : 0 < g.pbuf.length
  · have hcount : (g.totlen + BitVec.ofNat 64 (gcmLast g).length).toNat =
        (g.totlen.toNat + (gcmLast g).length) % 2 ^ 64 := by
      rw [BitVec.toNat_add, BitVec.toNat_ofNat, Nat.add_mod_mod]
    have hat : g.atlen.toNat % 2 ^ 64 = g.atlen.toNat := Nat.mod_eq_of_lt g.atlen.isLt
    rw [finalPartial_eq g hp, closingTag, ← gcmTag_mod g, hat, ← hcount]
    rfl
  · have hnil : gcmLast g = [] := by
      rw [gcmLast, List.length_eq_zero_iff.mp (Nat.eq_zero_of_not_pos hp)]; rfl
    rw [finalPartial, if_neg hp, closingTag, hnil, ghash_nil]
    rfl

/-! ## The command -/

/-- The ciphertext that a decrypt session has buffered before its tag. -/
def bufferedText (g : Gcm) : Bytes := g.dbuf.take (g.dbuf.length - g.macb)

theorem exec_gcmFinal (o : BitVec 24) (s : State) :
    let g := startCipher s.g
    let ct := bufferedText s.g
    exec (.gcmFinal o) s = .next
      (if s.g.inited = false then s.errored 7 6 0 0x10
       else if s.g.dir = true then
         (if o.toNat < s.g.pbuf.length + s.g.macb then s.errored 7 6 0 0x11
          else (s.withG Gcm.reset).completed 7 6 0 (gcmLast g ++ closingTag g))
       else if s.g.dbuf.length < s.g.macb then s.errored 7 6 0 0x15
       else if o.toNat < s.g.dbuf.length - s.g.macb then s.errored 7 6 0 0x11
       else if gcmTag g (ghash g.s ct g.h) g.atlen.toNat ct.length ≠ s.g.dbuf.drop (s.g.dbuf.length - s.g.macb) then
         s.errored 7 6 0 0x12
       else (s.withG Gcm.reset).completed 7 6 0 (gcmCrypt g.key g.j0 ct)) := by
  have hlen : (bufferedText s.g).length = s.g.dbuf.length - s.g.macb := List.length_take_of_le (Nat.sub_le ..)
  simp only [exec_eq_finish, resultOf, gcmFinalResult, gcmFinalEnc, gcmFinalDec, finalPartial_closing, expectedTag,
    startCipher_dbuf, startCipher_macb, decBlocks_blocksOf, hlen,
    apply_ite (CmdResult.finish (.gcmFinal o) s), Bool.not_eq_true']
  rfl

/-- GCM.FINAL of an encrypt session with room for its last bytes. -/
theorem exec_gcmFinal_encrypt {s : State} {o : BitVec 24} (hin : s.g.inited = true) (hdir : s.g.dir = true)
    (hroom : s.g.pbuf.length + s.g.macb ≤ o.toNat) :
    exec (.gcmFinal o) s = .next ((s.withG Gcm.reset).completed 7 6 0
      (gcmLast (startCipher s.g) ++ closingTag (startCipher s.g))) := by
  rw [exec_gcmFinal, if_neg (by simp [hin]), if_pos hdir, if_neg (not_lt.mpr hroom)]

/-- Settles O40, by the checks of `exec_gcmFinal`. -/
theorem gcmFinalClosesTheSession : Obligations.GcmFinalClosesTheSession := by
  intro o s g tag last ct
  rw [exec_gcmFinal]
  simp only [g, last, ct, gcmLast, closingTag, bufferedText, startCipher_dbuf, startCipher_macb, startCipher_pbuf]
  rfl

end Sys2Proof.Machine
end

section
/-! What an open GCM session never changes (45_gcm.md R220, 90_conflicts.md C4). -/

namespace Sys2Proof.Machine

open Sys2Proof.Config

/-- Two sessions have the same key, direction, tag length, hash subkey and initial counter block. -/
abbrev Gcm.SameConstants (g g' : Gcm) : Prop :=
  g'.key = g.key ∧ g'.dir = g.dir ∧ g'.macb = g.macb ∧ g'.h = g.h ∧ g'.j0 = g.j0

theorem sameConstants_aadAbsorb (g : Gcm) (d : Bytes) : g.SameConstants (aadAbsorb g d) := by
  rw [aadAbsorb_frame]; exact ⟨rfl, rfl, rfl, rfl, rfl⟩

theorem sameConstants_startCipher (g : Gcm) : g.SameConstants (startCipher g) := by
  rw [startCipher_frame]; exact ⟨rfl, rfl, rfl, rfl, rfl⟩

theorem sameConstants_bytesEnc (g : Gcm) (d : Bytes) : g.SameConstants (bytesEnc (startCipher g) d).1 := by
  rw [bytesEnc_frame]; exact sameConstants_startCipher g

theorem sameConstants_of_gcmBytes {d : Bytes} {o : BitVec 24} {s u : State} {out : Bytes}
    (h : gcmBytesResult d o s = .ok u out) : s.g.SameConstants u.g := by
  obtain ⟨-, -, hempty, hdata⟩ := gcmBytesResult_ok h
  by_cases hd : d = []
  · rw [(hempty hd).1]; exact ⟨rfl, rfl, rfl, rfl, rfl⟩
  · obtain ⟨-, henc, hdec⟩ := hdata hd
    cases hdir : s.g.dir with
    | true => rw [(henc hdir).1]; exact sameConstants_bytesEnc s.g d
    | false => rw [(hdec hdir).2.1]; exact sameConstants_startCipher s.g

/-- A successful command other than GCM.INIT closes the session or keeps its constants. -/
theorem sameConstants_of_resultOf_ok {i : Instr} {s u : State} {out : Bytes} (hi : ∀ dir p, i ≠ .gcmInit dir p)
    (h : resultOf i s = .ok u out) (hopen : u.g.inited = true) : s.g.SameConstants u.g := by
  cases i with
  | gcmInit dir t => exact absurd rfl (hi dir t)
  | gcmCfg => cases h; cases hopen
  | gcmReset => cases h; cases hopen
  | gcmFinal o => rw [gcmFinalResult_ok h] at hopen; cases hopen
  | gcmBytes d o => exact sameConstants_of_gcmBytes h
  | gcmAad d =>
    obtain ⟨-, -, rfl⟩ := gcmAadResult_ok h
    exact sameConstants_aadAbsorb s.g d
  | gcmOsize len o =>
    simp only [resultOf] at h
    split at h
    · cases h
    split at h <;> cases h
    exact ⟨rfl, rfl, rfl, rfl, rfl⟩
  | _ =>
    obtain ⟨⟨-, -, -, -, -, -, -, -, hg, -⟩, -⟩ := resultOf_ok_frame h
    rw [hg (by simp [Instr.unit, Instr.packet])]; exact ⟨rfl, rfl, rfl, rfl, rfl⟩

/-- Settles O45: an error leaves the session as it was, a success is `sameConstants_of_resultOf_ok`. -/
theorem gcmSessionConstantsStay : Obligations.GcmSessionConstantsStay := by
  intro i s t hi _ hexec hopen
  rw [exec_eq_finish] at hexec
  cases hr : resultOf i s with
  | ok u out =>
    rw [hr] at hexec; cases hexec
    exact (sameConstants_of_resultOf_ok hi hr hopen : s.g.SameConstants u.g)
  | err e => rw [hr] at hexec; cases hexec; exact ⟨rfl, rfl, rfl, rfl, rfl⟩
  | fatal f => rw [hr] at hexec; cases hexec; exact ⟨rfl, rfl, rfl, rfl, rfl⟩

end Sys2Proof.Machine
end

section
/-! Forged messages (45_gcm.md R237, R241): GCM.FINAL accepts exactly the tag of its ciphertext, and for a hash subkey that
is not zero GHASH separates ciphertexts that differ within one block. -/

namespace Sys2Proof.Machine

open Sys2Proof.Config Sys2Proof.GcmField

/-! ## Accepting and rejecting (R237) -/

/-- The tag of the ciphertext `ct` in a session. -/
def sessionTag (g : Gcm) (ct : Bytes) : Bytes :=
  gcmTag (startCipher g) (ghash (startCipher g).s ct g.h) (startCipher g).atlen.toNat ct.length

/-- The tag does not depend on what is buffered. -/
theorem sessionTag_withDbuf (g : Gcm) (x ct : Bytes) : sessionTag { g with dbuf := x } ct = sessionTag g ct := by
  have hstart : startCipher { g with dbuf := x } = { startCipher g with dbuf := x } := by
    unfold startCipher
    simp only
    split <;> rfl
  rw [sessionTag, hstart]; rfl

/-- GCM.FINAL of a decrypt session that has buffered the ciphertext `ct` and the tag `tag`. -/
theorem exec_gcmFinal_decrypt {s : State} {ct tag : Bytes} (o : BitVec 24) (hin : s.g.inited = true)
    (hdir : s.g.dir = false) (hdbuf : s.g.dbuf = ct ++ tag) (htag : tag.length = s.g.macb) :
    exec (.gcmFinal o) s = .next
      (if o.toNat < ct.length then s.errored 7 6 0 0x11
       else if sessionTag s.g ct ≠ tag then s.errored 7 6 0 0x12
       else (s.withG Gcm.reset).completed 7 6 0 (gcmCrypt s.g.key s.g.j0 ct)) := by
  have hlen : (ct ++ tag).length - s.g.macb = ct.length := by rw [List.length_append, htag, Nat.add_sub_cancel]
  have hct : bufferedText s.g = ct := by rw [bufferedText, hdbuf, hlen, List.take_left]
  have hmacb : ¬ (ct ++ tag).length < s.g.macb := by rw [List.length_append, htag]; omega
  rw [exec_gcmFinal, hct, hdbuf, hlen, List.drop_left, if_neg (by simp [hin]), if_neg (by simp [hdir]), if_neg hmacb,
    startCipher_h, startCipher_key, startCipher_j0]
  rfl

section Accepted

variable {s t : State} {o : BitVec 24} {ct tag out : Bytes} (hin : s.g.inited = true) (hdir : s.g.dir = false)

include hin hdir

/-- A message that GCM.FINAL accepts ends in the tag of its ciphertext, and there is room for its plaintext. -/
theorem sessionTag_of_accepted (hdbuf : s.g.dbuf = ct ++ tag) (htag : tag.length = s.g.macb)
    (h : AnswersOk (.gcmFinal o) s t out) : ct.length ≤ o.toNat ∧ sessionTag s.g ct = tag := by
  obtain ⟨hexec, hrs⟩ := h
  have hnot {code : BitVec 8} (hcode : code ≠ 0x00) : t ≠ s.errored 7 6 0 code := fun he => by
    rw [he, State.errored_rs] at hrs
    exact hcode (wireResponse_inj (List.append_cancel_left hrs)).1
  rw [exec_gcmFinal_decrypt o hin hdir hdbuf htag] at hexec
  have ht := Host.Outcome.next.inj hexec
  split at ht
  · exact absurd ht.symm (hnot (by decide))
  split at ht
  · exact absurd ht.symm (hnot (by decide))
  next hroom htags => exact ⟨not_lt.mp hroom, not_not.mp htags⟩

/-- With room for its plaintext, any other message that ends in a wrong tag is rejected, and the session stays. -/
theorem rejected_of_sessionTag_ne (hroom : ct.length ≤ o.toNat) (htag : tag.length = s.g.macb)
    (hne : sessionTag s.g ct ≠ tag) :
    exec (.gcmFinal o) (s.withG { s.g with dbuf := ct ++ tag }) =
      .next ((s.withG { s.g with dbuf := ct ++ tag }).errored 7 6 0 0x12) := by
  have hne' : sessionTag (s.withG { s.g with dbuf := ct ++ tag }).g ct ≠ tag := by
    rw [State.withG_g, sessionTag_withDbuf]; exact hne
  rw [exec_gcmFinal_decrypt (s := s.withG { s.g with dbuf := ct ++ tag }) o hin hdir rfl htag,
    if_neg (not_lt.mpr hroom), if_pos hne']

end Accepted

/-! ## Tags of two ciphertexts (R241) -/

/-- With a 16-byte tag two ciphertexts of the same length have the same tag exactly when the hash subkey annihilates the
difference of their hashes. -/
theorem sessionTag_eq_iff {g : Gcm} (hmacb : g.macb = 16) {ct ct' : Bytes} (hlen : ct'.length = ct.length) :
    sessionTag g ct' = sessionTag g ct ↔
      gfMul (ghash (startCipher g).s ct' g.h ^^^ ghash (startCipher g).s ct g.h) g.h = 0 := by
  have htag (x : Bytes) : sessionTag g x =
      bytesOfBlock (bcEnc (startCipher g).key (startCipher g).j0 ^^^
        (gfMul (ghash (startCipher g).s x g.h) g.h ^^^
          gfMul (lenBlock (startCipher g).atlen.toNat x.length) g.h)) := by
    rw [sessionTag, gcmTag, startCipher_macb, hmacb, List.take_of_length_le (bytesOfBlock_length _).le, startCipher_h,
      ghashBlock, gfXor, gfMul_xor]
  rw [htag, htag, hlen, gfMul_xor, xor_eq_zero_iff]
  constructor
  · intro h
    exact (BitVec.xor_left_inj _).mp ((BitVec.xor_right_inj _).mp (bytesOfBlock_inj h))
  · intro h
    rw [h]

/-- The field has no zero divisors: the polynomial of R141 is irreducible. -/
theorem gfMul_eq_zero {x y : Block} (h : gfMul x y = 0) : x = 0 ∨ y = 0 := by
  have : Fact (Irreducible gcmPoly) := ⟨gcmPoly_irreducible⟩
  have hprod : toField x * toField y = 0 := by rw [← toField_gfMul, h, toField_zero]
  have hzero {b : Block} (hb : toField b = 0) : b = 0 := toField_inj (hb.trans toField_zero.symm)
  exact (mul_eq_zero.mp hprod).imp hzero hzero

theorem gfMul_left_inj {h x y : Block} (hh : h ≠ 0) (heq : gfMul x h = gfMul y h) : x = y := by
  have hdiff : gfMul (x ^^^ y) h = 0 := by rw [gfMul_xor, heq]; exact BitVec.xor_self
  exact xor_eq_zero_iff.mp ((gfMul_eq_zero hdiff).resolve_right hh)

/-! ## GHASH of sequences that differ within one block -/

/-- The first block of a sequence is hashed first, however short it is. -/
theorem ghash_of_ne_nil {a : Bytes} (ha : a ≠ []) (y h : Block) :
    ghash y a h = ghash (ghashBlock y (blockOfBytes (a.take 16)) h) (a.drop 16) h := by
  rw [ghash, bs, blocksOf_eq_cons (by decide) ha]; rfl

theorem ghash_left_inj {h y y' : Block} (hh : h ≠ 0) (a : Bytes) (heq : ghash y a h = ghash y' a h) : y = y' := by
  rw [ghash, ghash] at heq
  generalize blocksOf bs a = blocks at heq
  induction blocks generalizing y y' with
  | nil => exact heq
  | cons b blocks ih => exact (BitVec.xor_left_inj _).mp (gfMul_left_inj hh (ih heq))

theorem blockOfBytes_inj {a b : Bytes} (hlen : a.length = b.length) (hle : a.length ≤ 16)
    (h : blockOfBytes a = blockOfBytes b) : a = b := by
  rw [← take_bytesOfBlock_blockOfBytes a hle, h, hlen, take_bytesOfBlock_blockOfBytes b (hlen ▸ hle)]

/-- Sequences of the same length that differ in their first 16 bytes only have different hashes. -/
theorem ghash_ne_of_first_block {h : Block} (hh : h ≠ 0) (y : Block) {a b : Bytes} (hlen : a.length = b.length)
    (hne : a ≠ b) (hrest : a.drop 16 = b.drop 16) : ghash y a h ≠ ghash y b h := by
  intro heq
  have ha : a ≠ [] := fun ha => hne (by
    rw [ha] at hlen ⊢; exact (List.length_eq_zero_iff.mp hlen.symm).symm)
  have hb : b ≠ [] := fun hb => ha (by rw [hb] at hlen; exact List.length_eq_zero_iff.mp hlen)
  rw [ghash_of_ne_nil ha, ghash_of_ne_nil hb, hrest] at heq
  have hblock := (BitVec.xor_right_inj _).mp (gfMul_left_inj hh (ghash_left_inj hh _ heq))
  have hfirst : a.take 16 = b.take 16 :=
    blockOfBytes_inj (by rw [List.length_take, List.length_take, hlen]) (List.length_take_le ..) hblock
  exact hne (by rw [← List.take_append_drop 16 a, hfirst, hrest, List.take_append_drop])

/-- Sequences of the same length that differ in block `q` only have different hashes. -/
theorem ghash_ne_of_one_block {h : Block} (hh : h ≠ 0) (y : Block) {a b : Bytes} {q : Nat} (hlen : a.length = b.length)
    (hne : a ≠ b) (hsame : ∀ j, j / 16 ≠ q → a[j]? = b[j]?) : ghash y a h ≠ ghash y b h := by
  have htake : a.take (16 * q) = b.take (16 * q) := List.ext_getElem? fun j => by
    rw [List.getElem?_take, List.getElem?_take]
    split
    · exact hsame j (by omega)
    · rfl
  have hrest : (a.drop (16 * q)).drop 16 = (b.drop (16 * q)).drop 16 := List.ext_getElem? fun j => by
    simp only [List.getElem?_drop]
    exact hsame _ (by omega)
  have hdrop : a.drop (16 * q) ≠ b.drop (16 * q) := fun hd => hne (by
    rw [← List.take_append_drop (16 * q) a, htake, hd, List.take_append_drop])
  have hlong : 16 * q ≤ a.length := by
    by_contra hshort
    rw [List.drop_of_length_le (by omega), List.drop_of_length_le (by omega)] at hdrop
    exact hdrop rfl
  have hcut {x : Bytes} (hx : 16 * q ≤ x.length) :
      ghash y x h = ghash (ghash y (x.take (16 * q)) h) (x.drop (16 * q)) h := by
    rw [← ghash_append (by rw [List.length_take_of_le hx, Nat.mul_mod_right]), List.take_append_drop]
  have hlong' : 16 * q ≤ b.length := hlen ▸ hlong
  rw [hcut hlong, hcut hlong', htake]
  exact ghash_ne_of_first_block hh _ (by rw [List.length_drop, List.length_drop, hlen]) hdrop hrest

/-- Settles O44: the accepted tag is that of the ciphertext (`sessionTag_of_accepted`), any other message is rejected by
`rejected_of_sessionTag_ne`, and different hashes have different tags (`sessionTag_eq_iff`, `ghash_ne_of_one_block`). -/
theorem tamperedMessagesAreRejected : Obligations.TamperedMessagesAreRejected := by
  intro s t o ct tag out hin hdir hdbuf htag hok reject hash
  obtain ⟨hroom, haccepted⟩ := sessionTag_of_accepted hin hdir hdbuf htag hok
  have hchanged : s.g.macb = 16 → ∀ ct', ct'.length = ct.length → gfMul (hash ct' ^^^ hash ct) s.g.h ≠ 0 →
      reject (ct' ++ tag) := fun hmacb ct' hlen hne =>
    rejected_of_sessionTag_ne hin hdir (hlen ▸ hroom) htag fun heq =>
      hne ((sessionTag_eq_iff hmacb hlen).mp (heq.trans haccepted.symm))
  refine ⟨fun tag' hlen hne => ?_, fun hmacb hh ct' q hlen hne hsame => ?_, hchanged⟩
  · exact rejected_of_sessionTag_ne hin hdir hroom (hlen.trans htag) fun heq => hne (heq.symm.trans haccepted)
  · refine hchanged hmacb ct' hlen fun hzero => ?_
    have heq := xor_eq_zero_iff.mp ((gfMul_eq_zero hzero).resolve_right hh)
    exact ghash_ne_of_one_block hh _ hlen hne hsame heq

end Sys2Proof.Machine
end

section
/-! GCM.AAD and GCM.BYTES over data that comes in pieces (45_gcm.md R231 to R234, R240): what a session becomes when it is
fed (`gcmFed`), and that feeding it piece by piece is feeding it once. -/

namespace Sys2Proof.Machine

open Sys2Proof.Config

/-! ## A session that is fed -/

/-- The session after the bytes `d` of GCM.BYTES, and the answer: nothing happens to no bytes, and the first byte starts
the cipher (R232). -/
def gcmFed (g : Gcm) (d : Bytes) : Gcm × Bytes :=
  if d = [] then (g, [])
  else if g.dir then bytesEnc (startCipher g) d
  else (bytesDec (startCipher g) d, [])

@[simp] theorem gcmFed_nil (g : Gcm) : gcmFed g [] = (g, []) := rfl

theorem gcmFed_encrypt {g : Gcm} (hdir : g.dir = true) {d : Bytes} (hd : d ≠ []) :
    gcmFed g d = bytesEnc (startCipher g) d := by
  rw [gcmFed, if_neg hd, if_pos hdir]

theorem gcmFed_decrypt {g : Gcm} (hdir : g.dir = false) {d : Bytes} (hd : d ≠ []) :
    gcmFed g d = (bytesDec (startCipher g) d, []) := by
  rw [gcmFed, if_neg hd, if_neg (by simp [hdir])]

theorem bytesEnc_started {g : Gcm} (hst : g.started = true) (d : Bytes) : (bytesEnc g d).1.started = true := by
  rw [bytesEnc_frame]; exact hst

/-- Once the cipher is started, the session is the one that the data path alone leaves. -/
theorem startCipher_gcmFed_encrypt {g : Gcm} (hdir : g.dir = true) (d : Bytes) :
    startCipher (gcmFed g d).1 = (bytesEnc (startCipher g) d).1 ∧ (gcmFed g d).2 = (bytesEnc (startCipher g) d).2 := by
  by_cases hd : d = []
  · rw [hd]; exact ⟨rfl, rfl⟩
  · rw [gcmFed_encrypt hdir hd, startCipher_of_started (bytesEnc_started (startCipher_started g) d)]
    exact ⟨rfl, rfl⟩

theorem startCipher_gcmFed_decrypt {g : Gcm} (hdir : g.dir = false) (d : Bytes) :
    startCipher (gcmFed g d).1 = bytesDec (startCipher g) d ∧ (gcmFed g d).2 = [] := by
  by_cases hd : d = []
  · rw [hd, bytesDec, List.append_nil]; exact ⟨rfl, rfl⟩
  · have hst : (bytesDec (startCipher g) d).started = true := startCipher_started g
    rw [gcmFed_decrypt hdir hd]
    exact ⟨startCipher_of_started hst, rfl⟩

theorem gcmFed_inited (g : Gcm) (d : Bytes) : (gcmFed g d).1.inited = g.inited := by
  unfold gcmFed
  split
  · rfl
  split
  · rw [bytesEnc_frame]; exact startCipher_inited g
  · exact startCipher_inited g

theorem sameConstants_gcmFed (g : Gcm) (d : Bytes) : g.SameConstants (gcmFed g d).1 := by
  unfold gcmFed
  split
  · exact ⟨rfl, rfl, rfl, rfl, rfl⟩
  split
  · exact sameConstants_bytesEnc g d
  · exact sameConstants_startCipher g

theorem gcmFed_dir (g : Gcm) (d : Bytes) : (gcmFed g d).1.dir = g.dir :=
  (sameConstants_gcmFed g d).2.1

/-- Feeding a joined sequence is feeding its parts in order. -/
theorem gcmFed_append (g : Gcm) (a b : Bytes) :
    gcmFed g (a ++ b) = ((gcmFed (gcmFed g a).1 b).1, (gcmFed g a).2 ++ (gcmFed (gcmFed g a).1 b).2) := by
  by_cases ha : a = []
  · rw [ha]; rfl
  by_cases hb : b = []
  · rw [hb, List.append_nil, gcmFed_nil, List.append_nil]
  have hab : a ++ b ≠ [] := by simp [ha]
  have hdir' := gcmFed_dir g a
  cases hdir : g.dir with
  | true =>
    obtain ⟨hstart, -⟩ := startCipher_gcmFed_encrypt hdir a
    rw [gcmFed_encrypt (hdir'.trans hdir) hb, hstart, gcmFed_encrypt hdir hab, gcmFed_encrypt hdir ha, bytesEnc_append]
  | false =>
    obtain ⟨hstart, -⟩ := startCipher_gcmFed_decrypt hdir a
    rw [gcmFed_decrypt (hdir'.trans hdir) hb, hstart, gcmFed_decrypt hdir hab, gcmFed_decrypt hdir ha]
    simp [bytesDec]

/-! ## Room for more bytes (R240; D43) -/

/-- The bytes that count against the block limit: those encrypted or waiting, or those buffered. -/
def Gcm.taken (g : Gcm) : Nat := if g.dir then g.totlen.toNat + g.pbuf.length else g.dbuf.length

/-- An open session with room for `n` more bytes within the block limit and the capacity `cap` of its buffer. -/
structure Gcm.Room (g : Gcm) (cap : Option Nat) (n : Nat) : Prop where
  inited : g.inited = true
  counter : g.CounterInStep
  limit : g.taken + n ≤ 16 * gcmBlkMax
  buffer : g.dir = false → fits cap (g.dbuf.length + n) = true

theorem Gcm.Room.mono {g : Gcm} {cap : Option Nat} {m n : Nat} (h : g.Room cap n) (hmn : m ≤ n) : g.Room cap m :=
  ⟨h.inited, h.counter, (Nat.add_le_add_left hmn _).trans h.limit, fun hdir => fits_of_le (h.buffer hdir) (by omega)⟩

theorem blocksAfter_eq (g : Gcm) (n : Nat) : blocksAfter g n = (g.taken + n + 15) / 16 := by
  unfold blocksAfter Gcm.taken; split <;> rfl

theorem blocksAfter_le_iff (g : Gcm) (n : Nat) : blocksAfter g n ≤ gcmBlkMax ↔ g.taken + n ≤ 16 * gcmBlkMax := by
  rw [blocksAfter_eq]; omega

theorem counterInStep_startCipher {g : Gcm} (h : g.CounterInStep) : (startCipher g).CounterInStep := by
  rw [startCipher_frame]; exact h

/-- Every byte fed is counted once, and the counters stay in step. -/
theorem Gcm.Room.counted {g : Gcm} {cap : Option Nat} {d : Bytes} (h : g.Room cap d.length) :
    (gcmFed g d).1.CounterInStep ∧ (gcmFed g d).1.taken = g.taken + d.length ∧
      (g.dir = false → (gcmFed g d).1.dbuf.length = g.dbuf.length + d.length) := by
  by_cases hd : d = []
  · rw [hd]; exact ⟨h.counter, rfl, fun _ => rfl⟩
  have hstart := counterInStep_startCipher h.counter
  have hlimit := h.limit
  have hdir' := gcmFed_dir g d
  cases hdir : g.dir with
  | true =>
    have htaken : g.taken = g.totlen.toNat + g.pbuf.length := by rw [Gcm.taken, hdir]; rfl
    obtain ⟨hcounter, htotal⟩ := bytesEnc_counterInStep d hstart (by
      rw [startCipher_totlen, startCipher_pbuf]; rw [gcmBlkMax] at hlimit; omega)
    rw [startCipher_totlen, startCipher_pbuf, ← gcmFed_encrypt hdir hd] at htotal
    rw [← gcmFed_encrypt hdir hd] at hcounter
    exact ⟨hcounter, by rw [Gcm.taken, hdir', hdir, if_pos rfl, htotal, htaken], nofun⟩
  | false =>
    have hbuf : (gcmFed g d).1.dbuf.length = g.dbuf.length + d.length := by
      rw [gcmFed_decrypt hdir hd, bytesDec_startCipher]
      exact List.length_append
    exact ⟨by rw [gcmFed_decrypt hdir hd]; exact hstart,
      by rw [Gcm.taken, Gcm.taken, hdir', hdir]; exact hbuf, fun _ => hbuf⟩

/-- Feeding `d` uses up room for `d`. -/
theorem Gcm.Room.fed {g : Gcm} {cap : Option Nat} {d : Bytes} {n : Nat} (h : g.Room cap (d.length + n)) :
    (gcmFed g d).1.Room cap n := by
  obtain ⟨hcounter, htaken, hbuf⟩ := (h.mono (Nat.le_add_right ..)).counted
  refine ⟨(gcmFed_inited g d).trans h.inited, hcounter, by rw [htaken, Nat.add_assoc]; exact h.limit, fun hdir => ?_⟩
  have hdir' : g.dir = false := (gcmFed_dir g d).symm.trans hdir
  rw [hbuf hdir', Nat.add_assoc]
  exact h.buffer hdir'

/-! ## The commands on a session with room -/

/-- GCM.BYTES feeds its session, if there is room for its bytes. -/
theorem resultOf_gcmBytes_of_room {s : State} {d : Bytes} {o : BitVec 24} (hin : s.g.inited = true)
    (hcap : s.g.dir = true → 16 * ((s.g.pbuf.length + d.length) / 16) ≤ o.toNat)
    (hroom : d ≠ [] → s.g.Room s.params.capDbuf d.length) :
    resultOf (.gcmBytes d o) s = .ok (s.withG (gcmFed s.g d).1) (gcmFed s.g d).2 := by
  have hin' : ¬ (!s.g.inited) = true := by simp [hin]
  have hcap' : ¬ (s.g.dir = true ∧ o.toNat < 16 * ((s.g.pbuf.length + d.length) / 16)) := fun h =>
    absurd (hcap h.1) (not_le.mpr h.2)
  rw [resultOf, gcmBytesResult, if_neg hin', if_neg hcap']
  by_cases hd : d = []
  · rw [if_pos (List.length_eq_zero_iff.mpr hd), hd]; rfl
  have hlimit : ¬ gcmBlkMax < blocksAfter s.g d.length :=
    not_lt.mpr ((blocksAfter_le_iff s.g d.length).mpr (hroom hd).limit)
  rw [if_neg (mt List.length_eq_zero_iff.mp hd), if_neg hlimit]
  cases hdir : s.g.dir with
  | true => rw [if_pos rfl, gcmFed_encrypt hdir hd]
  | false => rw [if_neg nofun, if_pos ((hroom hd).buffer hdir), gcmFed_decrypt hdir hd]

/-- What a GCM.BYTES that answers `OK` has checked, and how it ends. -/
theorem gcmBytes_answered {s u : State} {d out : Bytes} {o : BitVec 24} (hs : s.g.CounterInStep)
    (h : resultOf (.gcmBytes d o) s = .ok u out) :
    s.g.inited = true ∧ (s.g.dir = true → 16 * ((s.g.pbuf.length + d.length) / 16) ≤ o.toNat) ∧
      (d ≠ [] → s.g.Room s.params.capDbuf d.length) ∧ u = s.withG (gcmFed s.g d).1 ∧ out = (gcmFed s.g d).2 := by
  obtain ⟨hin, hcap, -, hdata⟩ := gcmBytesResult_ok h
  have hroom : d ≠ [] → s.g.Room s.params.capDbuf d.length := fun hd =>
    have ⟨hlimit, _, hdec⟩ := hdata hd
    ⟨hin, hs, (blocksAfter_le_iff s.g d.length).mp hlimit, fun hdir => (hdec hdir).1⟩
  rw [resultOf_gcmBytes_of_room hin hcap hroom] at h
  cases h
  exact ⟨hin, hcap, hroom, rfl, rfl⟩

theorem resultOf_gcmAad_of_open {s : State} (d : Bytes) (hin : s.g.inited = true) (hst : s.g.started = false) :
    resultOf (.gcmAad d) s = .ok (s.withG (aadAbsorb s.g d)) [] := by
  rw [resultOf, gcmAadResult, if_neg (by simp [hin]), if_neg (by simp [hst])]

end Sys2Proof.Machine
end

section
/-! Splitting the data of GCM.AAD, GCM.BYTES and BPC.BYTES over two commands (45_gcm.md R231, R233, 46_bpc.md R264). -/

namespace Sys2Proof.Machine

open Sys2Proof.Config

/-- What splitting the command `i` with output `out` into `i1` and `i2` is to show. -/
abbrev SplitsInto (i1 i2 : Instr) (s t : State) (out : Bytes) : Prop :=
  ∃ u v x y, AnswersOk i1 s u x ∧ AnswersOk i2 u v y ∧ x ++ y = out ∧ { v with cp := t.cp, rs := t.rs } = t

section Split

variable {i i1 i2 : Instr} {s t : State} {x y : Bytes}

/-- Two commands of unit GCM that leave together the session that one command leaves. -/
theorem splitsInto_of_withG {g1 g2 : Gcm} (h1 : resultOf i1 s = .ok (s.withG g1) x)
    (h2 : resultOf i2 ((s.withG g1).completed i1.unit i1.op i1.ilen x) =
      .ok (((s.withG g1).completed i1.unit i1.op i1.ilen x).withG g2) y)
    (ht : t = (s.withG g2).completed i.unit i.op i.ilen (x ++ y)) : SplitsInto i1 i2 s t (x ++ y) :=
  ⟨_, _, x, y, answersOk_iff.mpr ⟨_, h1, rfl⟩, answersOk_iff.mpr ⟨_, h2, rfl⟩, rfl, by rw [ht]; rfl⟩

/-- The same for unit BPC. -/
theorem splitsInto_of_withB {b1 b2 : Bpc} (h1 : resultOf i1 s = .ok (s.withB b1) x)
    (h2 : resultOf i2 ((s.withB b1).completed i1.unit i1.op i1.ilen x) =
      .ok (((s.withB b1).completed i1.unit i1.op i1.ilen x).withB b2) y)
    (ht : t = (s.withB b2).completed i.unit i.op i.ilen (x ++ y)) : SplitsInto i1 i2 s t (x ++ y) :=
  ⟨_, _, x, y, answersOk_iff.mpr ⟨_, h1, rfl⟩, answersOk_iff.mpr ⟨_, h2, rfl⟩, rfl, by rw [ht]; rfl⟩

end Split

/-! ## GCM -/

theorem gcmAad_split {s t : State} {a b out : Bytes} (h : AnswersOk (.gcmAad (a ++ b)) s t out) :
    SplitsInto (.gcmAad a) (.gcmAad b) s t out := by
  obtain ⟨u, hu, ht⟩ := answersOk_iff.mp h
  obtain ⟨hin, hst, rfl⟩ := gcmAadResult_ok hu
  rw [resultOf_gcmAad_of_open (a ++ b) hin hst] at hu
  cases hu
  rw [aadAbsorb_append] at ht
  refine splitsInto_of_withG (i := .gcmAad (a ++ b)) (x := []) (y := []) (resultOf_gcmAad_of_open a hin hst)
    (resultOf_gcmAad_of_open b ?_ ?_) ht
  · exact (congrArg Gcm.inited (aadAbsorb_frame s.g a)).trans hin
  · exact (congrArg Gcm.started (aadAbsorb_frame s.g a)).trans hst

/-- Feeding makes the partial block longer by no more than the bytes fed. -/
theorem gcmFed_pbuf_length_le (g : Gcm) (d : Bytes) : (gcmFed g d).1.pbuf.length ≤ g.pbuf.length + d.length := by
  unfold gcmFed
  split
  · exact Nat.le_add_right ..
  split
  · have := (bytesEnc_length (startCipher g) d).1
    rw [startCipher_pbuf] at this
    omega
  · simp [bytesDec]

theorem gcmBytes_split {s t : State} {a b out : Bytes} {o : BitVec 24} (hs : s.g.Inv)
    (h : AnswersOk (.gcmBytes (a ++ b) o) s t out) : SplitsInto (.gcmBytes a o) (.gcmBytes b o) s t out := by
  obtain ⟨-, -, -, hpb, -, -, -, -, hwhole, hctr, -, -⟩ := hs
  obtain ⟨u, hu, ht⟩ := answersOk_iff.mp h
  obtain ⟨hin, hcap, hroom, rfl, rfl⟩ := gcmBytes_answered ⟨hpb, hwhole, hctr⟩ hu
  rw [List.length_append] at hcap hroom
  have hpb' := gcmFed_pbuf_length_le s.g a
  rw [gcmFed_append] at ht ⊢
  refine splitsInto_of_withG (i := .gcmBytes (a ++ b) o)
    (resultOf_gcmBytes_of_room hin (fun hdir => ?_) fun ha => ?_)
    (resultOf_gcmBytes_of_room ?_ (fun hdir => ?_) fun hb => ?_) ht
  · have := hcap hdir; omega
  · exact (hroom (by simp [ha])).mono (Nat.le_add_right ..)
  · exact (gcmFed_inited s.g a).trans hin
  · have := hcap ((gcmFed_dir s.g a).symm.trans hdir)
    show 16 * (((gcmFed s.g a).1.pbuf.length + b.length) / 16) ≤ o.toNat
    omega
  · exact (hroom (by simp [hb])).fed

/-! ## BPC -/

/-- How many bytes of a buffer and its data, joined, leave the buffer (R264). -/
def bpcOut (size : Nat) (x : Bytes) : Nat := x.length - bpcKeep size x.length

theorem bpcOut_le (size : Nat) (x : Bytes) : bpcOut size x ≤ x.length := Nat.sub_le ..

theorem bpcOut_eq {size : Nat} (hs : 0 < size) (x : Bytes) : bpcOut size x = size * ((x.length - 1) / size) :=
  (bpcKeep_spec hs).2.2.2

/-- Whole blocks leave. -/
theorem length_take_bpcOut_mod {size : Nat} (hs : 0 < size) (x : Bytes) :
    (x.take (bpcOut size x)).length % size = 0 := by
  rw [List.length_take_of_le (bpcOut_le size x), bpcOut_eq hs, Nat.mul_mod_right]

/-- More data lets more bytes leave, as if what the first part leaves were the buffer of the second. -/
theorem bpcOut_append {size : Nat} (hs : 0 < size) (x y : Bytes) :
    bpcOut size (x ++ y) = bpcOut size x + bpcOut size (x.drop (bpcOut size x) ++ y) := by
  by_cases hx : x = []
  · rw [hx, bpcOut_eq hs []]; simp
  have hpos : 1 ≤ bpcKeep size x.length := by
    rw [bpcKeep, if_neg (mt List.length_eq_zero_iff.mp hx)]; omega
  have hkept : bpcOut size x + bpcKeep size x.length = x.length := Nat.sub_add_cancel (bpcKeep_spec hs).1
  have hsplit : x.length + y.length - 1 =
      size * ((x.length - 1) / size) + (x.length - bpcOut size x + y.length - 1) := by
    rw [← bpcOut_eq hs x]; omega
  rw [bpcOut_eq hs (x ++ y), bpcOut_eq hs (x.drop _ ++ y), List.length_append, List.length_append, List.length_drop,
    hsplit, Nat.mul_add_div hs, Nat.mul_add, ← bpcOut_eq hs x]

/-- The blocks that leave of a joined sequence: those of the first part, and then those of what it leaves with the
second. -/
theorem blocksOf_take_bpcOut_append {size : Nat} (hs : 0 < size) (x y : Bytes) :
    blocksOf size ((x ++ y).take (bpcOut size (x ++ y))) =
      blocksOf size (x.take (bpcOut size x)) ++
        blocksOf size ((x.drop (bpcOut size x) ++ y).take (bpcOut size (x.drop (bpcOut size x) ++ y))) := by
  rw [← blocksOf_append hs _ _ (length_take_bpcOut_mod hs x), bpcOut_append hs, List.take_add,
    List.take_append_of_le_length (bpcOut_le size x), List.drop_append_of_le_length (bpcOut_le size x)]

/-- The unit `b` becomes `b'` and answers `out` when its buffer and data, joined, are `x`: the context runs over the bytes
that leave (R264). -/
def Bpc.Fed (k : Kind) (order : CtrOrder) (b : Bpc) (x : Bytes) (b' : Bpc) (out : Bytes) : Prop :=
  ∃ m, blockSteps k order b.m (blocksOf (mbs k b.m) (x.take (bpcOut (mbs k b.m) x))) = some (m, out) ∧
    b' = { b with m := m, buf := x.drop (bpcOut (mbs k b.m) x) }

/-- Data in two parts: the second part finds the unit that the first one left, with what it left in the buffer. -/
theorem Bpc.Fed.split {k : Kind} {order : CtrOrder} {b b2 : Bpc} {x y out : Bytes} (hs : 0 < mbs k b.m)
    (h : b.Fed k order (x ++ y) b2 out) :
    ∃ b1 out1 out2, b.Fed k order x b1 out1 ∧ b1.Fed k order (b1.buf ++ y) b2 out2 ∧ out1 ++ out2 = out ∧
      mbs k b1.m = mbs k b.m ∧ b1.buf = x.drop (bpcOut (mbs k b.m) x) := by
  obtain ⟨m, hrun, rfl⟩ := h
  rw [blocksOf_take_bpcOut_append hs, blockSteps_append, Option.bind_eq_some_iff] at hrun
  obtain ⟨⟨m1, out1⟩, hfirst, hrun⟩ := hrun
  obtain ⟨⟨m2, out2⟩, hsecond, heq⟩ := Option.map_eq_some_iff.mp hrun
  cases heq
  have hsize : mbs k m1 = mbs k b.m :=
    (blockSteps_length hfirst fun z hz => length_of_mem_blocksOf hs (length_take_bpcOut_mod hs x) hz).2
  refine ⟨{ b with m := m1, buf := x.drop (bpcOut (mbs k b.m) x) }, out1, out2, ⟨m1, hfirst, rfl⟩, ⟨m2, ?_, ?_⟩, rfl,
    hsize, rfl⟩
  · dsimp only
    rw [hsize]
    exact hsecond
  · dsimp only
    rw [hsize, bpcOut_append hs, ← List.drop_drop, List.drop_append_of_le_length (bpcOut_le _ x)]

/-- BPC.BYTES on a constructed unit ends in `return OK` exactly if the unit is ready, there is room for the bytes that
leave the buffer, and the context runs over them. -/
theorem resultOf_bpcBytes_ok_iff {s u : State} {d out : Bytes} {o : BitVec 24} {k : Kind} (hk : s.b.mode = some k) :
    resultOf (.bpcBytes d o) s = .ok u out ↔
      s.b.inited = true ∧ s.b.finished = false ∧ bpcOut (mbs k s.b.m) (s.b.buf ++ d) ≤ o.toNat ∧
        ∃ b, s.b.Fed k s.params.ctrOrder (s.b.buf ++ d) b out ∧ u = s.withB b := by
  constructor
  · intro h
    obtain ⟨k', hk', hin, hfin, h⟩ := whenReady_ok h
    cases hk.symm.trans hk'
    simp only [bpcBytesReady, ← List.length_append] at h
    split at h
    · cases h
    · obtain ⟨m, hrun, rfl⟩ := dataResult_ok h
      exact ⟨hin, hfin, not_lt.mp ‹_›, _, ⟨m, hrun, rfl⟩, rfl⟩
  · rintro ⟨hin, hfin, hcap, b, ⟨m, hrun, rfl⟩, rfl⟩
    have hready : bpcReady s.b = true := by simp [bpcReady, hk, hin, hfin]
    unfold bpcOut at hrun hcap
    simp only [resultOf, whenReady_of_ready hk hready, bpcBytesReady, ← List.length_append, if_neg (not_lt.mpr hcap),
      hrun]
    rfl

theorem bpcBytes_split {s t : State} {a b out : Bytes} {o : BitVec 24} (hs : s.b.Inv)
    (h : AnswersOk (.bpcBytes (a ++ b) o) s t out) : SplitsInto (.bpcBytes a o) (.bpcBytes b o) s t out := by
  obtain ⟨u, hu, ht⟩ := answersOk_iff.mp h
  obtain ⟨k, hk, -⟩ := whenReady_ok hu
  obtain ⟨hin, hfin, hcap, b2, hfed, rfl⟩ := (resultOf_bpcBytes_ok_iff hk).mp hu
  have hpos : 0 < mbs k s.b.m := mbs_pos (hs.2 k hk).1
  rw [← List.append_assoc] at hcap hfed
  obtain ⟨b1, x, y, hfirst, hsecond, rfl, hsize, hbuf⟩ := hfed.split hpos
  rw [bpcOut_append hpos, ← hbuf] at hcap
  obtain ⟨hmode1, hin1, hfin1⟩ : b1.mode = s.b.mode ∧ b1.inited = s.b.inited ∧ b1.finished = s.b.finished := by
    obtain ⟨m, -, rfl⟩ := hfirst; exact ⟨rfl, rfl, rfl⟩
  refine splitsInto_of_withB (i := .bpcBytes (a ++ b) o)
    ((resultOf_bpcBytes_ok_iff hk).mpr ⟨hin, hfin, (Nat.le_add_right ..).trans hcap, b1, hfirst, rfl⟩)
    ((resultOf_bpcBytes_ok_iff (hmode1.trans hk)).mpr ⟨hin1.trans hin, hfin1.trans hfin, ?_, b2, hsecond, rfl⟩) ht
  show bpcOut (mbs k b1.m) (b1.buf ++ b) ≤ o.toNat
  rw [hsize]
  exact (Nat.le_add_left ..).trans hcap

/-- Settles O50: each of the three commands can be split. -/
theorem splittingABufferedStreamChangesNothing : Obligations.SplittingABufferedStreamChangesNothing := by
  rintro s t a b out o cmd hg hb (rfl | rfl | rfl) h
  · exact gcmAad_split h
  · exact gcmBytes_split hg h
  · exact bpcBytes_split hb h

end Sys2Proof.Machine
end

section
/-! Whole GCM sessions (45_gcm.md R220, R229 to R237, R241, 70_reset_and_hazards.md R359): a session just opened, fed its
associated data and its message in any pieces, answers the sealed message or opens it. -/

namespace Sys2Proof.Machine

open Sys2Proof.Config

/-! ## Runs of one command -/

/-- Associated data in pieces is absorbed as a whole, each piece acknowledged. -/
theorem execAll_gcmAad {s : State} (aads : List Bytes) (hin : s.g.inited = true) (hst : s.g.started = false) :
    ∃ t, execAll (aads.map .gcmAad) s = some t ∧ t.g = aadAbsorb s.g aads.flatten ∧ t.params = s.params ∧
      t.rs = s.rs ++ (aads.map fun _ => wireResponse 0x00 7 5 []).flatten := by
  induction aads generalizing s with
  | nil => exact ⟨s, rfl, rfl, rfl, (List.append_nil _).symm⟩
  | cons a aads ih =>
    have hin' : (aadAbsorb s.g a).inited = true := by rw [aadAbsorb_frame]; exact hin
    have hst' : (aadAbsorb s.g a).started = false := by rw [aadAbsorb_frame]; exact hst
    obtain ⟨t, hrun, hg, hparams, hrs⟩ := ih (s := (s.withG (aadAbsorb s.g a)).completed 7 5 a.length []) hin' hst'
    refine ⟨t, ?_, ?_, hparams, ?_⟩
    · rw [List.map_cons, execAll_cons_of_ok (resultOf_gcmAad_of_open a hin hst)]
      exact hrun
    · rw [hg, List.flatten_cons, aadAbsorb_append]; rfl
    · rw [hrs, List.map_cons, List.flatten_cons, ← List.append_assoc]; rfl

/-- Data in pieces is fed as a whole, and the answers joined are its answer. -/
theorem execAll_gcmBytes {s : State} (datas : List (Bytes × BitVec 24))
    (hroom : s.g.Room s.params.capDbuf (datas.map Prod.fst).flatten.length)
    (hcap : s.g.dir = true → ∀ x ∈ datas, x.1.length + 15 ≤ x.2.toNat) :
    ∃ (t : State) (outs : List Bytes), execAll (datas.map fun x => .gcmBytes x.1 x.2) s = some t ∧
      t.g = (gcmFed s.g (datas.map Prod.fst).flatten).1 ∧ outs.length = datas.length ∧
      outs.flatten = (gcmFed s.g (datas.map Prod.fst).flatten).2 ∧
      t.rs = s.rs ++ (outs.map (wireResponse 0x00 7 4)).flatten := by
  induction datas generalizing s with
  | nil => exact ⟨s, [], rfl, rfl, rfl, rfl, (List.append_nil _).symm⟩
  | cons x datas ih =>
    rw [List.map_cons, List.flatten_cons, List.length_append] at hroom
    have hok : resultOf (.gcmBytes x.1 x.2) s = .ok (s.withG (gcmFed s.g x.1).1) (gcmFed s.g x.1).2 :=
      resultOf_gcmBytes_of_room hroom.inited (fun hdir => by
          have hpb := hroom.counter.1
          have := hcap hdir x (List.mem_cons_self ..)
          omega)
        fun _ => hroom.mono (Nat.le_add_right ..)
    obtain ⟨t, outs, hrun, hg, hlen, hout, hrs⟩ :=
      ih (s := (s.withG (gcmFed s.g x.1).1).completed 7 4 x.1.length (gcmFed s.g x.1).2) hroom.fed
        fun hdir y hy => hcap ((gcmFed_dir s.g x.1).symm.trans hdir) y (List.mem_cons_of_mem _ hy)
    refine ⟨t, (gcmFed s.g x.1).2 :: outs, ?_, ?_, ?_, ?_, ?_⟩
    · rw [List.map_cons, execAll_cons_of_ok hok]
      exact hrun
    · rw [hg, List.map_cons, List.flatten_cons, gcmFed_append]; rfl
    · rw [List.length_cons, List.length_cons, hlen]
    · rw [List.flatten_cons, hout, List.map_cons, List.flatten_cons, gcmFed_append]; rfl
    · rw [hrs, List.map_cons, List.flatten_cons, ← List.append_assoc]; rfl

/-! ## A session just opened -/

/-- The session `g`, just opened, after the associated data `aad`, once the cipher has started (R223, R224). -/
def Gcm.withAad (g : Gcm) (aad : Bytes) : Gcm :=
  { g with sat := ghash 0 aad g.h, s := ghash 0 aad g.h, atlen := BitVec.ofNat 64 aad.length, started := true }

theorem startCipher_aadAbsorb_of_fresh {g : Gcm} (hg : g.Fresh) (aad : Bytes) :
    startCipher (aadAbsorb g aad) = g.withAad aad := by
  obtain ⟨-, hst, hs, hsat, hatbuf, hatlen, -⟩ := hg
  have hle : g.atbuf.length ≤ 15 := by rw [hatbuf]; exact Nat.zero_le _
  rw [startCipher_eq (aadAbsorb_atbuf_le aad hle), aadAbsorb_eq aad hle, hatbuf, List.nil_append]
  simp [Gcm.absorbed, hst, hsat, hatlen, ghash_whole_append_rest, Gcm.withAad, hatbuf]

/-- An encrypt session that was just opened, after its data. -/
theorem startCipher_session_encrypt {g : Gcm} (hg : g.Fresh) (hdir : g.dir = true) (aad d : Bytes) :
    startCipher (gcmFed (aadAbsorb g aad) d).1 = (bytesEnc (g.withAad aad) d).1 ∧
      (gcmFed (aadAbsorb g aad) d).2 = (bytesEnc (g.withAad aad) d).2 := by
  rw [← startCipher_aadAbsorb_of_fresh hg]
  exact startCipher_gcmFed_encrypt ((sameConstants_aadAbsorb g aad).2.1.trans hdir) d

/-- A decrypt session that was just opened, after its data. -/
theorem startCipher_session_decrypt {g : Gcm} (hg : g.Fresh) (hdir : g.dir = false) (aad d : Bytes) :
    startCipher (gcmFed (aadAbsorb g aad) d).1 = bytesDec (g.withAad aad) d ∧
      (gcmFed (aadAbsorb g aad) d).2 = [] := by
  rw [← startCipher_aadAbsorb_of_fresh hg]
  exact startCipher_gcmFed_decrypt ((sameConstants_aadAbsorb g aad).2.1.trans hdir) d

theorem sameConstants_session (g : Gcm) (aad d : Bytes) : g.SameConstants (gcmFed (aadAbsorb g aad) d).1 := by
  obtain ⟨hkey, hdir, hmacb, hh, hj0⟩ := sameConstants_aadAbsorb g aad
  obtain ⟨hkey', hdir', hmacb', hh', hj0'⟩ := sameConstants_gcmFed (aadAbsorb g aad) d
  exact ⟨hkey'.trans hkey, hdir'.trans hdir, hmacb'.trans hmacb, hh'.trans hh, hj0'.trans hj0⟩

/-- A session just opened has absorbed associated data and has room within its limits. -/
theorem room_of_fresh {g : Gcm} (hg : g.Fresh) (aad : Bytes) {cap : Option Nat} {n : Nat}
    (hlimit : n ≤ 16 * gcmBlkMax) (hbuf : g.dir = false → fits cap n = true) : (aadAbsorb g aad).Room cap n := by
  obtain ⟨hin, -, -, -, -, -, hpbuf, htotlen, hdbuf, hctrb, -⟩ := hg
  rw [aadAbsorb_frame]
  refine ⟨hin, ⟨?_, ?_, ?_⟩, ?_, fun hdir => ?_⟩
  · rw [hpbuf]; exact Nat.zero_le _
  · rw [htotlen]; rfl
  · rw [htotlen]; exact hctrb
  · have htaken : Gcm.taken g = 0 := by simp [Gcm.taken, htotlen, hpbuf, hdbuf]
    exact (Nat.add_le_add_right htaken.le n).trans (by rwa [Nat.zero_add])
  · simpa [hdbuf] using hbuf hdir

/-- The tag of a session is that of the whole message (R227). -/
theorem gcmAuth_eq_gcmTag {g : Gcm} {aad : Bytes} (hatlen : g.atlen = BitVec.ofNat 64 aad.length) (ct : Bytes) :
    gcmTag g (ghash (ghash 0 aad g.h) ct g.h) g.atlen.toNat ct.length =
      gcmAuth g.key g.h g.j0 g.macb aad ct := by
  rw [hatlen, BitVec.toNat_ofNat, ← gcmTag_mod, Nat.mod_mod, gcmTag_mod]
  rfl

theorem gcmAuth_length {macb : Nat} (hmacb : macb ≤ 16) (key : Bytes) (h j0 : Block) (aad ct : Bytes) :
    (gcmAuth key h j0 macb aad ct).length = macb := by
  rw [gcmAuth, List.length_take, bytesOfBlock_length, min_eq_left hmacb]

/-! ## The sealed message (R236) -/

/-- GCM.FINAL encrypts what the whole blocks of the plaintext leave. -/
theorem gcmLast_encrypted (g : Gcm) (x : Bytes) :
    gcmLast (g.encrypted x) = gcmCrypt g.key (inc32^[wholeLen x / 16] g.ctrb) (x.drop (wholeLen x)) := by
  rw [gcmCrypt_of_length_le (length_drop_wholeLen_lt x).le]; rfl

/-- The closing tag is over the ciphertext of the whole plaintext. -/
theorem closingTag_encrypted {g : Gcm} {x : Bytes} (htot : g.totlen = 0) (hx : x.length < 2 ^ 64) :
    closingTag (g.encrypted x) =
      gcmTag g (ghash g.s (gcmCrypt g.key g.ctrb x) g.h) g.atlen.toNat x.length := by
  have hle := wholeLen_le x
  have hcount : (g.encrypted x).totlen.toNat + (gcmLast (g.encrypted x)).length = x.length := by
    rw [gcmLast_encrypted, gcmCrypt_length, List.length_drop, Gcm.encrypted, htot]
    simp only [BitVec.ofNat_eq_ofNat, BitVec.zero_add, BitVec.toNat_ofNat]
    omega
  have hhash : ghash (g.encrypted x).s (gcmLast (g.encrypted x)) g.h =
      ghash g.s (gcmCrypt g.key g.ctrb x) g.h := by
    rw [gcmLast_encrypted, ← gcmCrypt_whole_append_rest g.key g.ctrb x,
      ghash_append (by rw [gcmCrypt_length, length_take_wholeLen_mod])]
    rfl
  rw [closingTag, hcount, ← hhash]
  rfl

/-- What the data path answers to the whole plaintext, and what GCM.FINAL adds, is the sealed message. -/
theorem sealed_of_fresh {g : Gcm} (hg : g.Fresh) (aad : Bytes) {p : Bytes} (hp : p.length < 2 ^ 64) :
    (bytesEnc (g.withAad aad) p).2 ++
        (gcmLast (bytesEnc (g.withAad aad) p).1 ++ closingTag (bytesEnc (g.withAad aad) p).1) =
      gcmSeal g.key g.h g.j0 g.macb aad p := by
  obtain ⟨-, -, -, -, -, -, hpbuf, htotlen, -, hctrb, -⟩ := hg
  have hpbuf' : (g.withAad aad).pbuf = [] := hpbuf
  have hctrb' : (g.withAad aad).ctrb = g.j0 := hctrb
  have htag := gcmAuth_eq_gcmTag (g := g.withAad aad) (aad := aad) rfl (gcmCrypt g.key g.j0 p)
  rw [gcmCrypt_length] at htag
  rw [bytesEnc_eq p (by rw [hpbuf']; exact Nat.zero_le _), hpbuf', List.nil_append, gcmLast_encrypted,
    closingTag_encrypted (g := g.withAad aad) htotlen hp, ← List.append_assoc, gcmCrypt_whole_append_rest, hctrb']
  exact congrArg (gcmCrypt g.key g.j0 p ++ ·) htag

/-! ## The two sessions -/

/-- The commands of a session before GCM.FINAL, for a session just opened with room for its data. -/
theorem execAll_session {s : State} (aads : List Bytes) (datas : List (Bytes × BitVec 24)) (hfresh : s.g.Fresh)
    (hlimit : (datas.map Prod.fst).flatten.length ≤ 16 * gcmBlkMax)
    (hbuf : s.g.dir = false → fits s.params.capDbuf (datas.map Prod.fst).flatten.length = true)
    (hcap : s.g.dir = true → ∀ x ∈ datas, x.1.length + 15 ≤ x.2.toNat) :
    ∃ (t : State) (outs : List Bytes),
      execAll (aads.map .gcmAad ++ datas.map fun x => .gcmBytes x.1 x.2) s = some t ∧
      t.g = (gcmFed (aadAbsorb s.g aads.flatten) (datas.map Prod.fst).flatten).1 ∧ t.g.Room s.params.capDbuf 0 ∧
      outs.length = datas.length ∧
      outs.flatten = (gcmFed (aadAbsorb s.g aads.flatten) (datas.map Prod.fst).flatten).2 ∧
      t.rs = s.rs ++ (aads.map fun _ => wireResponse 0x00 7 5 []).flatten ++
        (outs.map (wireResponse 0x00 7 4)).flatten := by
  have ⟨hin, hst, _⟩ := hfresh
  obtain ⟨t, hrun, hg, hparams, hrs⟩ := execAll_gcmAad aads hin hst
  have hroom := room_of_fresh hfresh aads.flatten hlimit hbuf
  have hdir : t.g.dir = s.g.dir := by rw [hg]; exact (sameConstants_aadAbsorb s.g aads.flatten).2.1
  have hroom' : t.g.Room t.params.capDbuf (datas.map Prod.fst).flatten.length := by rwa [hg, hparams]
  obtain ⟨u, outs, hrun', hg', hlen, hout, hrs'⟩ := execAll_gcmBytes datas hroom' fun h => hcap (hdir.symm.trans h)
  rw [hg] at hg' hout
  refine ⟨u, outs, ?_, hg', ?_, hlen, hout, by rw [hrs', hrs]⟩
  · rw [execAll_append, hrun]
    exact hrun'
  · rw [hg']
    exact hroom.fed (n := 0)

/-- GCM.FINAL after the other commands of a session. -/
theorem execAll_final {l : List Instr} {s t : State} {o : BitVec 24} {last : Bytes} (hrun : execAll l s = some t)
    (hfinal : exec (.gcmFinal o) t = .next ((t.withG Gcm.reset).completed 7 6 0 last)) :
    ∃ u, execAll (l ++ [.gcmFinal o]) s = some u ∧ u.g = Gcm.reset ∧ u.rs = t.rs ++ wireResponse 0x00 7 6 last := by
  refine ⟨(t.withG Gcm.reset).completed 7 6 0 last, ?_, rfl, rfl⟩
  rw [execAll_append, hrun]
  simp only [Option.bind_some, execAll, hfinal]

/-- Settles O42: after its data (`execAll_session`) the session is the one that the data path leaves, and GCM.FINAL
completes the sealed message (`sealed_of_fresh`). -/
theorem gcmEncryptSessionSealsTheMessage : Obligations.GcmEncryptSessionSealsTheMessage := by
  intro s aads datas o hfresh hdir hlimit hcap ho
  have ⟨_, _, _, _, _, _, _, _, _, _, hmacb⟩ := hfresh
  obtain ⟨t, outs, hrun, hg, hroom, hlen, hout, hrs⟩ :=
    execAll_session aads datas hfresh hlimit (by simp [hdir]) fun _ => hcap
  obtain ⟨-, htdir, htmacb, -⟩ := sameConstants_session s.g aads.flatten (datas.map Prod.fst).flatten
  obtain ⟨hstart, hanswer⟩ := startCipher_session_encrypt hfresh hdir aads.flatten (datas.map Prod.fst).flatten
  have hsealed := sealed_of_fresh hfresh aads.flatten (p := (datas.map Prod.fst).flatten) (by omega)
  rw [← hstart, ← hanswer, ← hg, ← hout] at hsealed
  rw [← hg] at htdir htmacb
  have hpbuf : t.g.pbuf.length ≤ 15 := hroom.counter.1
  obtain ⟨u, hu, hreset, hurs⟩ :=
    execAll_final hrun (exec_gcmFinal_encrypt (o := o) hroom.inited (htdir.trans hdir) (by omega))
  exact ⟨u, outs, _, hu, hreset, hlen, by rw [hurs, hrs], hsealed⟩

/-- Settles O43: after its data (`execAll_session`) the session has answered nothing and buffered the sealed message,
whose tag GCM.FINAL computes again (`gcmAuth_eq_gcmTag`), and decrypting is encrypting again (`gcmCrypt_gcmCrypt`). -/
theorem gcmDecryptSessionOpensTheSealedMessage : Obligations.GcmDecryptSessionOpensTheSealedMessage := by
  intro s aads datas p o hfresh hdir hlimit ho hbuf hdata
  have ⟨_, _, _, _, _, _, _, _, hdbuf, _, hmacb⟩ := hfresh
  have hauth := gcmAuth_length hmacb s.g.key s.g.h s.g.j0 aads.flatten (gcmCrypt s.g.key s.g.j0 p)
  have hlength : (datas.map Prod.fst).flatten.length = p.length + s.g.macb := by
    rw [hdata, gcmSeal, List.length_append, gcmCrypt_length, hauth]
  obtain ⟨t, outs, hrun, hg, hroom, hlen, hout, hrs⟩ :=
    execAll_session aads datas hfresh (by rw [hlength, gcmBlkMax]; omega) (fun _ => hlength ▸ hbuf) (by simp [hdir])
  obtain ⟨htkey, htdir, htmacb, hth, htj0⟩ :=
    sameConstants_session s.g aads.flatten (datas.map Prod.fst).flatten
  obtain ⟨hstart, hanswer⟩ := startCipher_session_decrypt hfresh hdir aads.flatten (datas.map Prod.fst).flatten
  rw [← hg] at hstart htkey htdir htmacb hth htj0
  rw [← hout, List.flatten_eq_nil_iff] at hanswer
  have houts : outs.map (wireResponse 0x00 7 4) = datas.map fun _ => wireResponse 0x00 7 4 [] := by
    rw [List.map_const', ← hlen, ← List.map_const']
    exact List.map_congr_left fun x hx => by rw [hanswer x hx]
  have htdbuf : t.g.dbuf = gcmSeal s.g.key s.g.h s.g.j0 s.g.macb aads.flatten p := by
    have hempty : (s.g.withAad aads.flatten).dbuf = [] := hdbuf
    rw [← startCipher_dbuf, hstart, bytesDec, hempty, hdata]
    rfl
  have htag : sessionTag t.g (gcmCrypt s.g.key s.g.j0 p) =
      gcmAuth s.g.key s.g.h s.g.j0 s.g.macb aads.flatten (gcmCrypt s.g.key s.g.j0 p) := by
    rw [sessionTag, hstart, hth]
    exact gcmAuth_eq_gcmTag (g := bytesDec (s.g.withAad aads.flatten) _) rfl _
  have hfinal := exec_gcmFinal_decrypt o hroom.inited (htdir.trans hdir) htdbuf (hauth.trans htmacb.symm)
  rw [if_neg (by rw [gcmCrypt_length]; omega), if_neg (not_not.mpr htag), htkey, htj0, gcmCrypt_gcmCrypt] at hfinal
  obtain ⟨u, hu, hreset, hurs⟩ := execAll_final hrun hfinal
  exact ⟨u, hu, hreset, by rw [hurs, hrs, houts]⟩

end Sys2Proof.Machine
end

section
/-! The commands of unit BPC (46_bpc.md R260, R262 to R267, R269): what a unit that is ready and one that is not answer,
the data path over whole blocks with its drift (44_ctr.md R203), and the commands around it. -/

namespace Sys2Proof.Machine

open Sys2Proof.Config

/-! ## A unit that is ready, and one that is not (R260) -/

section Ready

variable {i : Instr} {s : State} {f : Kind → CmdResult}

theorem exec_of_ready {k : Kind} (hi : resultOf i s = whenReady s f) (hk : s.b.mode = some k)
    (hin : s.b.inited = true) (hfin : s.b.finished = false) : exec i s = .next ((f k).finish i s) := by
  have hready : bpcReady s.b = true := by simp [bpcReady, hk, hin, hfin]
  rw [exec_eq_finish, hi, whenReady_of_ready hk hready]

theorem exec_of_not_ready (hi : resultOf i s = whenReady s f)
    (h : s.b.mode = none ∨ s.b.inited = false ∨ s.b.finished = true) :
    exec i s = .next (s.errored i.unit i.op i.ilen 0x10) := by
  rw [exec_eq_finish, hi, whenReady_finish]
  cases hmode : s.b.mode with
  | none => rfl
  | some k => exact congrArg _ (if_pos (h.resolve_left (by simp [hmode])))

end Ready

/-! ## INIT and RESET (R262, R263) -/

/-- Settles O46: the results of the two commands by the kind of the unit, of INIT also by what `ModeInit` answers, and of
RESET by whether the unit is initialised. -/
theorem bpcInitAndReset : Obligations.BpcInitAndReset := by
  intro dir t s
  rw [exec_eq_finish, exec_eq_finish, resultOf, resultOf, bpcInitResult, bpcResetResult]
  cases s.b.mode with
  | none => exact ⟨rfl, rfl⟩
  | some k =>
    constructor
    · dsimp only
      cases modeInit k dir t s.p s.b.m <;> rfl
    · cases hin : s.b.inited <;> rfl

/-! ## The data path over whole blocks (R203, R264) -/

theorem blockSteps_singleton (k : Kind) (order : CtrOrder) (m : ModeCtx) (x : Bytes) :
    blockSteps k order m [x] = blockStep k order m x := by
  rw [blockSteps]
  rcases blockStep k order m x with _ | ⟨m1, out⟩
  · rfl
  · simp [blockSteps]

/-- Counter mode does not see where one block ends. -/
theorem blockSteps_ctr_eq (order : CtrOrder) (m : ModeCtx) (xs : List Bytes) :
    blockSteps .ctr order m xs = ctrBytes order m xs.flatten := by
  induction xs generalizing m with
  | nil => rfl
  | cons x xs ih =>
    rw [← List.singleton_append, blockSteps_append, blockSteps_singleton, List.flatten_append, ctrBytes_append,
      List.flatten_singleton]
    simp only [ih]
    rfl

theorem ctrBytes_eq_none_iff {order : CtrOrder} {m : ModeCtx} {d : Bytes} (hcur : m.cur < 16) :
    ctrBytes order m d = none ↔ CtrDrifts order m d.length := by
  refine ⟨fun hnone => ?_, ctrBytes_of_drifts hcur⟩
  by_contra hd
  rw [ctrBytes_of_not_drifts hcur hd] at hnone
  cases hnone

/-- The block steps fail exactly in counter mode, when a block they open drifts. -/
theorem blockSteps_eq_none_iff {k : Kind} {order : CtrOrder} {m : ModeCtx} {xs : List Bytes} (hcur : m.cur < 16) :
    blockSteps k order m xs = none ↔ k = .ctr ∧ CtrDrifts order m xs.flatten.length := by
  rw [← ctrBytes_eq_none_iff hcur]
  constructor
  · intro hnone
    obtain rfl := blockSteps_none hnone
    exact ⟨rfl, blockSteps_ctr_eq order m xs ▸ hnone⟩
  · rintro ⟨rfl, hnone⟩
    exact (blockSteps_ctr_eq order m xs).trans hnone

theorem length_flatten_of_blocks {n : Nat} {xs : List Bytes} (hxs : ∀ x ∈ xs, x.length = n) :
    xs.flatten.length = xs.length * n := by
  rw [List.length_flatten, List.map_congr_left hxs, List.map_const', List.sum_replicate, smul_eq_mul]

/-- How a command ends whose data path runs `xs`, blocks of `n` bytes in all, from a block boundary. -/
theorem exec_blockSteps {i : Instr} {s : State} {put : ModeCtx → State} {k : Kind} {order : CtrOrder} {m : ModeCtx}
    {xs : List Bytes} {n : Nat} (hexec : exec i s = .next ((dataResult put (blockSteps k order m xs)).finish i s))
    (hcur : m.cur = 0) (hxs : ∀ x ∈ xs, x.length = mbs k m) (hn : xs.flatten.length = n) :
    (k = .ctr ∧ CtrDrifts order m n → exec i s = .next (s.haltedBy i.unit i.op 0x87)) ∧
    (¬ (k = .ctr ∧ CtrDrifts order m n) →
      ∃ m' out, blockSteps k order m xs = some (m', out) ∧ out.length = n ∧
        exec i s = .next ((put m').completed i.unit i.op i.ilen out)) := by
  have hnone := blockSteps_eq_none_iff (k := k) (order := order) (xs := xs) (show m.cur < 16 by omega)
  rw [hn] at hnone
  rw [← hnone, hexec]
  constructor
  · intro hrun
    rw [hrun]
    rfl
  · intro hrun
    obtain ⟨⟨m', out⟩, hsome⟩ := Option.ne_none_iff_exists'.mp hrun
    refine ⟨m', out, hsome, ?_, by rw [hsome]; rfl⟩
    rw [(blockSteps_length hsome hxs).1, ← length_flatten_of_blocks hxs, hn]

/-! ## BYTES (R264) -/

theorem exec_bpcBytes {s : State} {k : Kind} (hk : s.b.mode = some k) (hin : s.b.inited = true)
    (hfin : s.b.finished = false) (d : Bytes) (o : BitVec 24) {n : Nat}
    (hn : n = s.b.buf.length + d.length - bpcKeep (mbs k s.b.m) (s.b.buf.length + d.length)) :
    exec (.bpcBytes d o) s = .next
      (if o.toNat < n then s.haltedBy 8 4 0x82
       else (dataResult (fun m => s.withB { s.b with m := m, buf := (s.b.buf ++ d).drop n })
         (blockSteps k s.params.ctrOrder s.b.m (blocksOf (mbs k s.b.m) ((s.b.buf ++ d).take n)))).finish
           (.bpcBytes d o) s) := by
  subst hn
  rw [exec_of_ready (i := .bpcBytes d o) rfl hk hin hfin, bpcBytesReady]
  dsimp only
  rw [apply_ite (CmdResult.finish (.bpcBytes d o) s)]
  rfl

/-- The bytes that leave the buffer are whole blocks, and the context stands at a block boundary (`bpcKeep_spec`), so the
data path ends as `exec_blockSteps` says. -/
theorem bpcBytes_keeps_last_block {k : Kind} (d : Bytes) (o : BitVec 24) {s : State} (hs : s.b.Inv)
    (hk : s.b.mode = some k) (hin : s.b.inited = true) (hfin : s.b.finished = false) {n : Nat}
    (hn : n = s.b.buf.length + d.length - bpcKeep (mbs k s.b.m) (s.b.buf.length + d.length)) (hcap : n ≤ o.toNat) :
    n % mbs k s.b.m = 0 ∧
    (k = .ctr ∧ CtrDrifts s.params.ctrOrder s.b.m n → exec (.bpcBytes d o) s = .next (s.haltedBy 8 4 0x87)) ∧
    (¬ (k = .ctr ∧ CtrDrifts s.params.ctrOrder s.b.m n) →
      ∃ m out, blockSteps k s.params.ctrOrder s.b.m (blocksOf (mbs k s.b.m) ((s.b.buf ++ d).take n)) = some (m, out) ∧
        out.length = n ∧
        exec (.bpcBytes d o) s = .next
          ((s.withB { s.b with m := m, buf := (s.b.buf ++ d).drop n }).completed 8 4 d.length out)) := by
  have hlive : s.b.Live k := Bpc.live_iff.mpr ⟨hs, hk, hin⟩
  have hpos : 0 < mbs k s.b.m := mbs_pos hlive.ctx
  obtain ⟨-, -, hwhole, -⟩ := bpcKeep_spec (total := s.b.buf.length + d.length) hpos
  rw [← hn] at hwhole
  have hlen : ((s.b.buf ++ d).take n).length = n := by
    rw [List.length_take, List.length_append]; omega
  have hexec := (exec_bpcBytes hk hin hfin d o hn).trans (congrArg _ (if_neg (not_lt.mpr hcap)))
  refine ⟨hwhole, exec_blockSteps hexec hlive.boundary (fun x hx => ?_) ?_⟩
  · exact length_of_mem_blocksOf hpos (by rw [hlen]; exact hwhole) hx
  · rw [blocksOf_flatten hpos, hlen]

/-- Settles O47: a ready unit answers as `exec_bpcBytes` says, with room as `bpcBytes_keeps_last_block` says; the
equations are those of the block step's definition. -/
theorem bpcBytesKeepsTheLastBlockBack : Obligations.BpcBytesKeepsTheLastBlockBack := by
  refine ⟨?_, fun _ _ _ => rfl, fun _ _ _ _ _ => rfl, fun _ _ _ => ⟨rfl, rfl, rfl, rfl, rfl⟩⟩
  intro k d o s hs hk
  refine ⟨fun h => exec_of_not_ready (i := .bpcBytes d o) rfl (.inr h), fun hin hfin hcap => ?_, fun hin hfin hcap => ?_⟩
  · exact (exec_bpcBytes hk hin hfin d o rfl).trans (congrArg _ (if_pos hcap))
  · exact bpcBytes_keeps_last_block d o hs hk hin hfin rfl hcap

/-! ## FINAL when encrypting (R266) -/

/-- The blocks that are complete before padding: the buffer if it is full. -/
def bpcFullBlocks (size : Nat) (buf : Bytes) : List Bytes :=
  if buf.length = size then [buf] else []

/-- The padded block: the bytes of a buffer that is not full, or none, and the padding after them. -/
def bpcPadded (size : Nat) (buf : Bytes) : Bytes :=
  if buf.length = size then padAdd (zeros size) 0 else padAdd (buf ++ zeros (size - buf.length)) buf.length

/-- `FinalEnc` runs the complete blocks and then the padded one. -/
theorem bpcFinalEnc_eq (k : Kind) (o : BitVec 24) (s : State) :
    bpcFinalEnc k o s =
      if o.toNat < (if s.b.buf.length = mbs k s.b.m then 2 * mbs k s.b.m else mbs k s.b.m) then .err .outShort
      else dataResult (fun m => s.withB { s.b with m := m, buf := [], finished := true })
        (blockSteps k s.params.ctrOrder s.b.m
          (bpcFullBlocks (mbs k s.b.m) s.b.buf ++ [bpcPadded (mbs k s.b.m) s.b.buf])) := by
  rw [bpcFinalEnc, bpcFullBlocks, bpcPadded]
  by_cases hfull : s.b.buf.length = mbs k s.b.m
  · simp only [if_pos hfull]
    rfl
  · simp only [if_neg hfull]

theorem length_of_mem_bpcFinalBlocks {size : Nat} {buf x : Bytes} (hbuf : buf.length ≤ size)
    (hx : x ∈ bpcFullBlocks size buf ++ [bpcPadded size buf]) : x.length = size := by
  rcases List.mem_append.mp hx with hx | hx
  · rw [bpcFullBlocks] at hx
    split at hx
    next hfull => rw [List.mem_singleton.mp hx, hfull]
    next => cases hx
  · rw [List.mem_singleton.mp hx, bpcPadded]
    split
    · exact padAdd_tail_length (tail := []) (Nat.zero_le size)
    · exact padAdd_tail_length hbuf

theorem length_flatten_bpcFinalBlocks {size : Nat} {buf : Bytes} (hbuf : buf.length ≤ size) :
    (bpcFullBlocks size buf ++ [bpcPadded size buf]).flatten.length =
      if buf.length = size then 2 * size else size := by
  rw [length_flatten_of_blocks fun x hx => length_of_mem_bpcFinalBlocks hbuf hx, bpcFullBlocks]
  split <;> simp

/-- Running the complete blocks is one block step on a full buffer, and nothing on any other. -/
theorem blockSteps_bpcFullBlocks {k : Kind} {order : CtrOrder} {m m1 : ModeCtx} {size : Nat} {buf out : Bytes}
    (h : blockSteps k order m (bpcFullBlocks size buf) = some (m1, out)) :
    if buf.length = size then blockStep k order m buf = some (m1, out) else m1 = m ∧ out = [] := by
  rw [bpcFullBlocks] at h
  split at h
  next hfull => rw [if_pos hfull, ← blockSteps_singleton, h]
  next hpart =>
    cases h
    rw [if_neg hpart]
    exact ⟨rfl, rfl⟩

theorem exec_bpcFinal_encrypt {s : State} {k : Kind} (hk : s.b.mode = some k) (hin : s.b.inited = true)
    (hfin : s.b.finished = false) (hdir : s.b.dir = true) (o : BitVec 24) :
    exec (.bpcFinal o) s = .next
      (if o.toNat < (if s.b.buf.length = mbs k s.b.m then 2 * mbs k s.b.m else mbs k s.b.m) then
         s.errored 8 6 0 0x11
       else (dataResult (fun m => s.withB { s.b with m := m, buf := [], finished := true })
         (blockSteps k s.params.ctrOrder s.b.m
           (bpcFullBlocks (mbs k s.b.m) s.b.buf ++ [bpcPadded (mbs k s.b.m) s.b.buf]))).finish (.bpcFinal o) s) := by
  rw [exec_of_ready (i := .bpcFinal o) rfl hk hin hfin, bpcFinalReady, if_pos hdir, bpcFinalEnc_eq,
    apply_ite (CmdResult.finish (.bpcFinal o) s)]
  rfl

/-- Settles O48: the checks of `exec_bpcFinal_encrypt`; with room its blocks end the command as `exec_blockSteps` says,
the complete ones first and then the padded one (`blockSteps_append`). -/
theorem bpcFinalEncryptPadsOneBlock : Obligations.BpcFinalEncryptPadsOneBlock := by
  intro k o s hs hk hin hfin hdir size order full need padded drift
  have hlive : s.b.Live k := Bpc.live_iff.mpr ⟨hs, hk, hin⟩
  have hexec := exec_bpcFinal_encrypt hk hin hfin hdir o
  have hends (hcap : need ≤ o.toNat) :=
    exec_blockSteps (hexec.trans (congrArg _ (if_neg (not_lt.mpr hcap)))) hlive.boundary
      (fun x hx => length_of_mem_bpcFinalBlocks hlive.buf hx) (length_flatten_bpcFinalBlocks hlive.buf)
  refine ⟨fun hcap => hexec.trans (congrArg _ (if_pos hcap)), fun hcap => (hends hcap).1, fun hcap hno => ?_⟩
  obtain ⟨m2, out, hrun, hlen, hend⟩ := (hends hcap).2 hno
  rw [blockSteps_append, Option.bind_eq_some_iff] at hrun
  obtain ⟨⟨m1, out1⟩, hfirst, hrun⟩ := hrun
  rw [blockSteps_singleton] at hrun
  obtain ⟨⟨m2, out2⟩, hlast, heq⟩ := Option.map_eq_some_iff.mp hrun
  cases heq
  exact ⟨m1, out1, m2, out2, blockSteps_bpcFullBlocks hfirst, hlast, hlen, hend⟩

/-! ## FINAL when decrypting (R267), and a unit that is not ready (R260, R269) -/

/-- Settles O49: the checks of `FinalDec` in their order, and `exec_of_not_ready` for each of the three commands. -/
theorem bpcFinalDecryptAndNotReady : Obligations.BpcFinalDecryptAndNotReady := by
  constructor
  · intro k o s hk hin hfin hdir size
    rw [exec_of_ready (i := .bpcFinal o) rfl hk hin hfin, bpcFinalReady, if_neg (by simp [hdir]), bpcFinalDec]
    dsimp only
    rw [apply_ite (CmdResult.finish (.bpcFinal o) s)]
    refine congrArg _ (ite_congr rfl (fun _ => rfl) fun _ => ?_)
    rcases blockStep k s.params.ctrOrder s.b.m s.b.buf with _ | ⟨m, d⟩
    · rfl
    dsimp only
    cases padCount d with
    | none => rfl
    | some cnt => exact apply_ite (CmdResult.finish (.bpcFinal o) s) _ _ _
  · intro d len o s h
    refine ⟨exec_of_not_ready (i := .bpcBytes d o) rfl h, exec_of_not_ready (i := .bpcFinal o) rfl h, fun ho => ?_⟩
    exact exec_of_not_ready (i := .bpcOsize len o) (if_neg (not_lt.mpr ho)) h

end Sys2Proof.Machine
end

section
/-! A message fed to a MAC unit in pieces (47_hmac.md R284, 48_kmac.md R304). -/

namespace Sys2Proof.Machine

/-- If one command takes a state that has been fed `x` to one that has been fed its payload too, then a run of such
commands feeds the payloads joined, each acknowledged with `ack`, as long as the whole message has at most `n` bytes. -/
theorem execAll_pieces {cmd : Bytes → Instr} {ack : Bytes} {Fed : Bytes → State → Prop} {n : Nat}
    (hcmd : ∀ {x d : Bytes} {s : State}, Fed x s → (x ++ d).length ≤ n →
      ∃ t, exec (cmd d) s = .next t ∧ Fed (x ++ d) t ∧ t.rs = s.rs ++ ack)
    {x : Bytes} {s : State} (parts : List Bytes) (hs : Fed x s) (hn : (x ++ parts.flatten).length ≤ n) :
    ∃ t, execAll (parts.map cmd) s = some t ∧ Fed (x ++ parts.flatten) t ∧
      t.rs = s.rs ++ (parts.map fun _ => ack).flatten := by
  induction parts generalizing x s with
  | nil => exact ⟨s, rfl, (List.append_nil x).symm ▸ hs, (List.append_nil _).symm⟩
  | cons d parts ih =>
    rw [List.flatten_cons, ← List.append_assoc] at hn ⊢
    have hd : (x ++ d).length ≤ n := by rw [List.length_append] at hn; omega
    obtain ⟨t, ht, hfed, hrs⟩ := hcmd hs hd
    obtain ⟨u, hu, hfed', hrs'⟩ := ih hfed hn
    refine ⟨u, ?_, hfed', ?_⟩
    · simp only [List.map_cons, execAll, ht, hu]
    · rw [hrs', hrs, List.map_cons, List.flatten_cons, List.append_assoc]

end Sys2Proof.Machine
end

section
/-! Unit HMAC (47_hmac.md R280 to R287): its commands check by check, and the MAC of a message in any pieces. -/

namespace Sys2Proof.Machine

open Sys2Proof.Config

/-! ## The commands (R282 to R285) -/

theorem exec_hmacInit (dir : Bool) (t : PType) (s : State) :
    exec (.hmacInit dir t) s = .next
      (if t ≠ .key then s.haltedBy 9 1 0x85
       else if s.p.keyv = false then s.haltedBy 9 1 0x89
       else if fits s.params.capMsg hmacBl then (s.withHm (hmacPrimed s.p.key)).completed 9 1 0 []
       else s.errored 9 1 0 0x17) := by
  have hdg : (hmacPrimed s.p.key).dg.length = hmacBl := hmacPad_length hmacIpad s.p.key
  rw [exec_eq_finish, resultOf, hmacInitResult, hdg]
  simp only [apply_ite (CmdResult.finish (.hmacInit dir t) s), Bool.not_eq_true']
  rfl

theorem exec_hmacReset (s : State) :
    exec .hmacReset s = .next
      (if s.hm.inited = true then (s.withHm { s.hm with dg := s.hm.ipad }).completed 9 2 0 []
       else s.completed 9 2 0 []) := by
  rw [exec_eq_finish, resultOf, hmacResetResult, apply_ite (CmdResult.finish .hmacReset s)]
  rfl

theorem exec_hmacUpdate (d : Bytes) (s : State) :
    exec (.hmacUpdate d) s = .next
      (if s.hm.inited = false then s.errored 9 4 d.length 0x10
       else if fits s.params.capMsg (s.hm.dg.length + d.length) then
         (s.withHm { s.hm with dg := s.hm.dg ++ d }).completed 9 4 d.length []
       else s.errored 9 4 d.length 0x17) := by
  rw [exec_eq_finish, resultOf, hmacUpdateResult]
  simp only [apply_ite (CmdResult.finish (.hmacUpdate d) s), Bool.not_eq_true']
  rfl

theorem exec_hmacFinal (o : BitVec 24) (s : State) :
    exec (.hmacFinal o) s = .next
      (if s.hm.inited = false then s.errored 9 6 0 0x10
       else if o.toNat < digestSize then s.errored 9 6 0 0x11
       else (s.withHm { s.hm with dg := s.hm.ipad }).completed 9 6 0 (hmacMac s.hm)) := by
  rw [exec_eq_finish, resultOf, hmacFinalResult]
  simp only [apply_ite (CmdResult.finish (.hmacFinal o) s), Bool.not_eq_true']
  rfl

/-- The block length is the digest's own where it exposes one (R280). -/
theorem hmacBl_eq_getD : hmacBl = (digestByteLenPred.map fun v => v + 1).getD 64 := by
  rw [hmacBl, hmacBlPred]
  cases digestByteLenPred <;> rfl

/-- Settles O51, command by command; the pads that INIT primes the unit with are those of `hmacPrimed`. -/
theorem hmacCommands : Obligations.HmacCommands := fun dir t d o s =>
  ⟨hmacBl_eq_getD, exec_hmacInit dir t s, exec_hmacReset s, exec_hmacUpdate d s, exec_hmacFinal o s⟩

/-! ## A message in pieces (R286, R287) -/

/-- Under the constants `p`, the unit is `hm` and its digest has absorbed `x` on top. -/
def HmacFed (p : Params) (hm : Hmac) (x : Bytes) (s : State) : Prop :=
  s.params = p ∧ s.hm = { hm with dg := hm.dg ++ x }

theorem hmacFed_nil (s : State) : HmacFed s.params s.hm [] s :=
  ⟨rfl, by rw [List.append_nil]⟩

theorem HmacFed.update {p : Params} {hm : Hmac} {x d : Bytes} {s : State} (h : HmacFed p hm x s)
    (hin : hm.inited = true) (hfits : fits p.capMsg (hm.dg.length + (x ++ d).length) = true) :
    ∃ t, exec (.hmacUpdate d) s = .next t ∧ HmacFed p hm (x ++ d) t ∧ t.rs = s.rs ++ wireResponse 0x00 9 4 [] := by
  obtain ⟨rfl, hhm⟩ := h
  have hroom : fits s.params.capMsg (s.hm.dg.length + d.length) = true := by
    simpa [hhm, Nat.add_assoc] using hfits
  refine ⟨(s.withHm { s.hm with dg := s.hm.dg ++ d }).completed 9 4 d.length [], ?_, ⟨rfl, ?_⟩, rfl⟩
  · rw [exec_hmacUpdate, if_neg (by simp [hhm, hin]), if_pos hroom]
  · show ({ s.hm with dg := s.hm.dg ++ d } : Hmac) = _
    rw [hhm, List.append_assoc]

/-- A primed unit fed a message in pieces: FINAL, given room for the MAC, answers it and leaves the unit primed. -/
theorem execAll_hmacUpdate_of_primed {s : State} {key : Bytes} (parts : List Bytes) (o : BitVec 24)
    (hhm : s.hm = hmacPrimed key) (hfits : fits s.params.capMsg (hmacBl + parts.flatten.length) = true) :
    ∃ u, execAll (parts.map .hmacUpdate) s = some u ∧ u.params = s.params ∧
      u.rs = s.rs ++ (parts.map fun _ => wireResponse 0x00 9 4 []).flatten ∧
      exec (.hmacFinal o) u = .next
        (if o.toNat < digestSize then u.errored 9 6 0 0x11
         else (u.withHm (hmacPrimed key)).completed 9 6 0
           (digestOf (hmacPad hmacOpad key ++ digestOf (hmacPad hmacIpad key ++ parts.flatten)))) := by
  have hlen : s.hm.dg.length = hmacBl := by rw [hhm]; exact hmacPad_length hmacIpad key
  have hin : s.hm.inited = true := by rw [hhm]; rfl
  obtain ⟨u, hu, ⟨hparams, huhm⟩, hrs⟩ := execAll_pieces (n := parts.flatten.length) (ack := wireResponse 0x00 9 4 [])
    (fun h hn => h.update hin (fits_of_le hfits (by omega))) parts (hmacFed_nil s) le_rfl
  refine ⟨u, hu, hparams, hrs, ?_⟩
  rw [exec_hmacFinal, huhm, hhm]
  rfl

/-- Settles O52: INIT primes the unit, and the message can be fed to a primed unit twice
(`execAll_hmacUpdate_of_primed`). -/
theorem hmacAnswersTheNestedDigest : Obligations.HmacAnswersTheNestedDigest := by
  intro s dir parts o hkeyv hfits short key mac feed acks
  have hinit : exec (.hmacInit dir .key) s = .next ((s.withHm (hmacPrimed s.p.key)).completed 9 1 0 []) := by
    rw [exec_hmacInit, if_neg (by simp), if_neg (by simp [hkeyv]), if_pos (fits_of_le hfits (Nat.le_add_right ..))]
  obtain ⟨u, hu, huparams, hurs, hufinal⟩ := execAll_hmacUpdate_of_primed
    (s := (s.withHm (hmacPrimed s.p.key)).completed 9 1 0 []) parts o rfl hfits
  obtain ⟨w, hw, -, hwrs, hwfinal⟩ := execAll_hmacUpdate_of_primed
    (s := (u.withHm (hmacPrimed s.p.key)).completed 9 6 0 mac) parts o rfl
    ((congrArg (fun p => fits p.capMsg _) huparams).trans hfits)
  exact ⟨_, u, _, w, hinit, hu, hurs, rfl, hufinal, hw, hwrs, hwfinal⟩

end Sys2Proof.Machine
end

section
/-! Unit KMAC (48_kmac.md R300 to R307): its commands check by check, and the MAC of a message in any pieces. -/

namespace Sys2Proof.Machine

open Sys2Proof.Config

/-! ## The commands (R301 to R305) -/

theorem MacSize.bytes_eq (m : MacSize) : m.bytes = m.bits / 8 := by
  cases m <;> rfl

theorem macSizeOf_eq (imm : BitVec 24) :
    macSizeOf imm = if imm = 32 then .m32 else if imm = 128 then .m128 else .m64 := by
  rw [macSizeOf]
  simp only [← BitVec.toNat_inj]
  rfl

theorem exec_kmacCfg (imm : BitVec 24) (s : State) :
    exec (.kmacCfg imm) s = .next ((s.withKm { Kmac.reset with macbits := macSizeOf imm }).completed 10 0 0 []) :=
  exec_eq_finish (.kmacCfg imm) s

theorem exec_kmacInit (dir : Bool) (t : PType) (s : State) :
    exec (.kmacInit dir t) s = .next
      (if t ≠ .key ∧ t ≠ .keyIv then s.haltedBy 10 1 0x85
       else if s.p.keyv = false then s.haltedBy 10 1 0x89
       else if t = .keyIv ∧ s.p.ivv = false then s.haltedBy 10 1 0x83
       else if sgOk s.p.key (if t = .keyIv then some s.p.iv else none) = false then s.errored 10 1 0 0x18
       else (s.withKm { s.km with sgkey := s.p.key, sgiv := if t = .keyIv then some s.p.iv else none, pos := 0,
                                  msg := [], inited := true }).completed 10 1 0 []) := by
  rw [exec_eq_finish, resultOf, kmacInitResult]
  simp only [apply_ite (CmdResult.finish (.kmacInit dir t) s), Bool.not_eq_true']
  refine congrArg _ (ite_congr rfl (fun _ => rfl) fun _ => ite_congr rfl (fun _ => rfl) fun _ =>
    ite_congr rfl (fun _ => rfl) fun _ => ?_)
  cases sgOk s.p.key (if t = .keyIv then some s.p.iv else none) <;> rfl

theorem exec_kmacReset (s : State) :
    exec .kmacReset s = .next
      (if s.km.inited = true then (s.withKm { s.km with msg := [], pos := 0 }).completed 10 2 0 []
       else s.completed 10 2 0 []) := by
  rw [exec_eq_finish, resultOf, kmacResetResult, apply_ite (CmdResult.finish .kmacReset s)]
  rfl

theorem exec_kmacUpdate (d : Bytes) (s : State) :
    exec (.kmacUpdate d) s = .next
      (if s.km.inited = false then s.errored 10 4 d.length 0x10
       else if fits s.params.capMsg (s.km.msg.length + d.length) then
         (s.withKm { s.km with msg := s.km.msg ++ d }).completed 10 4 d.length []
       else s.errored 10 4 d.length 0x17) := by
  rw [exec_eq_finish, resultOf, kmacUpdateResult]
  simp only [apply_ite (CmdResult.finish (.kmacUpdate d) s), Bool.not_eq_true']
  rfl

theorem exec_kmacFinal (o : BitVec 24) (s : State) :
    exec (.kmacFinal o) s = .next
      (if s.km.inited = false then s.errored 10 6 0 0x10
       else if o.toNat < s.km.macbits.bits / 8 then s.errored 10 6 0 0x11
       else (s.withKm { s.km with msg := [], pos := 0 }).completed 10 6 0 (kmacMac s.km)) := by
  rw [exec_eq_finish, resultOf, kmacFinalResult, MacSize.bytes_eq]
  simp only [apply_ite (CmdResult.finish (.kmacFinal o) s), Bool.not_eq_true']
  rfl

/-- Settles O53, command by command. -/
theorem kmacCommands : Obligations.KmacCommands := by
  intro dir t d imm o s size iv
  refine ⟨?_, exec_kmacInit dir t s, exec_kmacReset s, exec_kmacUpdate d s, ?_⟩
  · rw [exec_kmacCfg, macSizeOf_eq]; rfl
  · rw [exec_kmacFinal, kmacMac, MacSize.bytes_eq]

/-! ## A message in pieces (R305 to R307) -/

/-- Under the constants `p`, the unit is `km` and has collected `x` on top. -/
def KmacFed (p : Params) (km : Kmac) (x : Bytes) (s : State) : Prop :=
  s.params = p ∧ s.km = { km with msg := km.msg ++ x }

theorem kmacFed_nil (s : State) : KmacFed s.params s.km [] s :=
  ⟨rfl, by rw [List.append_nil]⟩

theorem KmacFed.update {p : Params} {km : Kmac} {x d : Bytes} {s : State} (h : KmacFed p km x s)
    (hin : km.inited = true) (hfits : fits p.capMsg (km.msg.length + (x ++ d).length) = true) :
    ∃ t, exec (.kmacUpdate d) s = .next t ∧ KmacFed p km (x ++ d) t ∧ t.rs = s.rs ++ wireResponse 0x00 10 4 [] := by
  obtain ⟨rfl, hkm⟩ := h
  have hroom : fits s.params.capMsg (s.km.msg.length + d.length) = true := by
    simpa [hkm, Nat.add_assoc] using hfits
  refine ⟨(s.withKm { s.km with msg := s.km.msg ++ d }).completed 10 4 d.length [], ?_, ⟨rfl, ?_⟩, rfl⟩
  · rw [exec_kmacUpdate, if_neg (by simp [hkm, hin]), if_pos hroom]
  · show ({ s.km with msg := s.km.msg ++ d } : Kmac) = _
    rw [hkm, List.append_assoc]

/-- The mix has at least the bytes of the MAC, so the MAC has just its size (R18, R307). -/
theorem length_take_mixOf (msg ks : Bytes) (m : MacSize) : ((mixOf msg ks m).take (m.bits / 8)).length = m.bits / 8 := by
  rw [← MacSize.bytes_eq, List.length_take, mixOf, List.length_append, Vector.length_toList]
  exact min_eq_left (Nat.le_add_right ..)

/-- The MAC of a generator at position 0 takes its first `4 * ceil(len / 4)` bytes (R306, R307). -/
theorem kmacMac_of_pos_zero {km : Kmac} (hpos : km.pos = 0) :
    kmacMac km =
      (mixOf km.msg ((List.range (4 * ((km.msg.length + 3) / 4))).map (sgKs km.sgkey km.sgiv)) km.macbits).take
        (km.macbits.bits / 8) := by
  rw [kmacMac, deriveKs, deriveWords_eq, hpos, MacSize.bytes_eq]
  simp only [Nat.zero_add]

/-- A keyed unit at the start of a message, fed the message in pieces and then FINAL, answers the MAC and is back at the
start. -/
theorem execAll_kmac_message {s : State} {km : Kmac} (parts : List Bytes) {o : BitVec 24} (hkm : s.km = km)
    (hin : km.inited = true) (hpos : km.pos = 0) (hmsg : km.msg = []) (ho : km.macbits.bits / 8 ≤ o.toNat)
    (hfits : fits s.params.capMsg parts.flatten.length = true) :
    ∃ u, execAll (parts.map .kmacUpdate ++ [.kmacFinal o]) s = some u ∧ u.params = s.params ∧
      u.rs = s.rs ++ ((parts.map fun _ => wireResponse 0x00 10 4 []).flatten ++
        wireResponse 0x00 10 6 (kmacMac { km with msg := parts.flatten })) ∧ u.km = km := by
  subst hkm
  obtain ⟨t, ht, ⟨hparams, htkm⟩, hrs⟩ := execAll_pieces (n := parts.flatten.length) (ack := wireResponse 0x00 10 4 [])
    (fun h hn => h.update hin (fits_of_le hfits (by rw [hmsg, List.length_nil]; omega))) parts (kmacFed_nil s) le_rfl
  rw [List.nil_append, hmsg, List.nil_append] at htkm
  have hrewind : ({ t.km with msg := [], pos := 0 } : Kmac) = s.km := by rw [htkm, ← hmsg, ← hpos]
  have hfinal : exec (.kmacFinal o) t =
      .next ((t.withKm s.km).completed 10 6 0 (kmacMac { s.km with msg := parts.flatten })) := by
    rw [exec_kmacFinal, if_neg (by simp [htkm, hin]), if_neg (by simpa [htkm] using ho), hrewind, htkm]
  refine ⟨(t.withKm s.km).completed 10 6 0 (kmacMac { s.km with msg := parts.flatten }), ?_, hparams, ?_, rfl⟩
  · rw [execAll_append, ht]
    simp only [Option.bind_some, execAll, hfinal]
  · rw [← List.append_assoc, ← hrs]; rfl

/-- Settles O54: the whole message can be run twice (`execAll_kmac_message`), and its MAC takes the generator's first
bytes (`kmacMac_of_pos_zero`). -/
theorem kmacMixesTheFirstKeystreamBytes : Obligations.KmacMixesTheFirstKeystreamBytes := by
  intro s parts o hin hpos hmsg ho hfits ks mac message answers
  have hmac : kmacMac { s.km with msg := parts.flatten } = mac := kmacMac_of_pos_zero hpos
  obtain ⟨u, hu, huparams, hurs, hukm⟩ := execAll_kmac_message parts rfl hin hpos hmsg ho hfits
  obtain ⟨v, hv, -, hvrs, hvkm⟩ := execAll_kmac_message parts hukm hin hpos hmsg ho (by rwa [huparams])
  rw [hmac] at hurs hvrs
  exact ⟨length_take_mixOf _ _ _, u, v, hu, hurs, hukm, hv, hvrs, hvkm⟩

end Sys2Proof.Machine
end
